-- ==== Sys2Proof/Word.lean ====
section
/-! DEFINITION. The words of the block (one byte, one bit cell, the 2-bit command code) and the one
piece of plain arithmetic every unit shares. -/

namespace Sys2Proof

/-- One byte of byte space. Bit 7 is the most significant bit (R9). -/
abbrev Byte := BitVec 8

/-- One cell of bit space holds exactly 0 or 1 (R21); a model represents it by one bit. -/
abbrev Bit := Bool

/-- `ceil8(n) = (n + 7) div 8` (R9, R17 (e)): how many bytes `n` packed bits take. -/
def ceil8 (n : Nat) : Nat := (n + 7) / 8

end Sys2Proof
end

