-- ==== Sys2Proof/Config.lean ====
section
/-! DEFINITION. What is fixed for the machine: the constants of R7, the parameters of R8 as a record,
and the free values, opaque constants nothing in Lean can evaluate. -/

namespace Sys2Proof

/-- First byte of a verbatim token (R7). -/
def SENTINEL : Byte := 0x80#8
/-- Largest run length in one run token (R7). -/
def RUN_MAX : Nat := 127
/-- A run qualifies for a run token iff its length is strictly greater than this (R7, R132). -/
def RUN_THRESHOLD : Nat := 8
/-- Largest bit count in one verbatim token; the accumulator flushes when it reaches it (R7). -/
def VERB_MAX : Nat := 256
/-- Stored count byte = actual bit count − 1 (R7). -/
def COUNT_BIAS : Nat := 1
/-- Bits per packed byte (R7). -/
def BYTE_BITS : Nat := 8

/-- The open parameters of R8. State carries them as an argument no step changes (log 3). -/
structure Params where
  /-- `MAX_BITS`: capacity of the bit memory in cells. -/
  maxBits  : Nat
  /-- `MAX_BYTES`: capacity of the byte memory in bytes. -/
  maxBytes : Nat
  /-- `CELL_W`: width of one storage unit; only 0 and 1 are ever stored, so no rule depends on it. -/
  cellW    : Nat
  /-- `LEN_W`: width of every length, offset and cursor register. -/
  lenW     : Nat
deriving DecidableEq, Repr

/-- The constraints of R8: `CELL_W ≥ 1` and
`2^LEN_W > max(MAX_BITS, 127·MAX_BYTES, 8·MAX_BYTES) + 34`. -/
abbrev Params.wf (p : Params) : Prop :=
  1 ≤ p.cellW ∧ max p.maxBits (max (127 * p.maxBytes) (8 * p.maxBytes)) + 34 < 2 ^ p.lenW

/-- Free bit of draw `k`: an exposed cell (U8), or a one-bit internal register after a command (U7). -/
opaque Config.freeBit : Nat → Bit
/-- Free byte of draw `k`: a byte exposed by raising `BY_LEN` (U8). -/
opaque Config.freeByte : Nat → Byte
/-- Free number of draw `k`: a `LEN_W`-bit internal register after a command (U7). -/
opaque Config.freeNat : Nat → Nat
/-- Free accumulator contents of draw `k` (U7). -/
opaque Config.freeAcc : Nat → Vector Bit 256
/-- What cell `i` of the bit memory holds before anything has written it (U6). -/
opaque Config.unwrittenBit : Nat → Bit
/-- What byte `a` of the byte memory holds before anything has written it (U6). -/
opaque Config.unwrittenByte : Nat → Byte

end Sys2Proof
end

