-- ==== Sys2Proof/Syntax.lean ====
section
/-! DEFINITION. The instruction set, both levels (R1): four commands the host issues and four token
kinds the decoder interprets. One constructor per row of spec/opcode_table.json. -/

namespace Sys2Proof

/-- One instruction. The operands of a command are registers, not part of the code (R80); the
operands of a token are its own bytes (R74). -/
inductive Instr where
  /-- EXPLODE, command code 0 (R102). -/
  | explode
  /-- IMPLODE, command code 1 (R117). -/
  | implode
  /-- RLE_ENC, command code 2 (R135). -/
  | rleEnc
  /-- RLE_DEC, command code 3 (R161). -/
  | rleDec
  /-- VERB: the stored count byte and the payload bytes (R72, R168). -/
  | verb (sc : Byte) (payload : List Byte)
  /-- ZRUN: the reserved byte 0x00 (R76, R169). -/
  | zrun
  /-- RUN0: `len` zeros, 1 to 127 (R71, R166). -/
  | run0 (len : BitVec 7)
  /-- RUN1: `len` ones, 1 to 127 (R71, R167). -/
  | run1 (len : BitVec 7)
deriving DecidableEq, Repr

/-- The actual bit count of a stored count, `count = sc + 1`, 1 to 256 (R74, R17 (b)). -/
def verbCount (sc : Byte) : Nat := sc.toNat + 1

/-- The stride of a verbatim token, `2 + ceil8(count)` bytes (R73). -/
def verbStride (sc : Byte) : Nat := 2 + ceil8 (verbCount sc)

/-- The commands, as against the tokens. -/
def Instr.isCommand : Instr → Bool
  | .explode | .implode | .rleEnc | .rleDec => true
  | .verb _ _ | .zrun | .run0 _ | .run1 _ => false

end Sys2Proof
end

