-- ==== Sys2Proof/Machine/State.lean ====
section
/-! DEFINITION. The state of the block and of its host, as plain data; the reasons a step can stop;
the state after reset. -/

namespace Sys2Proof.Machine

open Sys2Proof

/-- A memory: the cells that have been written, each once, addresses strictly rising. `Memory Byte`
is a list of `Host.Cell`. An unlisted address holds no written value; reading it gives the free value
of Config (log 7), so no entry can equal what an unlisted address reads as. -/
abbrev Memory (α : Type) := List (Nat × α)

/-- The two passes of the decoder (R30). -/
inductive DecPass where
  /-- Pass 1, size computation (`DEC_PASS = 0`). -/
  | size
  /-- Pass 2, materialisation (`DEC_PASS = 1`). -/
  | materialise
deriving DecidableEq, Repr

/-- The two states of the encoder (R31). -/
inductive EncMode where
  /-- `ENC_MODE = 0`. -/
  | scanningRun
  /-- `ENC_MODE = 1`. -/
  | accumulatingVerbatim
deriving DecidableEq, Repr

/-- The error kinds of `STATUS.ERR` (R211). -/
inductive ErrKind where
  | none | capacity | malformed | allocation | range
deriving DecidableEq, Repr

/-- The engine-internal registers (R29 to R32). They have a meaning only while a command runs (R33). -/
structure Engine where
  /-- `TOK_PC`, the decoder's byte cursor, the only program counter of the block (R29). -/
  tokPc    : Nat
  /-- `DEC_PASS` (R30). -/
  decPass  : DecPass
  /-- `DEC_TOTAL`, the bits counted so far in pass 1 (R30). -/
  decTotal : Nat
  /-- `WR_CUR`, the next cell pass 2 writes (R30). -/
  wrCur    : Nat
  /-- `ENC_MODE` (R31). -/
  encMode  : EncMode
  /-- `RD_POS`, the next unread cell (R31). -/
  rdPos    : Nat
  /-- `WR_POS`, the next byte the encoder writes (R31). -/
  wrPos    : Nat
  /-- `ENC_N`, the number of bits to encode (R31). -/
  encN     : Nat
  /-- `ACC`, the 256 one-bit elements of the verbatim accumulator (R32). -/
  acc      : Vector Bit 256
  /-- `ACC_CNT`, how many of them are pending (R32). -/
  accCnt   : Nat
deriving DecidableEq, Repr

/-- What a host access can read (R38). -/
inductive HostRead where
  | bvLen | byLen | cmd | argOff | argNbits | status | errInfo
  | bit (i : Nat)
  | byte (a : Nat)
deriving DecidableEq, Repr

/-- One move of the host (R38, R254). -/
inductive HostMove where
  /-- Read a register, a cell or a byte. -/
  | read (r : HostRead)
  /-- `BV_LEN <- n`. -/
  | writeBvLen (n : Nat)
  /-- `BY_LEN <- n`. -/
  | writeByLen (n : Nat)
  /-- `ARG_OFF <- v`. -/
  | writeArgOff (v : Nat)
  /-- `ARG_NBITS <- v`. -/
  | writeArgNbits (v : Nat)
  /-- `BIT[i] <- v`. A value other than 0 or 1 cannot be written down (U16). -/
  | writeBit (i : Nat) (v : Bit)
  /-- `BYTE[a] <- v`. -/
  | writeByte (a : Nat) (v : Byte)
  /-- `CMD <- c`, which starts the command (R25, R225). -/
  | writeCmd (c : BitVec 2)
  /-- Apply reset (R240). -/
  | reset
deriving DecidableEq, Repr

/-- Who acts in a step (R16). -/
inductive Agent where
  | host | engine
deriving DecidableEq, Repr

/-- The host as an agent (log 2; the model's own fields). -/
structure HostSide where
  /-- The host's coming moves, first one first. -/
  moves    : List HostMove
  /-- Who acts in the coming steps; when it is empty the host acts while `BUSY = 0` and the engine
  while `BUSY = 1` (R247). -/
  schedule : List Agent
  /-- The value the host's last read returned. -/
  readData : Nat
deriving DecidableEq, Repr

/-- The two granularities R14 offers (log 1; the model's own field). -/
inductive Grain where
  /-- A command is one transition: the function form. -/
  | command
  /-- A command is a start, machine steps and a final step (R140, R170). -/
  | machine
deriving DecidableEq, Repr

/-- The state of the block (R20), its parameters (R8), its host, and the model's own counters. -/
structure State where
  /-- `MAX_BITS`, `MAX_BYTES`, `CELL_W`, `LEN_W` (R8, log 3): no step changes them. -/
  params   : Params
  /-- Granularity of commands (log 1): no step changes it. -/
  grain    : Grain
  /-- `BITMEM` (R21). -/
  bitMem   : Memory Bit
  /-- `BV_LEN` (R22). -/
  bvLen    : Nat
  /-- `BYTEMEM` (R23). -/
  byteMem  : Memory Byte
  /-- `BY_LEN` (R24). -/
  byLen    : Nat
  /-- `CMD` (R25). -/
  cmd      : BitVec 2
  /-- `ARG_OFF` (R26). -/
  argOff   : Nat
  /-- `ARG_NBITS` (R26). -/
  argNbits : Nat
  /-- `STATUS`: bit 0 `BUSY`, bits 3:1 `ERR`, bits 7:4 reserved (R27). -/
  status   : BitVec 8
  /-- `ERR_INFO` (R28). -/
  errInfo  : Nat
  /-- The engine-internal registers (R29 to R32). -/
  eng      : Engine
  /-- The host (log 2). -/
  host     : HostSide
  /-- How many free values have been drawn (log 10). -/
  draws    : Nat
deriving DecidableEq, Repr

/-- Why the machine stops. No run from a state meeting the invariant reaches one (log 15). -/
inductive Fault where
  /-- A decoder token in pass 2 would write a cell at or above `MAX_BITS` (R51). Raised by RUN0,
  RUN1 and VERB. Safe: the machine stops where the spec forms no such access. -/
  | bitAddressOutside
  /-- The encoder's machine form would write a byte at or above `MAX_BYTES` (R51). Raised by the
  engine step of RLE_ENC. Safe, as above. -/
  | byteAddressOutside
  /-- `BUSY = 1` and no step of the machine form of the running command is enabled (R140, R170).
  Raised by the engine step. Safe: the spec gives no step. -/
  | noStepEnabled
deriving DecidableEq, Repr

/-- What the model gives no meaning to, because the spec gives none. -/
inductive Refusal where
  /-- An instruction that has no meaning yet, by mnemonic. Safe. -/
  | notModelled (mnemonic : String)
  /-- A host access other than a read of STATUS, or a write of CMD, while `BUSY = 1` (R38, U9).
  Raised by the host port and the command meanings. Unsafe: a real host may break its duty (log 18). -/
  | accessWhileBusy
  /-- A host access to a cell at or above `BV_LEN` or a byte at or above `BY_LEN` (R38, U1). Raised by
  the host port. Safe. -/
  | indexBeyondLength
  /-- A host write of a length above the capacity (R38). Raised by the host port. Safe. -/
  | lengthBeyondCapacity
  /-- A host write of a value that needs more than `LEN_W` bits (R26). Raised by the host port. Safe. -/
  | valueTooWide
  /-- A VERB term whose payload has not `ceil8(count)` bytes: no token of the format (R72), and
  `UNPACK` is not defined on it (R12). Raised by VERB. Safe: the decoder never makes one. -/
  | illFormedToken
  /-- In pass 2 the bytes at `TOK_PC` are no token: the stream is not the one pass 1 walked, which has
  no defined behaviour (R245, U12). Raised by the engine step of RLE_DEC. Safe. -/
  | streamChanged
deriving DecidableEq, Repr

/-- The engine-internal registers in the model's state after reset. R39 leaves every one unspecified;
the zeros are a DESIGN CHOICE (log 5), and no rule reads them before its command sets them (R33). -/
def Engine.zero : Engine where
  tokPc := 0
  decPass := .size
  decTotal := 0
  wrCur := 0
  encMode := .scanningRun
  rdPos := 0
  wrPos := 0
  encN := 0
  acc := Vector.replicate 256 false
  accCnt := 0

/-- The machine right after reset (R39): both lengths 0, every host-visible register 0, memories with
nothing listed. The parameters are a DESIGN CHOICE (log 3); the host is still and the command grain is
the function form (logs 1, 2). -/
def State.reset : State where
  params := { maxBits := 65536, maxBytes := 32768, cellW := 1, lenW := 22 }
  grain := .command
  bitMem := []
  bvLen := 0
  byteMem := []
  byLen := 0
  cmd := 0#2
  argOff := 0
  argNbits := 0
  status := 0#8
  errInfo := 0
  eng := Engine.zero
  host := { moves := [], schedule := [], readData := 0 }
  draws := 0

end Sys2Proof.Machine
end

