-- ==== Sys2Proof/Machine/Flags.lean ====
section
/-! DEFINITION. The flags of the block: the fields of STATUS (R27) with the error codes (R211), and the
encoder's mode flag (R31, R141). -/

namespace Sys2Proof.Machine

open Sys2Proof

/-- The code of an error in `STATUS.ERR` (R211). -/
def ErrKind.code : ErrKind → BitVec 3
  | .none => 0#3
  | .capacity => 1#3
  | .malformed => 2#3
  | .allocation => 3#3
  | .range => 4#3

/-- The error a code stands for; codes 5 to 7 are never produced (R211). -/
def ErrKind.ofCode (c : BitVec 3) : Option ErrKind :=
  if c = 0#3 then some .none
  else if c = 1#3 then some .capacity
  else if c = 2#3 then some .malformed
  else if c = 3#3 then some .allocation
  else if c = 4#3 then some .range
  else none

/-- The STATUS byte with the given fields (R27): reserved bits 7:4, `ERR` bits 3:1, `BUSY` bit 0. -/
def statusOf (reserved : BitVec 4) (err : BitVec 3) (busy : Bool) : BitVec 8 :=
  reserved ++ err ++ BitVec.ofBool busy

/-- `STATUS.BUSY` (R27). -/
def State.busy (s : State) : Bool := s.status.getLsbD 0

/-- `STATUS.ERR` (R27). -/
def State.errCode (s : State) : BitVec 3 := s.status.extractLsb' 1 3

/-- `STATUS[7:4]`, which reads as 0 and is never written (R27). -/
def State.reservedBits (s : State) : BitVec 4 := s.status.extractLsb' 4 4

/-- Writes `STATUS.BUSY` and nothing else of STATUS. -/
def State.setBusy (b : Bool) (s : State) : State :=
  { s with status := statusOf s.reservedBits s.errCode b }

/-- The end of a command writes `STATUS.ERR`, clears `BUSY` and keeps the reserved bits (R27). -/
def State.endStatus (e : ErrKind) (s : State) : BitVec 8 := statusOf s.reservedBits e.code false

/-- `ENC_MODE` between steps: ACCUMULATING_VERBATIM exactly when the accumulator is not empty (R31, R141). -/
def encModeOf (accCnt : Nat) : EncMode := if accCnt > 0 then .accumulatingVerbatim else .scanningRun

end Sys2Proof.Machine
end

