-- ==== Sys2Proof/Machine/Ops.lean ====
section
/-! DEFINITION. The shared operations over memory and registers: reading and writing a memory, the
current vector and buffer (R13), the end of a command, and taking an error (R217). -/

namespace Sys2Proof.Machine

open Sys2Proof

/-! ### One memory -/

/-- The form of a memory: addresses strictly rising. -/
abbrev Memory.wf {α : Type} (m : Memory α) : Prop := m.Pairwise fun x y => x.1 < y.1

/-- Every listed address lies in an address space of `cap` places (R51). -/
abbrev Memory.within {α : Type} (cap : Nat) (m : Memory α) : Prop := ∀ x ∈ m, x.1 < cap

/-- What has been written at an address, if anything. -/
def Memory.get? {α : Type} : Memory α → Nat → Option α
  | [], _ => none
  | (k, v) :: m, a => if k = a then some v else Memory.get? m a

/-- The values `vs` as cells from address `base` on. -/
def Memory.cellsFrom {α : Type} (base : Nat) : List α → Memory α
  | [] => []
  | v :: vs => (base, v) :: Memory.cellsFrom (base + 1) vs

/-- Writes the values `vs` at `base, base + 1, …` and leaves every other address alone. -/
def Memory.writeRange {α : Type} (m : Memory α) (base : Nat) (vs : List α) : Memory α :=
  m.filter (fun x => x.1 < base) ++ Memory.cellsFrom base vs ++
    m.filter (fun x => base + vs.length ≤ x.1)

/-! ### The two memories of the block -/

/-- `BIT[i]` (R13). A cell nothing has written holds a free bit (U6, log 7). -/
def State.bit (s : State) (i : Nat) : Bit := (s.bitMem.get? i).getD (Config.unwrittenBit i)

/-- `BYTE[a]` (R13). A byte nothing has written holds a free byte (U6, log 7). -/
def State.byte (s : State) (a : Nat) : Byte := (s.byteMem.get? a).getD (Config.unwrittenByte a)

/-- `BV`, the current bit vector (R13, R22). -/
def State.bitVector (s : State) : List Bit := (List.range s.bvLen).map s.bit

/-- `BY`, the current byte buffer (R13, R24). -/
def State.byteBuffer (s : State) : List Byte := (List.range s.byLen).map s.byte

/-- `BIT[base + i] <- X[i]` for every `i < |X|`. -/
def State.writeBits (base : Nat) (X : List Bit) (s : State) : State :=
  { s with bitMem := s.bitMem.writeRange base X }

/-- `BYTE[base + j] <- P[j]` for every `j < |P|`. -/
def State.writeBytes (base : Nat) (P : List Byte) (s : State) : State :=
  { s with byteMem := s.byteMem.writeRange base P }

/-- `BV <- X` (R13). -/
def State.storeBv (X : List Bit) (s : State) : State :=
  { s.writeBits 0 X with bvLen := X.length }

/-- `BY <- P` (R13). -/
def State.storeBy (P : List Byte) (s : State) : State :=
  { s.writeBytes 0 P with byLen := P.length }

/-! ### Lengths written by the host -/

/-- `n` fresh free bits (U8, log 8). -/
def freshBits (draw n : Nat) : List Bit := (List.range n).map fun i => Config.freeBit (draw + i)

/-- `n` fresh free bytes (U8, log 8). -/
def freshBytes (draw n : Nat) : List Byte := (List.range n).map fun i => Config.freeByte (draw + i)

/-- `BV_LEN <- n`, by the host. A cell that enters the vector holds an unspecified bit (R38, U8): a fresh
free value. -/
def State.hostSetBvLen (n : Nat) (s : State) : State :=
  { s.writeBits s.bvLen (freshBits s.draws (n - s.bvLen)) with
    bvLen := n, draws := s.draws + (n - s.bvLen) }

/-- `BY_LEN <- n`, by the host, in the same way. -/
def State.hostSetByLen (n : Nat) (s : State) : State :=
  { s.writeBytes s.byLen (freshBytes s.draws (n - s.byLen)) with
    byLen := n, draws := s.draws + (n - s.byLen) }

/-! ### The end of a command -/

/-- Internal registers nothing specifies (U7, log 6): each a free value of its own width. -/
def Engine.free (p : Params) (k : Nat) : Engine where
  tokPc := Config.freeNat k % 2 ^ p.lenW
  decPass := if Config.freeBit k then .materialise else .size
  decTotal := Config.freeNat (k + 1) % 2 ^ p.lenW
  wrCur := Config.freeNat (k + 2) % 2 ^ p.lenW
  encMode := if Config.freeBit (k + 1) then .accumulatingVerbatim else .scanningRun
  rdPos := Config.freeNat (k + 3) % 2 ^ p.lenW
  wrPos := Config.freeNat (k + 4) % 2 ^ p.lenW
  encN := Config.freeNat (k + 5) % 2 ^ p.lenW
  acc := Config.freeAcc k
  accCnt := Config.freeNat (k + 6) % 257

/-- How many draws `Engine.free` takes. -/
def engineDraws : Nat := 7

/-- The last action of every command (R225 (4)): `STATUS.ERR`, `ERR_INFO`, `BUSY <- 0`. What the
internal registers hold afterwards is unspecified (R33). -/
def State.endCommand (e : ErrKind) (info : Nat) (s : State) : State :=
  { s with
    status := s.endStatus e, errInfo := info
    eng := Engine.free s.params s.draws, draws := s.draws + engineDraws }

/-- The end of a command that succeeds: `STATUS.ERR <- NONE ; ERR_INFO <- 0 ; STATUS.BUSY <- 0`. -/
def State.succeed (s : State) : State := s.endCommand .none 0

/-- Taking an error, `raise E(info)` (R217): the command ends, `ERR_INFO` is the token offset for
MALFORMED and 0 otherwise, and nothing else changes but the internal registers. There is no handler and
no return from it: the outcome stands until the next command ends (R218). -/
def State.raise (e : ErrKind) (info : Nat) (s : State) : State := s.endCommand e info

/-- Writes `CMD`. -/
def State.withCmd (c : BitVec 2) (s : State) : State := { s with cmd := c }

/-- Writes internal registers. -/
def State.withEng (e : Engine) (s : State) : State := { s with eng := e }

/-- Issuing a command in the function form: refused while one runs (R38); otherwise `CMD` takes the code
and the command's effect is one transition (R225, R56). -/
def issue (c : BitVec 2) (effect : State → State) (s : State) :
    Host.Outcome State Fault Refusal :=
  if s.busy then .refused .accessWhileBusy else .next (effect (s.withCmd c))

end Sys2Proof.Machine
end

