-- ==== Sys2Proof/Machine/Packing.lean ====
section
/-! DEFINITION. The two packing primitives of the block: `PACK` (R11) and `UNPACK` (R12), both
MSB-first (R52). -/

namespace Sys2Proof.Machine

open Sys2Proof

/-- Byte `j` of `PACK(X)` (R11): bit `7 − k` is `X[8·j + k]`, or 0 beyond the end of `X`. The bits are
shifted in from the first, so the first ends in the most significant place. -/
def packByte (X : List Bit) (j : Nat) : Byte :=
  (List.range 8).foldl (fun b k => b.shiftConcat (X.getD (8 * j + k) false)) 0#8

/-- `PACK(X)` (R11): `ceil8(|X|)` bytes. -/
def pack (X : List Bit) : List Byte := (List.range (ceil8 X.length)).map (packByte X)

/-- Packed bit `k` of a byte sequence (R52): `P[k div 8][7 − (k mod 8)]`. Every caller has checked
`k < 8·|P|`. -/
def packedBit (P : List Byte) (k : Nat) : Bit := (P.getD (k / 8) 0#8).getLsbD (7 - k % 8)

/-- `UNPACK(P, off, n)` (R12). Every caller has checked `off + n ≤ 8·|P|`. -/
def unpack (P : List Byte) (off n : Nat) : List Bit := (List.range n).map fun i => packedBit P (off + i)

end Sys2Proof.Machine
end

