-- ==== Sys2Proof/Machine/Operands.lean ====
section
/-! DEFINITION. The operand forms: the command operands read from registers and memories (R26, R101,
R116, R130, R160), and the bits a token stands for (R71, R72, R74). -/

namespace Sys2Proof.Machine

open Sys2Proof

/-- `RUN v, len`: a run token's bits, `rep(v, len)` with `len` zero-extended (R71, R74). -/
def runBits (v : Bit) (len : BitVec 7) : List Bit := List.replicate len.toNat v

/-- A verbatim token's bits, `UNPACK(payload, 0, count)` (R72). -/
def verbBits (sc : Byte) (payload : List Byte) : List Bit := unpack payload 0 (verbCount sc)

/-- EXPLODE's source operand leaves the packed array: `ARG_OFF + ARG_NBITS > 8·BY_LEN`, a comparison of
natural numbers (R103, R17). -/
def State.explodeOutOfRange (s : State) : Bool := s.argOff + s.argNbits > 8 * s.byLen

/-- EXPLODE's source operand: `ARG_NBITS` packed bits from packed bit `ARG_OFF` of `BY` (R101). -/
def State.explodeSource (s : State) : List Bit := unpack s.byteBuffer s.argOff s.argNbits

/-- IMPLODE's source operand leaves the vector: `ARG_OFF + ARG_NBITS > BV_LEN` (R118). -/
def State.implodeOutOfRange (s : State) : Bool := s.argOff + s.argNbits > s.bvLen

/-- IMPLODE's source operand: `X[off .. off+n)` of `BV` (R116). -/
def State.implodeSource (s : State) : List Bit := (s.bitVector.drop s.argOff).take s.argNbits

/-- RLE_ENC's prefix is longer than the vector: `ARG_NBITS > BV_LEN` (R137). `ARG_OFF` is ignored. -/
def State.encodeOutOfRange (s : State) : Bool := s.argNbits > s.bvLen

/-- RLE_ENC's source operand: the first `ARG_NBITS` bits of `BV` (R130). -/
def State.encodeSource (s : State) : List Bit := s.bitVector.take s.argNbits

/-- RLE_DEC's source operand: the token stream `BY`, `BY_LEN` bytes (R160). `ARG_OFF` and `ARG_NBITS`
are ignored. -/
def State.decodeSource (s : State) : List Byte := s.byteBuffer

end Sys2Proof.Machine
end

