-- ==== Sys2Proof/Machine/Explode.lean ====
section
/-! DEFINITION. The exploder: EXPLODE (40_explode.md). -/

namespace Sys2Proof.Machine

open Sys2Proof

/-- EXPLODE, function form (R102), with its errors in the order R103 tests them. -/
def explodeEffect (s : State) : State :=
  if s.explodeOutOfRange then s.raise .range 0
  else if s.argNbits > s.params.maxBits then s.raise .allocation 0
  else (s.storeBv s.explodeSource).succeed

/-- The command EXPLODE, `CMD <- 0` (R102). -/
def execExplode (s : State) : Host.Outcome State Fault Refusal := issue 0#2 explodeEffect s

end Sys2Proof.Machine
end

