-- ==== Sys2Proof/Machine/Implode.lean ====
section
/-! DEFINITION. The imploder: IMPLODE (41_implode.md). -/

namespace Sys2Proof.Machine

open Sys2Proof

/-- IMPLODE, function form (R117), with its errors in the order R118 tests them. -/
def implodeEffect (s : State) : State :=
  if s.implodeOutOfRange then s.raise .range 0
  else if ceil8 s.argNbits > s.params.maxBytes then s.raise .allocation 0
  else (s.storeBy (pack s.implodeSource)).succeed

/-- The command IMPLODE, `CMD <- 1` (R117). -/
def execImplode (s : State) : Host.Outcome State Fault Refusal := issue 1#2 implodeEffect s

end Sys2Proof.Machine
end

