-- ==== Sys2Proof/WellFormed.lean ====
section
/-! DEFINITION. Which terms of `Instr` are instructions of the encoding. -/

namespace Sys2Proof

/-- A run token of a named kind has a length of 1 to 127: value 0 length 0 is ZRUN and value 1
length 0 is the sentinel (R71, R77). A verbatim token has exactly `ceil8(count)` payload bytes (R72). -/
def WellFormed : Instr → Bool
  | .explode | .implode | .rleEnc | .rleDec | .zrun => true
  | .run0 len => len != 0#7
  | .run1 len => len != 0#7
  | .verb sc payload => payload.length == ceil8 (verbCount sc)

end Sys2Proof
end

