-- ==== Sys2Proof/Decode.lean ====
section
/-! DEFINITION. The two decoders of the block and the encoder: the command code written to `CMD`
(R80) and the token at the head of a byte sequence (R73, R75), each total, rejecting by name. -/

namespace Sys2Proof

/-- Why a byte sequence starts with no token. -/
inductive DecodeError where
  /-- No byte at all. -/
  | noByte
  /-- A sentinel that is the last byte: the count byte is missing (R165). -/
  | noCountByte
  /-- The payload of the verbatim token is not all there (R165). -/
  | payloadTruncated
deriving DecidableEq, Repr

/-- The token kinds of the first-byte map (R75). -/
inductive TokenKind where
  | verb | zrun | run0 | run1
deriving DecidableEq, Repr

/-- The 2-bit command code (R80): all four values are defined (R25). -/
def decodeCmd (c : BitVec 2) : Instr :=
  if c = 0#2 then .explode
  else if c = 1#2 then .implode
  else if c = 2#2 then .rleEnc
  else .rleDec

/-- Match and mask on the first byte, tried in the order VERB, ZRUN, RUN0, RUN1 (R75, R83). -/
def firstByteKind (b : Byte) : TokenKind :=
  if b &&& 0xFF#8 = SENTINEL then .verb
  else if b &&& 0xFF#8 = 0x00#8 then .zrun
  else if b &&& 0x80#8 = 0x00#8 then .run0
  else .run1

/-- The token at the head of a byte sequence, with the bytes after it (R73, R74). -/
def decodeToken : List Byte → Except DecodeError (Instr × List Byte)
  | [] => .error .noByte
  | b :: rest =>
    match firstByteKind b with
    | .zrun => .ok (.zrun, rest)
    | .run0 => .ok (.run0 (b.extractLsb' 0 7), rest)
    | .run1 => .ok (.run1 (b.extractLsb' 0 7), rest)
    | .verb =>
      match rest with
      | [] => .error .noCountByte
      | sc :: tail =>
        if ceil8 (verbCount sc) ≤ tail.length then
          .ok (.verb sc (tail.take (ceil8 (verbCount sc))), tail.drop (ceil8 (verbCount sc)))
        else .error .payloadTruncated

/-- The two places an instruction's bits can stand in: the `CMD` register and the token stream. -/
inductive Encoding where
  /-- A value of the 2-bit `CMD` register. -/
  | cmd (code : BitVec 2)
  /-- The bytes of one token, lowest address first. -/
  | token (bytes : List Byte)
deriving DecidableEq, Repr

/-- The bits of an instruction, from the encoding tables of R71, R72, R80 and R82. -/
def encode : Instr → Encoding
  | .explode => .cmd 0#2
  | .implode => .cmd 1#2
  | .rleEnc => .cmd 2#2
  | .rleDec => .cmd 3#2
  | .verb sc payload => .token (0x80#8 :: sc :: payload)
  | .zrun => .token [0x00#8]
  | .run0 len => .token [0#1 ++ len]
  | .run1 len => .token [1#1 ++ len]

/-- Decoding of an encoding in its own place: a command code, or the token at the head of a byte
sequence, with the bytes after it. -/
def decode : Encoding → Except DecodeError (Instr × List Byte)
  | .cmd c => .ok (decodeCmd c, [])
  | .token bytes => decodeToken bytes

/-- The bytes of a table word, first byte lowest, padded with zero bytes to the longest token
(34 bytes, R72): byte `i` is bits `8i+7..8i`. -/
def tableBytes (nbits w : Nat) : List Byte :=
  (List.range (max 34 (ceil8 nbits))).map fun i => BitVec.ofNat 8 ((w % 2 ^ nbits) >>> (8 * i))

/-- Whether a table word is read as a command code (log 11): it fits the 2-bit `CMD` register and is
no longer than one byte. A one-byte word above 3, and every longer word, is read from the token stream. -/
def tableWordIsCommand (nbits w : Nat) : Bool := nbits ≤ 8 && w % 2 ^ nbits < 4

/-- The instruction the decoder reads from a word numbered as spec/opcode_table.json numbers it. -/
def decodeTableWord (nbits w : Nat) : Option Instr :=
  if tableWordIsCommand nbits w then some (decodeCmd (BitVec.ofNat 2 (w % 2 ^ nbits)))
  else
    match decodeToken (tableBytes nbits w) with
    | .ok (i, _) => some i
    | .error _ => none

end Sys2Proof
end

