-- ==== Sys2Proof/Machine/RleDec.lean ====
section
/-! DEFINITION. The RLE decoder: RLE_DEC as the function form of R161, and the four token kinds as steps
of the machine of R170 (43_rle_decode.md). -/

namespace Sys2Proof.Machine

open Sys2Proof

/-! ### The function form -/

/-- `DEC(S, p)` of R161, on the bytes of `S` from offset `p` on: the bits, or the offset of the offending
token. The fuel is the number of those bytes: every token takes at least one. -/
def decLoop : Nat → Nat → List Byte → Except Nat (List Bit)
  | _, _, [] => .ok []
  | 0, p, _ :: _ => .error p
  | fuel + 1, p, b :: S =>
    if b ≠ SENTINEL then
      (decLoop fuel (p + 1) S).map (List.replicate (b.extractLsb' 0 7).toNat (b.getLsbD 7) ++ ·)
    else
      match S with
      | [] => .error p
      | sc :: S' =>
        if ceil8 (sc.toNat + 1) ≤ S'.length then
          (decLoop fuel (p + 2 + ceil8 (sc.toNat + 1)) (S'.drop (ceil8 (sc.toNat + 1)))).map
            (unpack S' 0 (sc.toNat + 1) ++ ·)
        else .error p

/-- `DEC(S, 0)` (R161). -/
def dec (S : List Byte) : Except Nat (List Bit) := decLoop S.length 0 S

/-- RLE_DEC, function form (R161), with its errors in the order of R171. -/
def rleDecEffect (s : State) : State :=
  match dec s.decodeSource with
  | .error q => s.raise .malformed q
  | .ok D => if D.length > s.params.maxBits then s.raise .allocation 0 else (s.storeBv D).succeed

/-- The command RLE_DEC, `CMD <- 3` (R161). -/
def execRleDec (s : State) : Host.Outcome State Fault Refusal := issue 3#2 rleDecEffect s

/-! ### The tokens -/

/-- What every token does (R166 to R169): pass 1 counts its bits, pass 2 writes them at `WR_CUR`, and
both advance `TOK_PC` by the stride. Writing a cell at or above `MAX_BITS` is a stop: no rule forms that
access (R51, log 15); a token of no bits writes none. DESIGN CHOICE (log 25): the decoder
does not use the storage of `ACC` that R32 lets it use for an unpacked verbatim token; no token changes `ACC` or
`ACC_CNT`. -/
def applyToken (bits : List Bit) (stride : Nat) (s : State) : Host.Outcome State Fault Refusal :=
  match s.eng.decPass with
  | .size =>
    .next (s.withEng { s.eng with
      decTotal := s.eng.decTotal + bits.length, tokPc := s.eng.tokPc + stride })
  | .materialise =>
    if 0 < bits.length ∧ s.eng.wrCur + bits.length > s.params.maxBits then .fault .bitAddressOutside
    else
      .next ((s.writeBits s.eng.wrCur bits).withEng { s.eng with
        wrCur := s.eng.wrCur + bits.length, tokPc := s.eng.tokPc + stride })

/-- RUN0, run of zeros (R166). -/
def execRun0 (len : BitVec 7) (s : State) : Host.Outcome State Fault Refusal :=
  applyToken (runBits false len) 1 s

/-- RUN1, run of ones (R167). -/
def execRun1 (len : BitVec 7) (s : State) : Host.Outcome State Fault Refusal :=
  applyToken (runBits true len) 1 s

/-- ZRUN, the reserved byte 0x00: no bits, stride 1, no exception (R169). -/
def execZrun (s : State) : Host.Outcome State Fault Refusal := applyToken [] 1 s

/-- VERB, verbatim token (R168): in pass 1 a token whose end lies beyond `BY_LEN` raises
`MALFORMED(TOK_PC)`. -/
def execVerb (sc : Byte) (payload : List Byte) (s : State) : Host.Outcome State Fault Refusal :=
  if payload.length ≠ ceil8 (verbCount sc) then .refused .illFormedToken
  else if s.eng.decPass = .size ∧ s.eng.tokPc + verbStride sc > s.byLen then
    .next (s.raise .malformed s.eng.tokPc)
  else applyToken (verbBits sc payload) (verbStride sc) s

/-! ### The other steps of the machine form (R170) -/

/-- The start of RLE_DEC: `TOK_PC <- 0 ; DEC_TOTAL <- 0 ; DEC_PASS <- 0`. -/
def startDecoder (s : State) : State :=
  (s.setBusy true).withEng { s.eng with tokPc := 0, decTotal := 0, decPass := .size }

/-- The turn step: test the total, else `DEC_PASS <- 1 ; TOK_PC <- 0 ; WR_CUR <- 0`. -/
def decTurn (s : State) : State :=
  if s.eng.decTotal > s.params.maxBits then s.raise .allocation 0
  else s.withEng { s.eng with decPass := .materialise, tokPc := 0, wrCur := 0 }

/-- The final step: `BV_LEN <- DEC_TOTAL` and the end of the command. -/
def decFinal (s : State) : State := { s with bvLen := s.eng.decTotal }.succeed

/-- The bytes at `TOK_PC`, below `BY_LEN`, as many as the longest token has (R73, R165). -/
def State.fetchToken (s : State) : List Byte :=
  (List.range (min 34 (s.byLen - s.eng.tokPc))).map fun i => s.byte (s.eng.tokPc + i)

/-- Where the bytes at `TOK_PC` are no token: `MALFORMED(TOK_PC)` in pass 1 (R165); in pass 2 the stream is
not the one pass 1 walked, and nothing is defined (R245). -/
def badToken (s : State) : Host.Outcome State Fault Refusal :=
  match s.eng.decPass with
  | .size => .next (s.raise .malformed s.eng.tokPc)
  | .materialise => .refused .streamChanged

end Sys2Proof.Machine
end

