-- ==== Sys2Proof/Machine/RleEnc.lean ====
section
/-! DEFINITION. The RLE encoder: RLE_ENC (42_rle_encode.md), as the function form of R135 on lists and
as the machine of R140 on the internal registers. -/

namespace Sys2Proof.Machine

open Sys2Proof

/-! ### The pieces, as functions -/

/-- How many of the leading bits equal `v`, at most `cap`. -/
def leadingRun (v : Bit) : Nat → List Bit → Nat
  | 0, _ => 0
  | _, [] => 0
  | cap + 1, x :: xs => if x = v then leadingRun v cap xs + 1 else 0

/-- `RUNLEN` (R131) of a sequence that starts with `v`: at least 1, at most `RUN_MAX`. -/
def runLength (v : Bit) (xs : List Bit) : Nat := leadingRun v (RUN_MAX - 1) xs + 1

/-- The run token byte `128·v + r` (R133). -/
def runByte (v : Bit) (r : Nat) : Byte := BitVec.ofNat 8 (128 * v.toNat + r)

/-- The verbatim token of the bits `A`, `1 ≤ |A| ≤ 256` (R72, R134). -/
def verbToken (A : List Bit) : List Byte :=
  SENTINEL :: BitVec.ofNat 8 (A.length - COUNT_BIAS) :: pack A

/-- `if ACC_CNT > 0: FLUSH` (R134). -/
def flushPending (A : List Bit) : List Byte := if A.isEmpty then [] else verbToken A

/-- Appends bits one at a time, with a flush whenever the accumulator reaches 256 (R134): the bytes
emitted and the bits left pending. -/
def appendBits : List Bit → List Bit → List Byte × List Bit
  | A, [] => ([], A)
  | A, b :: bs =>
    if (A ++ [b]).length = VERB_MAX then
      (verbToken (A ++ [b]) ++ (appendBits [] bs).1, (appendBits [] bs).2)
    else appendBits (A ++ [b]) bs

/-- The loop of R135 on the bits still to read and the bits pending. The fuel is the number of bits to
read: every turn of the loop reads at least one. -/
def encLoop : Nat → List Bit → List Bit → List Byte
  | _, [], A => flushPending A
  | 0, _ :: _, A => flushPending A
  | fuel + 1, v :: xs, A =>
    let r := runLength v xs
    let rest := xs.drop (r - 1)
    if r > RUN_THRESHOLD then
      flushPending A ++ runByte v r :: encLoop fuel rest []
    else
      (appendBits A (List.replicate r v)).1 ++
        encLoop fuel rest (appendBits A (List.replicate r v)).2

/-- `ENC(X)` (R135): the token stream of a bit sequence. -/
def enc (X : List Bit) : List Byte := encLoop X.length X []

/-- `SIZE_BOUND(n)` (R138, 90_conflicts C1). -/
def sizeBound (n : Nat) : Nat := if n = 0 then 0 else 2 * n / 5 + 3

/-! ### The function form -/

/-- RLE_ENC, function form (R135), with its errors in the order R137 tests them. -/
def rleEncEffect (s : State) : State :=
  if s.encodeOutOfRange then s.raise .range 0
  else if sizeBound s.argNbits > s.params.maxBytes then s.raise .allocation 0
  else (s.storeBy (enc s.encodeSource)).succeed

/-- The command RLE_ENC, `CMD <- 2` (R135). -/
def execRleEnc (s : State) : Host.Outcome State Fault Refusal := issue 2#2 rleEncEffect s

/-! ### The machine form -/

/-- The loop `while r < 127 and p + r < n and X[p + r] = X[p]: r = r + 1` of R131, `fuel` turns at most. -/
def runLenFrom (bit : Nat → Bit) (p n : Nat) : Nat → Nat → Nat
  | 0, r => r
  | fuel + 1, r =>
    if r < RUN_MAX ∧ p + r < n ∧ bit (p + r) = bit p then runLenFrom bit p n fuel (r + 1) else r

/-- `RUNLEN(X, p, n)` (R131). -/
def runLen (bit : Nat → Bit) (p n : Nat) : Nat := runLenFrom bit p n (RUN_MAX - 1) 1

/-- The pending bits `ACC[0 .. ACC_CNT)` (R32). -/
def Engine.pending (e : Engine) : List Bit := e.acc.toList.take e.accCnt

/-- `emit` of bytes in order (R13). -/
def State.emit (bytes : List Byte) (s : State) : State :=
  (s.writeBytes s.eng.wrPos bytes).withEng { s.eng with wrPos := s.eng.wrPos + bytes.length }

/-- `FLUSH` (R134). -/
def State.flush (s : State) : State :=
  let t := s.emit (verbToken s.eng.pending)
  t.withEng { t.eng with accCnt := 0 }

/-- `if ACC_CNT > 0: FLUSH`. -/
def State.flushIfPending (s : State) : State := if s.eng.accCnt > 0 then s.flush else s

/-- `ACC[ACC_CNT] <- v ; ACC_CNT <- ACC_CNT + 1 ; if ACC_CNT = 256: FLUSH` (R134). -/
def State.appendBit (v : Bit) (s : State) : State :=
  let t := s.withEng { s.eng with
    acc := s.eng.acc.setIfInBounds s.eng.accCnt v, accCnt := s.eng.accCnt + 1 }
  if t.eng.accCnt = VERB_MAX then t.flush else t

/-- `repeat r times: append` (R134). -/
def State.appendRun (v : Bit) : Nat → State → State
  | 0, s => s
  | r + 1, s => State.appendRun v r (s.appendBit v)

/-- The body of the loop of R135: measure one run, then emit a run token or append the run's bits. -/
def encIteration (s : State) : State :=
  let v := s.bit s.eng.rdPos
  let r := runLen s.bit s.eng.rdPos s.eng.encN
  let t :=
    if r > RUN_THRESHOLD then s.flushIfPending.emit [runByte v r]
    else State.appendRun v r s
  t.withEng { t.eng with encMode := encModeOf t.eng.accCnt, rdPos := s.eng.rdPos + r }

/-- Where the machine has written at or above `MAX_BYTES` it stops: no rule forms that access (R51). -/
def withinBytes (t : State) : Host.Outcome State Fault Refusal :=
  if t.eng.wrPos > t.params.maxBytes then .fault .byteAddressOutside else .next t

/-- The final step of R140: flush a non-empty accumulator, `BY_LEN <- WR_POS`, end the command. -/
def encFinal (t : State) : State := { t with byLen := t.eng.wrPos }.succeed

/-- The start of RLE_ENC in the machine form (R140): the tests and the initialisation of R135. -/
def startEncoder (s : State) : State :=
  if s.encodeOutOfRange then s.raise .range 0
  else if sizeBound s.argNbits > s.params.maxBytes then s.raise .allocation 0
  else
    (s.setBusy true).withEng { s.eng with
      rdPos := 0, wrPos := 0, accCnt := 0, encMode := .scanningRun, encN := s.argNbits }

/-- One step of the running encoder (R140). -/
def encStep (s : State) : Host.Outcome State Fault Refusal :=
  if s.eng.rdPos < s.eng.encN then withinBytes (encIteration s)
  else if s.eng.rdPos = s.eng.encN then
    if s.flushIfPending.eng.wrPos > s.params.maxBytes then .fault .byteAddressOutside
    else .next (encFinal s.flushIfPending)
  else .fault .noStepEnabled

end Sys2Proof.Machine
end

