-- ==== Sys2Proof/Machine/Dispatch.lean ====
section
/-! DEFINITION. The meaning of every instruction, one arm per constructor. -/

namespace Sys2Proof.Machine

open Sys2Proof

def exec (i : Instr) (s : State) : Host.Outcome State Fault Refusal :=
  match i with
  | .explode => Sys2Proof.Machine.execExplode s
  | .implode => Sys2Proof.Machine.execImplode s
  | .rleEnc => Sys2Proof.Machine.execRleEnc s
  | .rleDec => Sys2Proof.Machine.execRleDec s
  | .verb sc payload => Sys2Proof.Machine.execVerb sc payload s
  | .zrun => Sys2Proof.Machine.execZrun s
  | .run0 len => Sys2Proof.Machine.execRun0 len s
  | .run1 len => Sys2Proof.Machine.execRun1 len s

end Sys2Proof.Machine
end

