-- ==== Sys2Proof/Machine/Engine.lean ====
section
/-! DEFINITION. How a command is issued and how the engine steps while `BUSY = 1` (R225, R140, R170). -/

namespace Sys2Proof.Machine

open Sys2Proof

/-- A write of `CMD` in the machine form: `CMD <- c` and `BUSY <- 1` in the same instant (R225 (2)), with
the start of the encoder or decoder (R140, R170; logs 16, 17). -/
def startCommand (c : BitVec 2) (s : State) : State :=
  match decodeCmd c with
  | .rleEnc => startEncoder (s.withCmd c)
  | .rleDec => startDecoder (s.withCmd c)
  | _ => (s.withCmd c).setBusy true

/-- A write of `CMD` by the host (R25): no meaning while `BUSY = 1` (R38); else the command runs, whole or
started, as the grain says (R14, log 1). -/
def writeCmd (c : BitVec 2) (s : State) : Host.Outcome State Fault Refusal :=
  match s.grain with
  | .command => exec (decodeCmd c) s
  | .machine => if s.busy then .refused .accessWhileBusy else .next (startCommand c s)

/-- One step of the running decoder (R170): a token step, the turn step or the final step. -/
def decStep (s : State) : Host.Outcome State Fault Refusal :=
  if s.eng.tokPc < s.byLen then
    match decodeToken s.fetchToken with
    | .ok (i, _) => exec i s
    | .error _ => badToken s
  else if s.eng.tokPc = s.byLen then
    match s.eng.decPass with
    | .size => .next (decTurn s)
    | .materialise => .next (decFinal s)
  else .fault .noStepEnabled

/-- One step of the engine while `BUSY = 1`: of the command named by `CMD` (R225 (3)). EXPLODE and IMPLODE
have no machine state of their own and end in one step (R104, R119). -/
def engineStep (s : State) : Host.Outcome State Fault Refusal :=
  match decodeCmd s.cmd with
  | .explode => .next (explodeEffect s)
  | .implode => .next (implodeEffect s)
  | .rleEnc => encStep s
  | _ => decStep s

end Sys2Proof.Machine
end

