-- ==== Sys2Proof/Machine/HostPort.lean ====
section
/-! DEFINITION. The host's moves (R38, R254), and how a word is placed where the next step fetches. -/

namespace Sys2Proof.Machine

open Sys2Proof

/-- What a host read returns, where it has a meaning (R38, R247): STATUS at any time, everything else
while `BUSY = 0`, cells and bytes below the lengths. -/
def hostRead (r : HostRead) (s : State) : Except Refusal Nat :=
  match r with
  | .status => .ok s.status.toNat
  | .bvLen => if s.busy then .error .accessWhileBusy else .ok s.bvLen
  | .byLen => if s.busy then .error .accessWhileBusy else .ok s.byLen
  | .cmd => if s.busy then .error .accessWhileBusy else .ok s.cmd.toNat
  | .argOff => if s.busy then .error .accessWhileBusy else .ok s.argOff
  | .argNbits => if s.busy then .error .accessWhileBusy else .ok s.argNbits
  | .errInfo => if s.busy then .error .accessWhileBusy else .ok s.errInfo
  | .bit i =>
    if s.busy then .error .accessWhileBusy
    else if i < s.bvLen then .ok (s.bit i).toNat else .error .indexBeyondLength
  | .byte a =>
    if s.busy then .error .accessWhileBusy
    else if a < s.byLen then .ok (s.byte a).toNat else .error .indexBeyondLength

/-- A host write: refused while `BUSY = 1` (R38) or with the named reason, else `t`. -/
def hostWrite (ok : Bool) (why : Refusal) (t s : State) : Host.Outcome State Fault Refusal :=
  if s.busy then .refused .accessWhileBusy else if ok then .next t else .refused why

/-- Reset, at any time (R240): the state of R39. The parameters and the model's own fields stay (log 24);
the internal registers are unspecified (R39), so free values; no byte or cell of either memory is listed. -/
def State.resetBlock (s : State) : State :=
  { State.reset with
    params := s.params, grain := s.grain, host := s.host
    eng := Engine.free s.params s.draws, draws := s.draws + engineDraws }

/-- One move of the host (R38, R254). -/
def hostMove (m : HostMove) (s : State) : Host.Outcome State Fault Refusal :=
  match m with
  | .read r =>
    match hostRead r s with
    | .ok v => .next { s with host := { s.host with readData := v } }
    | .error why => .refused why
  | .writeBvLen n => hostWrite (n ≤ s.params.maxBits) .lengthBeyondCapacity (s.hostSetBvLen n) s
  | .writeByLen n => hostWrite (n ≤ s.params.maxBytes) .lengthBeyondCapacity (s.hostSetByLen n) s
  | .writeArgOff v => hostWrite (v < 2 ^ s.params.lenW) .valueTooWide { s with argOff := v } s
  | .writeArgNbits v => hostWrite (v < 2 ^ s.params.lenW) .valueTooWide { s with argNbits := v } s
  | .writeBit i v => hostWrite (i < s.bvLen) .indexBeyondLength (s.writeBits i [v]) s
  | .writeByte a v => hostWrite (a < s.byLen) .indexBeyondLength (s.writeBytes a [v]) s
  | .writeCmd c => writeCmd c s
  | .reset => .next s.resetBlock

/-- The host's turn: its next move, or nothing when it has none (R241). -/
def hostTurn (s : State) : Host.Outcome State Fault Refusal :=
  match s.host.moves with
  | [] => .next s
  | m :: ms => hostMove m { s with host := { s.host with moves := ms } }

/-- The engine's turn: nothing changes on its own while `BUSY = 0` (R254). -/
def engineTurn (s : State) : Host.Outcome State Fault Refusal :=
  if s.busy then engineStep s else .next s

/-- Who acts, and the state with that turn of the schedule used up (R247, log 2). -/
def takeTurn (s : State) : Agent × State :=
  match s.host.schedule with
  | [] => (if s.busy then .engine else .host, s)
  | a :: rest => (a, { s with host := { s.host with schedule := rest } })

/-- A command word where the next step fetches: the block idle, in the function form, and the host's next
move the write of that code to `CMD` (log 12). -/
def placeCommand (c : BitVec 2) (s : State) : State :=
  { s.setBusy false with
    grain := .command
    host := { s.host with moves := .writeCmd c :: s.host.moves, schedule := [] } }

/-- A token where the next step fetches: RLE_DEC running, and the bytes at `TOK_PC`, below `BY_LEN` (log 12). -/
def placeToken (bytes : List Byte) (s : State) : State :=
  { ((s.withCmd 3#2).setBusy true).writeBytes s.eng.tokPc bytes with
    byLen := max s.byLen (s.eng.tokPc + bytes.length)
    host := { s.host with schedule := [] } }

end Sys2Proof.Machine
end

