-- ==== Sys2Proof/Machine/Step.lean ====
section
/-! DEFINITION. One step of the machine: the turn of the host or of the engine. -/

namespace Sys2Proof.Machine

open Sys2Proof

/-- One step: whoever's turn it is acts (R247). -/
def step (s : State) : Host.Outcome State Fault Refusal :=
  match takeTurn s with
  | (.host, t) => hostTurn t
  | (.engine, t) => engineTurn t

/-- `s` with a table word stored where `step` fetches its next instruction (log 12). -/
def State.withFetchWord (s : State) (nbits w : Nat) : State :=
  if tableWordIsCommand nbits w then placeCommand (BitVec.ofNat 2 (w % 2 ^ nbits)) s
  else placeToken (tableBytes nbits w) s

end Sys2Proof.Machine
end

