-- ==== Sys2Proof/Machine/BitVectorOps.lean ====
section
/-! DEFINITION. The container operations of 44_bitvector_aux.md: pure functions on bit sequences that the
host applies while the block is idle (R190), and the host moves that load a vector or a buffer (R38, R242). -/

namespace Sys2Proof.Machine

open Sys2Proof

/-- How a container operation ends without a result. -/
inductive VectorError where
  /-- CapacityError: `append` lacks room (R200, R212). -/
  | capacity
  /-- AllocationFailure: longer than `MAX_BITS` (R191, R197). -/
  | allocation
  /-- The spec gives no meaning: outside the vector or outside the source (R192, R193, R200, R201, U1), or
  `append` of a vector to itself with overlapping ranges (R200, U10). -/
  | noMeaning
deriving DecidableEq, Repr

/-- `create(lengthBits)`: the all-zero vector (R191). -/
def vecCreate (maxBits n : Nat) : Except VectorError (List Bit) :=
  if n > maxBits then .error .allocation else .ok (List.replicate n false)

/-- `get(i)` (R192). -/
def vecGet (A : List Bit) (i : Nat) : Except VectorError Bit :=
  match A[i]? with
  | some b => .ok b
  | none => .error .noMeaning

/-- `set(i, v)` (R193). -/
def vecSet (A : List Bit) (i : Nat) (v : Bit) : Except VectorError (List Bit) :=
  if i < A.length then .ok (A.set i v) else .error .noMeaning

/-- `length()` (R194). -/
def vecLength (A : List Bit) : Nat := A.length

/-- `clear()` (R195). -/
def vecClear (A : List Bit) : List Bit := List.replicate A.length false

/-- `set_all(v)` (R196). -/
def vecSetAll (A : List Bit) (v : Bit) : List Bit := List.replicate A.length v

/-- `resize(newLen, clearFlag)` (R197): without the flag the old prefix stays (the spec's general
knowledge, log 20) and each new element is a free bit, drawn from `draw` on (U5). -/
def vecResize (maxBits : Nat) (A : List Bit) (newLen : Nat) (clearFlag : Bool) (draw : Nat) :
    Except VectorError (List Bit) :=
  if newLen > maxBits then .error .allocation
  else if clearFlag then .ok (List.replicate newLen false)
  else .ok (A.take newLen ++ freshBits draw (newLen - A.length))

/-- The sign of the first difference of two sequences of equal length, 0 where there is none (R198). -/
def firstDifference : List Bit → List Bit → Int
  | a :: A, b :: B => if a = b then firstDifference A B else if a = false then -1 else 1
  | _, _ => 0

/-- `compare(other)`: first by length, then by the first difference (R198). -/
def vecCompare (A B : List Bit) : Int :=
  if A.length < B.length then -1 else if A.length > B.length then 1 else firstDifference A B

/-- `reverse()` (R199): `R[i] = A[|A| − 1 − i]`. -/
def vecReverse (A : List Bit) : List Bit := A.reverse

/-- The operand `src` of `append`: self, or another vector (R200, U10). -/
inductive VectorSource where
  /-- The destination vector itself. -/
  | self
  /-- Another vector, by its elements. -/
  | other (X : List Bit)
deriving DecidableEq, Repr

/-- The elements of the source operand, where self is `A`. -/
def VectorSource.elements (A : List Bit) : VectorSource → List Bit
  | .self => A
  | .other X => X

/-- The operand `n` of `append`, "default: all of `src`" (R200). -/
def appendCount (A : List Bit) (src : VectorSource) (n : Option Nat) : Nat :=
  n.getD (src.elements A).length

/-- Whether the source range `[0, n)` and the destination range `[off, off + n)` are ranges of one vector
that overlap (R200, U10): they share an element exactly when `off < n`. -/
def appendOverlaps (src : VectorSource) (off n : Nat) : Bool := src == .self && off < n

/-- `append(destOffset, src, n)` (R200): overwrites in place, never lengthens; the capacity test comes
first (log 21). -/
def vecAppend (A : List Bit) (off : Nat) (src : VectorSource) (n : Option Nat) :
    Except VectorError (List Bit) :=
  let k := appendCount A src n
  if off + k > A.length then .error .capacity
  else if k > (src.elements A).length then .error .noMeaning
  else if appendOverlaps src off k then .error .noMeaning
  else .ok (A.take off ++ (src.elements A).take k ++ A.drop (off + k))

/-- Copy of a sub-range, `slice(A, off, n)` (R201). -/
def vecSlice (A : List Bit) (off n : Nat) : Except VectorError (List Bit) :=
  if off + n ≤ A.length then .ok ((A.drop off).take n) else .error .noMeaning

/-- The moves that write the cells `X` from index `base` on. -/
def bitMoves (base : Nat) : List Bit → List HostMove
  | [] => []
  | v :: vs => .writeBit base v :: bitMoves (base + 1) vs

/-- The moves that write the bytes `P` from address `base` on. -/
def byteMoves (base : Nat) : List Byte → List HostMove
  | [] => []
  | v :: vs => .writeByte base v :: byteMoves (base + 1) vs

/-- Loading a vector: the length first, then the cells (R38, R191). -/
def loadVector (X : List Bit) : List HostMove := .writeBvLen X.length :: bitMoves 0 X

/-- Loading a byte buffer: the length first, then the bytes (R38, R242). -/
def loadBuffer (P : List Byte) : List HostMove := .writeByLen P.length :: byteMoves 0 P

/-- `EXPLODE off, n` in the notation of R82. -/
def explodeMoves (off n : Nat) : List HostMove := [.writeArgOff off, .writeArgNbits n, .writeCmd 0#2]

/-- `IMPLODE off, n` in the notation of R82. -/
def implodeMoves (off n : Nat) : List HostMove := [.writeArgOff off, .writeArgNbits n, .writeCmd 1#2]

/-- `RLE_ENC n` in the notation of R82. -/
def rleEncMoves (n : Nat) : List HostMove := [.writeArgNbits n, .writeCmd 2#2]

/-- `RLE_DEC` in the notation of R82. -/
def rleDecMoves : List HostMove := [.writeCmd 3#2]

end Sys2Proof.Machine
end

