-- ==== Sys2Proof/Safety.lean ====
section
/-! DEFINITION. What counts as a good state and a safe run: the observable result (R252), the invariants
of R35 and of the running machines, and the walk of a token stream (R73). -/

namespace Sys2Proof.Machine

open Sys2Proof

/-- The observable result of a run (R252): the host-visible state, and nothing above the lengths. -/
structure Result where
  bv       : List Bit
  by_      : List Byte
  cmd      : BitVec 2
  argOff   : Nat
  argNbits : Nat
  status   : BitVec 8
  errInfo  : Nat
deriving DecidableEq, Repr

/-- The observable result of a state (R252). -/
def State.result (s : State) : Result where
  bv := s.bitVector
  by_ := s.byteBuffer
  cmd := s.cmd
  argOff := s.argOff
  argNbits := s.argNbits
  status := s.status
  errInfo := s.errInfo

/-- The memories keep their form and lie in their address spaces; the lengths are within capacity
(R21 to R24, R35 (a)). -/
abbrev State.memoryOk (s : State) : Prop :=
  s.bitMem.wf ∧ s.byteMem.wf ∧ s.bitMem.within s.params.maxBits ∧ s.byteMem.within s.params.maxBytes ∧
    s.bvLen ≤ s.params.maxBits ∧ s.byLen ≤ s.params.maxBytes

/-- Every `LEN_W`-bit register holds a `LEN_W`-bit value (R8, R22 to R31), `ACC_CNT` at most 256 (R32). -/
abbrev State.widthsOk (s : State) : Prop :=
  s.argOff < 2 ^ s.params.lenW ∧ s.argNbits < 2 ^ s.params.lenW ∧ s.errInfo < 2 ^ s.params.lenW ∧
    s.eng.tokPc < 2 ^ s.params.lenW ∧ s.eng.decTotal < 2 ^ s.params.lenW ∧
    s.eng.wrCur < 2 ^ s.params.lenW ∧ s.eng.rdPos < 2 ^ s.params.lenW ∧
    s.eng.wrPos < 2 ^ s.params.lenW ∧ s.eng.encN < 2 ^ s.params.lenW ∧ s.eng.accCnt ≤ 256

/-- `STATUS.ERR` is one of 0 to 4, `STATUS[7:4] = 0`, and `ERR_INFO = 0` unless `ERR = MALFORMED`
(R35 (c), (d)). -/
abbrev State.statusOk (s : State) : Prop :=
  s.reservedBits = 0#4 ∧ s.errCode ≤ 4#3 ∧ (s.errCode = ErrKind.malformed.code ∨ s.errInfo = 0)

/-- While RLE_ENC runs (R31, R32, R141): the cursors are in range, at most 255 bits are pending, and
`ENC_MODE` says whether there are any. -/
abbrev State.encoderOk (s : State) : Prop :=
  s.eng.encN ≤ s.bvLen ∧ s.eng.rdPos ≤ s.eng.encN ∧ s.eng.wrPos ≤ s.params.maxBytes ∧
    s.eng.accCnt ≤ 255 ∧ s.eng.encMode = encModeOf s.eng.accCnt

/-- While RLE_DEC runs (R29, R30, R164): `TOK_PC` never exceeds `BY_LEN`; pass 1 has counted at most 127
bits a byte; pass 2 stays within the capacity. -/
abbrev State.decoderOk (s : State) : Prop :=
  s.eng.tokPc ≤ s.byLen ∧
    (s.eng.decPass = .size → s.eng.decTotal ≤ 127 * s.eng.tokPc) ∧
    (s.eng.decPass = .materialise → s.eng.decTotal ≤ s.params.maxBits ∧ s.eng.wrCur ≤ s.params.maxBits)

/-- The invariant of the machine: R35 while idle, and what holds between the steps of a running command. -/
structure State.Inv (s : State) : Prop where
  params  : s.params.wf
  memory  : s.memoryOk
  widths  : s.widthsOk
  status  : s.statusOk
  encoder : s.busy = true → s.cmd = 2#2 → s.encoderOk
  decoder : s.busy = true → s.cmd = 3#2 → s.decoderOk

/-- `Reaches S q`: the walk of R73 from offset 0 of the stream `S` comes to the offset `q`, every token
before it ending at or before the end of `S`. -/
inductive Reaches (S : List Byte) : Nat → Prop where
  | start : Reaches S 0
  | run (q : Nat) (h : Reaches S q) (hq : q < S.length) (hb : S.getD q 0#8 ≠ SENTINEL) : Reaches S (q + 1)
  | verb (q : Nat) (h : Reaches S q) (hq : q + 1 < S.length) (hb : S.getD q 0#8 = SENTINEL)
      (he : q + verbStride (S.getD (q + 1) 0#8) ≤ S.length) :
      Reaches S (q + verbStride (S.getD (q + 1) 0#8))

/-- The token at offset `q` of `S` passes the end of `S` (R165): a sentinel whose count byte is missing, or
whose payload is not all there. -/
def Overshoots (S : List Byte) (q : Nat) : Prop :=
  q < S.length ∧ S.getD q 0#8 = SENTINEL ∧
    (q + 1 = S.length ∨ (q + 1 < S.length ∧ S.length < q + verbStride (S.getD (q + 1) 0#8)))

/-- The tokens of a stream, decoded one after the other, or none where one overshoots. -/
def tokensOf : Nat → List Byte → Option (List Instr)
  | _, [] => some []
  | 0, _ :: _ => none
  | fuel + 1, b :: S =>
    match decodeToken (b :: S) with
    | .ok (i, rest) => (tokensOf fuel rest).map (i :: ·)
    | .error _ => none

/-- The bits a token stands for (R166 to R169); a command stands for none. -/
def tokenBits : Instr → List Bit
  | .verb sc payload => verbBits sc payload
  | .run0 len => runBits false len
  | .run1 len => runBits true len
  | .zrun | .explode | .implode | .rleEnc | .rleDec => []

/-- The bit count of a token (R164): `len` for a run token, 0 for ZRUN, `sc + 1` for a verbatim token. -/
def tokenCount : Instr → Nat
  | .verb sc _ => sc.toNat + 1
  | .run0 len => len.toNat
  | .run1 len => len.toNat
  | .zrun | .explode | .implode | .rleEnc | .rleDec => 0

/-- Nine equal consecutive bits stand somewhere in `X`: where bits are measured, a run that qualifies (R132). -/
abbrev HoldsNineEqual (X : List Bit) : Prop := ∃ v, List.replicate 9 v <:+: X

/-- A token RLE_ENC can emit (R147, R148 (a), (b)): a run of 9 to 127, or a verbatim token with zero padding
that holds no nine equal consecutive bits. -/
def tokenCanonical : Instr → Prop
  | .verb sc payload => payload = pack (verbBits sc payload) ∧ ¬ HoldsNineEqual (verbBits sc payload)
  | .run0 len => 9 ≤ len.toNat
  | .run1 len => 9 ≤ len.toNat
  | .zrun | .explode | .implode | .rleEnc | .rleDec => False

/-- Whether an instruction is a run token. -/
def isRun : Instr → Bool
  | .run0 _ | .run1 _ => true
  | .verb _ _ | .zrun | .explode | .implode | .rleEnc | .rleDec => false

/-- What may follow a token in a canonical stream (R147, R148 (c), (d)): a run token after a verbatim token of
fewer than 256 bits; after any verbatim token, a run of the other value than its last bit, or a verbatim token
with which it holds no nine equal consecutive bits; the other bit value after a run of fewer than 127. -/
def followsCanonically (a b : Instr) : Prop :=
  match a with
  | .verb sc payload =>
    (verbCount sc < 256 → isRun b = true) ∧
    (isRun b = true → (tokenBits b).head? = (verbBits sc payload).getLast?.map (!·)) ∧
    (isRun b = false → ¬ HoldsNineEqual (verbBits sc payload ++ tokenBits b))
  | .run0 len => len.toNat < 127 → (tokenBits b).head? = some true
  | .run1 len => len.toNat < 127 → (tokenBits b).head? = some false
  | .zrun | .explode | .implode | .rleEnc | .rleDec => True

/-- What the end of a command keeps, whichever way it ends: the argument registers, the reserved STATUS bits,
the parameters, the grain and the host (R26, R27). -/
structure KeptByCommand (s t : State) : Prop where
  argOff   : t.argOff = s.argOff
  argNbits : t.argNbits = s.argNbits
  reserved : t.reservedBits = s.reservedBits
  params   : t.params = s.params
  grain    : t.grain = s.grain
  host     : t.host = s.host

/-- The command ended with the outcome `e` and this `ERR_INFO`, and the block is idle (R225 (4)). -/
structure EndedWith (e : ErrKind) (info : Nat) (t : State) : Prop where
  err  : t.errCode = e.code
  info : t.errInfo = info
  idle : t.busy = false

/-- Error entry (R217) from the state `s` in which the command was issued: both memories and both length
registers hold exactly what they held. -/
structure ErrorEntry (e : ErrKind) (info : Nat) (s t : State) : Prop where
  ended   : EndedWith e info t
  kept    : KeptByCommand s t
  bitMem  : t.bitMem = s.bitMem
  bvLen   : t.bvLen = s.bvLen
  byteMem : t.byteMem = s.byteMem
  byLen   : t.byLen = s.byLen

/-- The bit memory took `X` from cell 0 on, `BV_LEN` its length, every other cell and all of byte space as
before (R13, `BV <- X`). -/
structure BvBecame (X : List Bit) (s t : State) : Prop where
  len     : t.bvLen = X.length
  cells   : ∀ i, t.bit i = if h : i < X.length then X[i] else s.bit i
  byteMem : t.byteMem = s.byteMem
  byLen   : t.byLen = s.byLen

/-- The byte memory took `P` from address 0 on, `BY_LEN` its length, every other byte and all of bit space as
before (R13, `BY <- P`). -/
structure ByBecame (P : List Byte) (s t : State) : Prop where
  len    : t.byLen = P.length
  bytes  : ∀ a, t.byte a = if h : a < P.length then P[a] else s.byte a
  bitMem : t.bitMem = s.bitMem
  bvLen  : t.bvLen = s.bvLen

/-- What a token leaves alone in either pass: byte space, both lengths, every host-visible register, the
encoder's registers and the model's own fields. That VERB leaves `ACC` and `ACC_CNT` is the model's choice (R32,
log 25). -/
structure KeptByToken (s t : State) : Prop where
  byteMem  : t.byteMem = s.byteMem
  byLen    : t.byLen = s.byLen
  bvLen    : t.bvLen = s.bvLen
  cmd      : t.cmd = s.cmd
  argOff   : t.argOff = s.argOff
  argNbits : t.argNbits = s.argNbits
  status   : t.status = s.status
  errInfo  : t.errInfo = s.errInfo
  decPass  : t.eng.decPass = s.eng.decPass
  encMode  : t.eng.encMode = s.eng.encMode
  rdPos    : t.eng.rdPos = s.eng.rdPos
  wrPos    : t.eng.wrPos = s.eng.wrPos
  encN     : t.eng.encN = s.eng.encN
  acc      : t.eng.acc = s.eng.acc
  accCnt   : t.eng.accCnt = s.eng.accCnt
  params   : t.params = s.params
  grain    : t.grain = s.grain
  host     : t.host = s.host
  draws    : t.draws = s.draws

/-- Token `i` counts `bits` in pass 1 and advances `TOK_PC` by `stride`; no cell changes (R162). -/
def CountsInPass1 (i : Instr) (bits : List Bit) (stride : Nat) (s : State) : Prop :=
  ∃ t, exec i s = .next t ∧ t.eng.decTotal = s.eng.decTotal + bits.length ∧
    t.eng.tokPc = s.eng.tokPc + stride ∧ t.eng.wrCur = s.eng.wrCur ∧ t.bitMem = s.bitMem ∧ KeptByToken s t

/-- Token `i` writes `bits` at `WR_CUR` in pass 2 and advances `WR_CUR` and `TOK_PC`; no other cell changes
(R163). -/
def WritesInPass2 (i : Instr) (bits : List Bit) (stride : Nat) (s : State) : Prop :=
  ∃ t, exec i s = .next t ∧ t.eng.wrCur = s.eng.wrCur + bits.length ∧
    t.eng.tokPc = s.eng.tokPc + stride ∧ t.eng.decTotal = s.eng.decTotal ∧
    (∀ j (h : j < bits.length), t.bit (s.eng.wrCur + j) = bits[j]) ∧
    (∀ a, (a < s.eng.wrCur ∨ s.eng.wrCur + bits.length ≤ a) → t.bit a = s.bit a) ∧ KeptByToken s t

/-- The host's next move is `m`, then `ms`, and it is the host's turn: nothing is scheduled and the block is
idle, or the schedule says so. -/
def HostMovesNext (m : HostMove) (ms : List HostMove) (s : State) : Prop :=
  s.host.moves = m :: ms ∧
    (s.host.schedule = [] ∧ s.busy = false ∨ ∃ rest, s.host.schedule = .host :: rest)

/-- It is the engine's turn: nothing is scheduled and a command runs, or the schedule says so and a command
runs. -/
def EngineRuns (s : State) : Prop :=
  s.busy = true ∧ (s.host.schedule = [] ∨ ∃ rest, s.host.schedule = .engine :: rest)

/-- What a host move keeps, besides the fields it names: all of the block's state but those. -/
structure SameBlock (s t : State) : Prop where
  bits     : t.bitMem = s.bitMem
  bvLen    : t.bvLen = s.bvLen
  bytes    : t.byteMem = s.byteMem
  byLen    : t.byLen = s.byLen
  cmd      : t.cmd = s.cmd
  argOff   : t.argOff = s.argOff
  argNbits : t.argNbits = s.argNbits
  status   : t.status = s.status
  errInfo  : t.errInfo = s.errInfo
  eng      : t.eng = s.eng
  params   : t.params = s.params

end Sys2Proof.Machine
end

