-- ==== Sys2Proof/Certificates/Slice0/Obligations.lean ====
section
/-! DEFINITION. The statements for the provers: what the numbered rules of spec/ say, of this model. -/

open Sys2Proof Sys2Proof.Machine

/-! ### Encoding -/

/-- Words written out from R71, R72 and R80 decode to the instructions they stand for. -/
def Obligations.WordsFromTheTablesDecode : Prop :=
  decodeCmd 0b00#2 = .explode ∧ decodeCmd 0b01#2 = .implode ∧ decodeCmd 0b10#2 = .rleEnc ∧
    decodeCmd 0b11#2 = .rleDec ∧
    decodeToken [0b00001001#8] = .ok (.run0 9#7, []) ∧
    decodeToken [0b10001100#8, 0x55#8] = .ok (.run1 12#7, [0x55#8]) ∧
    decodeToken [0b00000000#8] = .ok (.zrun, []) ∧
    decodeToken [0b10000000#8, 0b00000111#8, 0b01110101#8] = .ok (.verb 7#8 [0x75#8], [])

/-- Decoding an encoded well-formed instruction gives it back, whatever bytes follow a token. -/
def Obligations.DecodeInvertsEncode : Prop :=
  ∀ i, WellFormed i = true →
    (∀ c, encode i = .cmd c → decodeCmd c = i) ∧
    (∀ bytes rest, encode i = .token bytes → decodeToken (bytes ++ rest) = .ok (i, rest))

/-- Whatever the decoder reads is well-formed, is a token, and its own encoding is what was consumed: no byte
sequence has two readings. Every command code is the code of the command it decodes to. -/
def Obligations.EncodeInvertsDecode : Prop :=
  (∀ c, encode (decodeCmd c) = .cmd c) ∧
  ∀ bytes i rest, decodeToken bytes = .ok (i, rest) →
    WellFormed i = true ∧ i.isCommand = false ∧ ∃ tok, encode i = .token tok ∧ bytes = tok ++ rest

/-- R75: the first-byte map, by ranges and by match and mask; it is total. -/
def Obligations.FirstByteSelectsTheKind : Prop :=
  ∀ (b : Byte) (rest : List Byte),
    (b.toNat = 0 → decodeToken (b :: rest) = .ok (.zrun, rest)) ∧
    (1 ≤ b.toNat → b.toNat ≤ 0x7F → ∃ len, len.toNat = b.toNat ∧ decodeToken (b :: rest) = .ok (.run0 len, rest)) ∧
    (b.toNat = 0x80 → ∀ sc payload, payload.length = ceil8 (verbCount sc) →
      decodeToken (b :: sc :: payload ++ rest) = .ok (.verb sc payload, rest)) ∧
    (0x81 ≤ b.toNat → ∃ len, len.toNat = b.toNat - 128 ∧ decodeToken (b :: rest) = .ok (.run1 len, rest)) ∧
    (firstByteKind b = .verb ↔ b &&& 0xFF#8 = 0x80#8) ∧
    (firstByteKind b = .zrun ↔ b &&& 0xFF#8 = 0x00#8) ∧
    (firstByteKind b = .run0 ↔ b &&& 0x80#8 = 0x00#8 ∧ b &&& 0xFF#8 ≠ 0x00#8) ∧
    (firstByteKind b = .run1 ↔ b &&& 0x80#8 = 0x80#8 ∧ b &&& 0xFF#8 ≠ 0x80#8) ∧
    ∃ more v, decodeToken (b :: more) = .ok v

/-- R73, R78: the stride is told by the first byte, and by the count byte after a sentinel; no payload byte is
tested. -/
def Obligations.StrideFromFirstBytes : Prop :=
  ∀ (b : Byte) (rest : List Byte),
    (b ≠ 128#8 → ∃ i, decodeToken (b :: rest) = .ok (i, rest)) ∧
    (∀ sc payload, b = 128#8 → 2 + ceil8 (sc.toNat + 1) = (b :: sc :: payload).length →
      decodeToken (b :: sc :: payload ++ rest) = .ok (.verb sc payload, rest)) ∧
    (b = 128#8 → (∃ v, decodeToken (b :: rest) = .ok v) →
      ∃ sc more, rest = sc :: more ∧ ceil8 (sc.toNat + 1) ≤ more.length)

/-! ### The packing primitives -/

/-- R11, R12: the elements of PACK and UNPACK, MSB-first with zero padding. -/
def Obligations.PackAndUnpackBitByBit : Prop :=
  (∀ X : List Bit, (pack X).length = ceil8 X.length ∧
    ∀ j k, j < ceil8 X.length → k ≤ 7 →
      ((pack X).getD j 0#8).getLsbD (7 - k) = if h : 8 * j + k < X.length then X[8 * j + k] else false) ∧
  pack [] = [] ∧
  ∀ (P : List Byte) (off n : Nat), off + n ≤ 8 * P.length →
    (unpack P off n).length = n ∧
    ∀ i, i < n → (unpack P off n)[i]? = (P[(off + i) / 8]?).map fun b => b.getLsbD (7 - (off + i) % 8)

/-- R12's inverse law, and R106, R121 (c), (d), which the spec marks as its own inferences: UNPACK undoes PACK, and
PACK and UNPACK of joined sequences. -/
def Obligations.PackAndUnpackOfJoins : Prop :=
  (∀ X : List Bit, unpack (pack X) 0 X.length = X) ∧
  (∀ X Y : List Bit, X.length % 8 = 0 → pack (X ++ Y) = pack X ++ pack Y) ∧
  (∀ (P : List Byte) (off n m : Nat), off + n + m ≤ 8 * P.length →
    unpack P off (n + m) = unpack P off n ++ unpack P (off + n) m) ∧
  (∀ X : List Bit, (pack X).length = ceil8 X.length)

/-! ### The commands: result, errors, frame, completion -/

/-- R102, R103: EXPLODE from every idle state. -/
def Obligations.ExplodeOutcome : Prop :=
  ∀ s : State, s.busy = false →
    (8 * s.byLen < s.argOff + s.argNbits →
      ∃ t, exec .explode s = .next t ∧ t.cmd = 0#2 ∧ ErrorEntry .range 0 s t) ∧
    (s.argOff + s.argNbits ≤ 8 * s.byLen → s.params.maxBits < s.argNbits →
      ∃ t, exec .explode s = .next t ∧ t.cmd = 0#2 ∧ ErrorEntry .allocation 0 s t) ∧
    (s.argOff + s.argNbits ≤ 8 * s.byLen → s.argNbits ≤ s.params.maxBits →
      ∃ t, exec .explode s = .next t ∧ t.cmd = 0#2 ∧ EndedWith .none 0 t ∧ KeptByCommand s t ∧
        t.bvLen = s.argNbits ∧
        (∀ i, i < s.argNbits →
          t.bit i = (s.byte ((s.argOff + i) / 8)).getLsbD (7 - (s.argOff + i) % 8)) ∧
        (∀ i, s.argNbits ≤ i → t.bit i = s.bit i) ∧ t.byteMem = s.byteMem ∧ t.byLen = s.byLen)

/-- R117, R118: IMPLODE from every idle state. -/
def Obligations.ImplodeOutcome : Prop :=
  ∀ s : State, s.busy = false →
    (s.bvLen < s.argOff + s.argNbits →
      ∃ t, exec .implode s = .next t ∧ t.cmd = 1#2 ∧ ErrorEntry .range 0 s t) ∧
    (s.argOff + s.argNbits ≤ s.bvLen → s.params.maxBytes < ceil8 s.argNbits →
      ∃ t, exec .implode s = .next t ∧ t.cmd = 1#2 ∧ ErrorEntry .allocation 0 s t) ∧
    (s.argOff + s.argNbits ≤ s.bvLen → ceil8 s.argNbits ≤ s.params.maxBytes →
      ∃ t, exec .implode s = .next t ∧ t.cmd = 1#2 ∧ EndedWith .none 0 t ∧ KeptByCommand s t ∧
        t.byLen = ceil8 s.argNbits ∧
        (∀ j k, j < ceil8 s.argNbits → k ≤ 7 →
          (t.byte j).getLsbD (7 - k) =
            if 8 * j + k < s.argNbits then s.bit (s.argOff + 8 * j + k) else false) ∧
        (∀ a, ceil8 s.argNbits ≤ a → t.byte a = s.byte a) ∧ t.bitMem = s.bitMem ∧ t.bvLen = s.bvLen)

/-- R135, R137: RLE_ENC from every idle state; the bytes are those of the model's `enc`, which
EncEquations fixes. -/
def Obligations.RleEncOutcome : Prop :=
  ∀ s : State, s.busy = false →
    (s.bvLen < s.argNbits →
      ∃ t, exec .rleEnc s = .next t ∧ t.cmd = 2#2 ∧ ErrorEntry .range 0 s t) ∧
    (s.argNbits ≤ s.bvLen → s.params.maxBytes < sizeBound s.argNbits →
      ∃ t, exec .rleEnc s = .next t ∧ t.cmd = 2#2 ∧ ErrorEntry .allocation 0 s t) ∧
    (s.argNbits ≤ s.bvLen → sizeBound s.argNbits ≤ s.params.maxBytes →
      ∃ t, exec .rleEnc s = .next t ∧ t.cmd = 2#2 ∧ EndedWith .none 0 t ∧ KeptByCommand s t ∧
        ByBecame (enc (s.bitVector.take s.argNbits)) s t ∧ t.byLen ≤ s.params.maxBytes)

/-- R161, R171: RLE_DEC from every idle state. -/
def Obligations.RleDecOutcome : Prop :=
  ∀ s : State, s.busy = false →
    (∀ q, dec s.byteBuffer = .error q →
      ∃ t, exec .rleDec s = .next t ∧ t.cmd = 3#2 ∧ ErrorEntry .malformed q s t) ∧
    (∀ D, dec s.byteBuffer = .ok D → s.params.maxBits < D.length →
      ∃ t, exec .rleDec s = .next t ∧ t.cmd = 3#2 ∧ ErrorEntry .allocation 0 s t) ∧
    (∀ D, dec s.byteBuffer = .ok D → D.length ≤ s.params.maxBits →
      ∃ t, exec .rleDec s = .next t ∧ t.cmd = 3#2 ∧ EndedWith .none 0 t ∧ KeptByCommand s t ∧
        BvBecame D s t)

/-- The four equations of R161 for `DEC(S, p)`, at offset 0 of any stream, with the offsets of the rest moved. -/
def Obligations.DecEquations : Prop :=
  dec [] = .ok [] ∧
  (∀ (b : Byte) (S : List Byte), b ≠ 128#8 →
    dec (b :: S) =
      match dec S with
      | .ok D => .ok (List.replicate (b.toNat % 128) (b.getLsbD 7) ++ D)
      | .error q => .error (q + 1)) ∧
  (∀ (sc : Byte) (S : List Byte), ceil8 (sc.toNat + 1) ≤ S.length →
    dec (128#8 :: sc :: S) =
      match dec (S.drop (ceil8 (sc.toNat + 1))) with
      | .ok D => .ok (unpack (128#8 :: sc :: S) 16 (sc.toNat + 1) ++ D)
      | .error q => .error (q + 2 + ceil8 (sc.toNat + 1))) ∧
  (∀ (sc : Byte) (S : List Byte), S.length < ceil8 (sc.toNat + 1) → dec (128#8 :: sc :: S) = .error 0) ∧
  dec [128#8] = .error 0

/-- R165: RLE_DEC reports MALFORMED with `ERR_INFO = p` exactly when the walk from offset 0 reaches a token at `p`
that passes the end of the stream. -/
def Obligations.MalformedExactly : Prop :=
  ∀ (s : State) (p : Nat), s.busy = false →
    ((∃ t, exec .rleDec s = .next t ∧ t.errCode = ErrKind.malformed.code ∧ t.errInfo = p) ↔
      Reaches s.byteBuffer p ∧ Overshoots s.byteBuffer p)

/-- A command is refused while another runs (R38, U9). -/
def Obligations.CommandRefusedWhileBusy : Prop :=
  ∀ (i : Instr) (s : State), i.isCommand = true → s.busy = true → exec i s = .refused .accessWhileBusy

/-! ### The codec -/

/-- Decoding what the encoder made gives the bits back. -/
def Obligations.DecInvertsEnc : Prop := ∀ X : List Bit, dec (enc X) = .ok X

/-- R149: the round trip of RLE_ENC and RLE_DEC; the encoder's tokens stand for the vector's bits, in order, which
the spec marks as its own inference (derived from R147 and R166 to R168); and the other direction does not hold. -/
def Obligations.EncodeThenDecodeRestoresTheVector : Prop :=
  (∀ s : State, s.busy = false → s.bvLen ≤ s.params.maxBits → s.argNbits = s.bvLen →
    sizeBound s.bvLen ≤ s.params.maxBytes →
    ∃ t u, exec .rleEnc s = .next t ∧ t.errCode = ErrKind.none.code ∧
      exec .rleDec t = .next u ∧ u.errCode = ErrKind.none.code ∧
      u.bvLen = s.bvLen ∧ ∀ i, i < s.bvLen → u.bit i = s.bit i) ∧
  (∀ X : List Bit, ∃ ts, tokensOf (enc X).length (enc X) = some ts ∧ ts.flatMap tokenBits = X) ∧
  ∃ S D, dec S = .ok D ∧ enc D ≠ S

/-- The encoder never exceeds the worst-case bound (R138). -/
def Obligations.EncWithinSizeBound : Prop := ∀ X : List Bit, (enc X).length ≤ sizeBound X.length

/-- The bound is reached at every length `10·k + 1` (R138). -/
def Obligations.SizeBoundIsReached : Prop :=
  ∀ k, ∃ X : List Bit, X.length = 10 * k + 1 ∧ (enc X).length = 4 * k + 3 ∧
    (enc X).length = sizeBound X.length

/-- R147, R148: every stream RLE_ENC produces is canonical; no verbatim token holds nine equal consecutive bits, two
verbatim tokens in a row hold none together, and a run token after a verbatim token has the other value than its last
bit. -/
def Obligations.EncIsCanonical : Prop :=
  ∀ X : List Bit, ∃ ts, tokensOf (enc X).length (enc X) = some ts ∧
    (∀ i ∈ ts, WellFormed i = true ∧ tokenCanonical i) ∧
    (∀ pre a b post, ts = pre ++ a :: b :: post → followsCanonically a b) ∧
    (ts.map tokenCount).sum = X.length ∧ ts.flatMap tokenBits = X

/-- The bits of an accepted stream are the bits of its tokens in order; a stream is accepted exactly when it
splits into tokens. -/
def Obligations.DecIsTokenByToken : Prop :=
  ∀ (S : List Byte) (D : List Bit),
    dec S = .ok D ↔ ∃ ts, tokensOf S.length S = some ts ∧ D = ts.flatMap tokenBits

/-- R175 (b): accepted streams join. -/
def Obligations.AcceptedStreamsJoin : Prop :=
  ∀ S₁ S₂ D₁ D₂, dec S₁ = .ok D₁ → dec S₂ = .ok D₂ → dec (S₁ ++ S₂) = .ok (D₁ ++ D₂)

/-- R164: the decoded length is the sum of the tokens' bit counts, at most 127 a byte. -/
def Obligations.DecodedLength : Prop :=
  ∀ s t : State, exec .rleDec s = .next t → t.errCode = ErrKind.none.code →
    ∃ ts, tokensOf s.byLen s.byteBuffer = some ts ∧ t.bvLen = (ts.map tokenCount).sum ∧
      t.bvLen ≤ 127 * s.byLen

/-- R131: `RUNLEN(X, p, n)` is the largest run from `p`, at most 127 and not past `n`; the same on lists. -/
def Obligations.RunLengthIsLargest : Prop :=
  (∀ (bit : Nat → Bit) (p n : Nat), p < n →
    1 ≤ runLen bit p n ∧ runLen bit p n ≤ 127 ∧ p + runLen bit p n ≤ n ∧
    (∀ i, i < runLen bit p n → bit (p + i) = bit p) ∧
    (∀ r, r ≤ 127 → p + r ≤ n → (∀ i, i < r → bit (p + i) = bit p) → r ≤ runLen bit p n) ∧
    ∀ bit' : Nat → Bit, (∀ i, i < n → bit' i = bit i) → runLen bit' p n = runLen bit p n) ∧
  ∀ (v : Bit) (xs : List Bit), runLength v xs = runLen (fun i => (v :: xs).getD i false) 0 (v :: xs).length

/-- R146: `RLE_ENC 0` succeeds from every idle state, writes no byte and leaves the empty buffer. -/
def Obligations.EncodeOfNothing : Prop :=
  ∀ s : State, s.busy = false → s.argNbits = 0 →
    ∃ t, exec .rleEnc s = .next t ∧ EndedWith .none 0 t ∧ t.byLen = 0 ∧ ∀ a, t.byte a = s.byte a

/-- IMPLODE then EXPLODE, and EXPLODE then IMPLODE (R121 (a), (b), R201, R106). -/
def Obligations.PackingRoundTrips : Prop :=
  (∀ s : State, s.busy = false → s.argOff + s.argNbits ≤ s.bvLen → s.bvLen ≤ s.params.maxBits →
    ceil8 s.argNbits ≤ s.params.maxBytes →
    ∃ t u, exec .implode s = .next t ∧ exec .explode { t with argOff := 0 } = .next u ∧
      u.errCode = ErrKind.none.code ∧ vecSlice s.bitVector s.argOff s.argNbits = .ok u.bitVector) ∧
  (∀ s : State, s.busy = false → s.argOff = 0 → s.argNbits ≤ 8 * s.byLen →
    s.argNbits ≤ s.params.maxBits → s.byLen ≤ s.params.maxBytes →
    ∃ t u, exec .explode s = .next t ∧ exec .implode t = .next u ∧
      u.errCode = ErrKind.none.code ∧ u.byLen = ceil8 s.argNbits ∧
      ∀ j k, j < ceil8 s.argNbits → k ≤ 7 →
        (u.byte j).getLsbD (7 - k) = if 8 * j + k < s.argNbits then (s.byte j).getLsbD (7 - k) else false)

/-! ### The tokens -/

/-- R166: RUN0, its encoding and its effect in each pass. The premise of pass 2 is the room the machine has
(log 15). -/
def Obligations.Run0Effect : Prop :=
  (∀ len : BitVec 7, len ≠ 0#7 → ∃ b : Byte, b.toNat = len.toNat ∧ encode (.run0 len) = .token [b] ∧
    decodeToken [b] = .ok (.run0 len, [])) ∧
  ∀ (len : BitVec 7) (s : State),
    (s.eng.decPass = .size → CountsInPass1 (.run0 len) (List.replicate len.toNat false) 1 s) ∧
    (s.eng.decPass = .materialise → s.eng.wrCur + len.toNat ≤ s.params.maxBits →
      WritesInPass2 (.run0 len) (List.replicate len.toNat false) 1 s)

/-- R167: RUN1, its encoding and its effect in each pass. The premise of pass 2 is the room the machine has
(log 15). -/
def Obligations.Run1Effect : Prop :=
  (∀ len : BitVec 7, len ≠ 0#7 → ∃ b : Byte, b.toNat = 128 + len.toNat ∧ encode (.run1 len) = .token [b] ∧
    decodeToken [b] = .ok (.run1 len, [])) ∧
  ∀ (len : BitVec 7) (s : State),
    (s.eng.decPass = .size → CountsInPass1 (.run1 len) (List.replicate len.toNat true) 1 s) ∧
    (s.eng.decPass = .materialise → s.eng.wrCur + len.toNat ≤ s.params.maxBits →
      WritesInPass2 (.run1 len) (List.replicate len.toNat true) 1 s)

/-- R169: ZRUN counts nothing and writes nothing, and may stand anywhere in a stream. -/
def Obligations.ZrunEffect : Prop :=
  encode .zrun = .token [0x00#8] ∧
  (∀ n, dec (List.replicate n 0x00#8) = .ok []) ∧
  (∀ S₁ S₂ D₁ D₂, dec S₁ = .ok D₁ → dec S₂ = .ok D₂ → dec (S₁ ++ 0x00#8 :: S₂) = .ok (D₁ ++ D₂)) ∧
  ∀ s : State,
    (s.eng.decPass = .size → CountsInPass1 .zrun [] 1 s) ∧
    (s.eng.decPass = .materialise → WritesInPass2 .zrun [] 1 s)

/-- R168: VERB, on a payload of the right length: MALFORMED in pass 1 where its end lies beyond `BY_LEN`, else
its `sc + 1` bits, MSB-first. That it
leaves `ACC` and `ACC_CNT` as they were is the model's choice, DESIGN CHOICE (R32, log 25). -/
def Obligations.VerbEffect : Prop :=
  ∀ (sc : Byte) (payload : List Byte) (s : State), payload.length = ceil8 (sc.toNat + 1) →
    encode (.verb sc payload) = .token (0x80#8 :: sc :: payload) ∧
    (s.eng.decPass = .size → s.byLen < s.eng.tokPc + 2 + ceil8 (sc.toNat + 1) →
      ∃ t, exec (.verb sc payload) s = .next t ∧ t.cmd = s.cmd ∧ ErrorEntry .malformed s.eng.tokPc s t) ∧
    (s.eng.decPass = .size → s.eng.tokPc + 2 + ceil8 (sc.toNat + 1) ≤ s.byLen →
      CountsInPass1 (.verb sc payload) (unpack payload 0 (sc.toNat + 1)) (2 + ceil8 (sc.toNat + 1)) s) ∧
    (s.eng.decPass = .materialise → s.eng.wrCur + (sc.toNat + 1) ≤ s.params.maxBits →
      WritesInPass2 (.verb sc payload) (unpack payload 0 (sc.toNat + 1)) (2 + ceil8 (sc.toNat + 1)) s) ∧
    (unpack payload 0 (sc.toNat + 1)).length = sc.toNat + 1 ∧
    ∀ j, j < sc.toNat + 1 → (unpack payload 0 (sc.toNat + 1))[j]? = (payload[j / 8]?).map (·.getLsbD (7 - j % 8))

/-- The stops of the tokens, the model's choice: a write of a cell at or above `MAX_BITS` in pass 2 (log 15), and
a VERB term that is no token of the format (log 13). ZRUN has none: ZrunEffect. -/
def Obligations.TokenStops : Prop :=
  (∀ (len : BitVec 7) (s : State), len ≠ 0#7 → s.eng.decPass = .materialise →
    s.params.maxBits < s.eng.wrCur + len.toNat →
    exec (.run0 len) s = .fault .bitAddressOutside ∧ exec (.run1 len) s = .fault .bitAddressOutside) ∧
  (∀ (sc : Byte) (payload : List Byte) (s : State), payload.length = ceil8 (verbCount sc) →
    s.eng.decPass = .materialise → s.params.maxBits < s.eng.wrCur + verbCount sc →
    exec (.verb sc payload) s = .fault .bitAddressOutside) ∧
  ∀ (sc : Byte) (payload : List Byte) (s : State), payload.length ≠ ceil8 (verbCount sc) →
    exec (.verb sc payload) s = .refused .illFormedToken

/-! ### The step -/

/-- A step on the host's write of `CMD` runs the decoded command (function form). -/
def Obligations.StepRunsTheCommand : Prop :=
  ∀ (s : State) (c : BitVec 2) (ms : List HostMove), s.busy = false → s.grain = .command →
    s.host.schedule = [] → s.host.moves = .writeCmd c :: ms →
    step s = exec (decodeCmd c) { s with host := { s.host with moves := ms } }

/-- A step while RLE_DEC runs executes the token at `TOK_PC`. -/
def Obligations.StepRunsTheToken : Prop :=
  ∀ (s : State) (i : Instr) (tok : List Byte), s.busy = true → s.cmd = 3#2 → s.host.schedule = [] →
    WellFormed i = true → encode i = .token tok → tok <+: s.byteBuffer.drop s.eng.tokPc →
    step s = exec i s

/-- A step while RLE_DEC runs, at a token that passes the end of the stream: MALFORMED in pass 1 (R165), no
behaviour in pass 2 (R245). -/
def Obligations.StepAtAnOvershootingToken : Prop :=
  ∀ s : State, s.busy = true → s.cmd = 3#2 → s.host.schedule = [] → Overshoots s.byteBuffer s.eng.tokPc →
    (s.eng.decPass = .size → ∃ t, step s = .next t ∧ t.cmd = s.cmd ∧ ErrorEntry .malformed s.eng.tokPc s t) ∧
    (s.eng.decPass = .materialise → step s = .refused .streamChanged)

/-- R140: the encoder's machine ends after at most `n + 1` steps from its start, with the result of the function
form. -/
def Obligations.EncoderMachineMatchesFunction : Prop :=
  ∀ (s : State) (ms : List HostMove), s.Inv → s.busy = false → s.grain = .machine → s.host.schedule = [] →
    s.host.moves = .writeCmd 2#2 :: ms →
    ∃ t u k, exec .rleEnc s = .next u ∧ k ≤ s.argNbits + 1 ∧
      Host.Core.run Sys2Proof.core (1 + k) s = .next t ∧ t.busy = false ∧ t.result = u.result ∧
      t.host.moves = ms

/-- R170: the decoder's machine ends after at most `2·BY_LEN + 2` steps from its start, with the result of the
function form. -/
def Obligations.DecoderMachineMatchesFunction : Prop :=
  ∀ (s : State) (ms : List HostMove), s.Inv → s.busy = false → s.grain = .machine → s.host.schedule = [] →
    s.host.moves = .writeCmd 3#2 :: ms →
    ∃ t u k, exec .rleDec s = .next u ∧ k ≤ 2 * s.byLen + 2 ∧
      Host.Core.run Sys2Proof.core (1 + k) s = .next t ∧ t.busy = false ∧ t.result = u.result ∧
      t.host.moves = ms

/-- R225: a write of `CMD` in the machine form sets `BUSY` in the same instant and changes no memory, no length, no
argument; the start tests of RLE_ENC are the model's placing (log 16). EXPLODE and IMPLODE end in the next
step, with the result of the function form. -/
def Obligations.StartSetsBusy : Prop :=
  ∀ (s : State) (c : BitVec 2) (ms : List HostMove), s.busy = false → s.grain = .machine →
    s.host.schedule = [] → s.host.moves = .writeCmd c :: ms →
    (c ≠ 2#2 ∨ (s.argNbits ≤ s.bvLen ∧ sizeBound s.argNbits ≤ s.params.maxBytes) →
      ∃ t, step s = .next t ∧ t.busy = true ∧ t.cmd = c ∧ t.errCode = s.errCode ∧ t.errInfo = s.errInfo ∧
        t.bitMem = s.bitMem ∧ t.bvLen = s.bvLen ∧ t.byteMem = s.byteMem ∧ t.byLen = s.byLen ∧
        KeptByCommand { s with host := { s.host with moves := ms } } t) ∧
    ((c = 0#2 ∨ c = 1#2) → ∃ t u, Host.Core.run Sys2Proof.core 2 s = .next t ∧
      exec (decodeCmd c) s = .next u ∧ t.busy = false ∧ t.result = u.result ∧ t.host.moves = ms)

/-- Nothing changes on its own while the block is idle and the host still (R241, R254). -/
def Obligations.IdleBlockWaits : Prop :=
  ∀ s : State, s.busy = false →
    (s.host.schedule = [] → s.host.moves = [] → step s = .next s) ∧
    (∀ rest, s.host.schedule = .engine :: rest →
      step s = .next { s with host := { s.host with schedule := rest } })

/-! ### Reset and the invariant -/

/-- R39: every host-visible register after reset. -/
def Obligations.ResetValues : Prop :=
  State.reset.bvLen = 0 ∧ State.reset.byLen = 0 ∧ State.reset.cmd = 0#2 ∧ State.reset.argOff = 0 ∧
    State.reset.argNbits = 0 ∧ State.reset.status = 0#8 ∧ State.reset.errInfo = 0 ∧
    State.reset.busy = false ∧ State.reset.errCode = ErrKind.none.code ∧ State.reset.bitVector = [] ∧
    State.reset.byteBuffer = []

/-- R240: reset at any time, also while a command runs, gives the state of R39. -/
def Obligations.ResetAtAnyTime : Prop :=
  ∀ (s : State) (ms : List HostMove), HostMovesNext .reset ms s →
    ∃ t, step s = .next t ∧ t.bvLen = 0 ∧ t.byLen = 0 ∧ t.cmd = 0#2 ∧ t.argOff = 0 ∧ t.argNbits = 0 ∧
      t.status = 0#8 ∧ t.busy = false ∧ t.errCode = ErrKind.none.code ∧ t.errInfo = 0 ∧
      t.bitVector = [] ∧ t.byteBuffer = [] ∧ t.host.moves = ms ∧ t.params = s.params

/-- The state after reset meets the invariant. -/
def Obligations.ResetMeetsInv : Prop := State.reset.Inv

/-- Every step keeps the invariant (R35, and the invariants of the running machines). -/
def Obligations.StepKeepsInv : Prop := ∀ s t : State, s.Inv → step s = .next t → t.Inv

/-- No step changes the parameters or the grain (R8, R36). -/
def Obligations.StepKeepsParams : Prop :=
  ∀ s t : State, step s = .next t → t.params = s.params ∧ t.grain = s.grain

/-! ### Whole-machine rules -/

/-- R219: which command can end with which error, both what never happens and what can; no token but VERB writes
STATUS. -/
def Obligations.ErrorsByCommand : Prop :=
  (∀ s t : State,
    (exec .explode s = .next t → t.errCode ∈ [ErrKind.none.code, ErrKind.allocation.code, ErrKind.range.code]) ∧
    (exec .implode s = .next t → t.errCode ∈ [ErrKind.none.code, ErrKind.allocation.code, ErrKind.range.code]) ∧
    (exec .rleEnc s = .next t → t.errCode ∈ [ErrKind.none.code, ErrKind.allocation.code, ErrKind.range.code]) ∧
    (exec .rleDec s = .next t →
      t.errCode ∈ [ErrKind.none.code, ErrKind.malformed.code, ErrKind.allocation.code])) ∧
  (∀ i ∈ [Instr.explode, .implode, .rleEnc],
    ∀ e ∈ [ErrKind.none, .allocation, .range], ∃ s t : State, exec i s = .next t ∧ t.errCode = e.code) ∧
  (∀ e ∈ [ErrKind.none, .malformed, .allocation], ∃ s t : State, exec .rleDec s = .next t ∧ t.errCode = e.code) ∧
  (∀ (i : Instr) (s t : State), i.isCommand = false → exec i s = .next t → t.status ≠ s.status →
    (∃ sc payload, i = .verb sc payload) ∧ t.errCode = ErrKind.malformed.code) ∧
  ∃ (sc : Byte) (payload : List Byte) (s t : State),
    exec (.verb sc payload) s = .next t ∧ s.errCode = ErrKind.none.code ∧ t.errCode = ErrKind.malformed.code

/-- R217: a command that ends with an error leaves everything else as it was when it was issued. -/
def Obligations.FailedCommandChangesNothing : Prop :=
  ∀ (i : Instr) (s t : State), i.isCommand = true → exec i s = .next t → t.errCode ≠ ErrKind.none.code →
    ∃ e info, e ≠ ErrKind.none ∧ (e ≠ .malformed → info = 0) ∧
      (e = .malformed → Reaches s.byteBuffer info ∧ Overshoots s.byteBuffer info) ∧ encode i = .cmd t.cmd ∧ ErrorEntry e info s t

/-- R33, R210, R218: the outcome of a command is a function of the vector, the buffer and the arguments. It does
not depend on the last error, on the internal registers, on cells and bytes above the lengths, or on `CMD`. -/
def Obligations.CommandSeesOnlyItsInputs : Prop :=
  ∀ (i : Instr) (s s' t t' : State), i.isCommand = true → s.params = s'.params →
    s.bitVector = s'.bitVector → s.byteBuffer = s'.byteBuffer → s.argOff = s'.argOff →
    s.argNbits = s'.argNbits → s.reservedBits = s'.reservedBits →
    exec i s = .next t → exec i s' = .next t' → t.result = t'.result

/-- R26, R58, R61: while the engine runs, no step writes `CMD` or an argument register; RLE_DEC and EXPLODE write no
byte and not `BY_LEN`, RLE_ENC and IMPLODE no cell and not `BV_LEN`. -/
def Obligations.EngineLeavesItsSourceAlone : Prop :=
  ∀ s t : State, EngineRuns s → step s = .next t →
    t.cmd = s.cmd ∧ t.argOff = s.argOff ∧ t.argNbits = s.argNbits ∧
    ((s.cmd = 0#2 ∨ s.cmd = 3#2) → t.byteMem = s.byteMem ∧ t.byLen = s.byLen) ∧
    ((s.cmd = 1#2 ∨ s.cmd = 2#2) → t.bitMem = s.bitMem ∧ t.bvLen = s.bvLen)

/-- R29: inside a pass `TOK_PC` only moves forward and never passes `BY_LEN`; the one move back is to 0 at the turn. -/
def Obligations.TokPcMovesForward : Prop :=
  ∀ s t : State, s.Inv → EngineRuns s → s.cmd = 3#2 → step s = .next t → t.busy = true →
    (t.eng.decPass = s.eng.decPass ∧ s.eng.tokPc < t.eng.tokPc ∧ t.eng.tokPc ≤ s.byLen) ∨
    (s.eng.decPass = .size ∧ t.eng.decPass = .materialise ∧ s.eng.tokPc = s.byLen ∧ t.eng.tokPc = 0)

/-- R203, R212: no step makes `STATUS.ERR` CAPACITY. -/
def Obligations.CapacityNeverProduced : Prop :=
  ∀ s t : State, s.errCode ≠ ErrKind.capacity.code → step s = .next t → t.errCode ≠ ErrKind.capacity.code

/-! ### The host -/

/-- R38: the host's writes of cells, bytes and arguments while the block is idle. -/
def Obligations.HostWritesWhileIdle : Prop :=
  ∀ (s : State) (ms : List HostMove), s.busy = false →
    (∀ i v, HostMovesNext (.writeBit i v) ms s →
      (i < s.bvLen → ∃ t, step s = .next t ∧ t.bit i = v ∧ (∀ j, j ≠ i → t.bit j = s.bit j) ∧
        SameBlock s { t with bitMem := s.bitMem }) ∧
      (s.bvLen ≤ i → step s = .refused .indexBeyondLength)) ∧
    (∀ a v, HostMovesNext (.writeByte a v) ms s →
      (a < s.byLen → ∃ t, step s = .next t ∧ t.byte a = v ∧ (∀ j, j ≠ a → t.byte j = s.byte j) ∧
        SameBlock s { t with byteMem := s.byteMem }) ∧
      (s.byLen ≤ a → step s = .refused .indexBeyondLength)) ∧
    (∀ v, HostMovesNext (.writeArgOff v) ms s →
      (v < 2 ^ s.params.lenW → ∃ t, step s = .next t ∧ t.argOff = v ∧ SameBlock s { t with argOff := s.argOff }) ∧
      (2 ^ s.params.lenW ≤ v → step s = .refused .valueTooWide)) ∧
    (∀ v, HostMovesNext (.writeArgNbits v) ms s →
      (v < 2 ^ s.params.lenW →
        ∃ t, step s = .next t ∧ t.argNbits = v ∧ SameBlock s { t with argNbits := s.argNbits }) ∧
      (2 ^ s.params.lenW ≤ v → step s = .refused .valueTooWide))

/-- R38: the host's writes of the lengths. What was in the vector (buffer) and stays in it keeps its value; a length
above the capacity is refused. That a cell (byte) which leaves the vector (buffer) when the length shrinks keeps its
value too is the model's choice, DESIGN CHOICE (R22, U6, log 9). -/
def Obligations.HostWritesLengths : Prop :=
  ∀ (s : State) (n : Nat) (ms : List HostMove), s.busy = false →
    (HostMovesNext (.writeBvLen n) ms s →
      (n ≤ s.params.maxBits → ∃ t, step s = .next t ∧ t.bvLen = n ∧ (∀ i, i < s.bvLen → t.bit i = s.bit i) ∧
        SameBlock s { t with bitMem := s.bitMem, bvLen := s.bvLen }) ∧
      (s.params.maxBits < n → step s = .refused .lengthBeyondCapacity)) ∧
    (HostMovesNext (.writeByLen n) ms s →
      (n ≤ s.params.maxBytes → ∃ t, step s = .next t ∧ t.byLen = n ∧ (∀ a, a < s.byLen → t.byte a = s.byte a) ∧
        SameBlock s { t with byteMem := s.byteMem, byLen := s.byLen }) ∧
      (s.params.maxBytes < n → step s = .refused .lengthBeyondCapacity))

/-- R38, R56: a host read while the block is idle returns the value and changes nothing in the block; a read of a
cell at or above `BV_LEN` or a byte at or above `BY_LEN` is refused (U1; the refusal's name is the model's, log 18). -/
def Obligations.HostReadsWhileIdle : Prop :=
  (∀ (s : State) (ms : List HostMove) (i : Nat), s.busy = false →
    (HostMovesNext (.read (.bit i)) ms s → s.bvLen ≤ i → step s = .refused .indexBeyondLength) ∧
    (HostMovesNext (.read (.byte i)) ms s → s.byLen ≤ i → step s = .refused .indexBeyondLength)) ∧
  ∀ (s : State) (ms : List HostMove) (r : HostRead), s.busy = false → HostMovesNext (.read r) ms s →
    (match r with
      | .bit i => i < s.bvLen
      | .byte a => a < s.byLen
      | _ => True) →
    ∃ t, step s = .next t ∧ SameBlock s t ∧ t.host.readData =
      match r with
      | .bvLen => s.bvLen
      | .byLen => s.byLen
      | .cmd => s.cmd.toNat
      | .argOff => s.argOff
      | .argNbits => s.argNbits
      | .status => s.status.toNat
      | .errInfo => s.errInfo
      | .bit i => (s.bit i).toNat
      | .byte a => (s.byte a).toNat

/-- R247, R254: while a command runs the host may read STATUS and apply reset; every other access is refused. -/
def Obligations.HostWhileBusy : Prop :=
  ∀ (s : State) (m : HostMove) (ms : List HostMove), s.busy = true → HostMovesNext m ms s →
    (m = .read .status → ∃ t, step s = .next t ∧ SameBlock s t ∧ t.host.readData = s.status.toNat) ∧
    (m ≠ .read .status → m ≠ .reset → step s = .refused .accessWhileBusy)

/-- R38, R242: the host loads any vector and any buffer that fit. -/
def Obligations.HostLoadsAnyVectorAndBuffer : Prop :=
  ∀ (s : State) (ms : List HostMove), s.busy = false → s.host.schedule = [] →
    (∀ X : List Bit, X.length ≤ s.params.maxBits → s.host.moves = loadVector X ++ ms →
      ∃ t, Host.Core.run Sys2Proof.core (1 + X.length) s = .next t ∧ t.bitVector = X ∧
        t.byteBuffer = s.byteBuffer ∧ t.busy = false ∧ t.argOff = s.argOff ∧ t.argNbits = s.argNbits ∧
        t.host.moves = ms) ∧
    (∀ P : List Byte, P.length ≤ s.params.maxBytes → s.host.moves = loadBuffer P ++ ms →
      ∃ t, Host.Core.run Sys2Proof.core (1 + P.length) s = .next t ∧ t.byteBuffer = P ∧
        t.bitVector = s.bitVector ∧ t.busy = false ∧ t.argOff = s.argOff ∧ t.argNbits = s.argNbits ∧
        t.host.moves = ms)

/-! ### The container operations -/

/-- R191 to R196: create, get, set, length, clear, set_all. -/
def Obligations.ContainerBasics : Prop :=
  (∀ m n, (n ≤ m → ∃ X, vecCreate m n = .ok X ∧ X.length = n ∧ ∀ b ∈ X, b = false) ∧
    (m < n → vecCreate m n = .error .allocation)) ∧
  ∀ (A : List Bit) (i : Nat) (v : Bit),
    (∀ h : i < A.length, vecGet A i = .ok A[i] ∧
      ∃ B, vecSet A i v = .ok B ∧ B.length = A.length ∧ vecGet B i = .ok v ∧
        ∀ j, j ≠ i → vecGet B j = vecGet A j) ∧
    (A.length ≤ i → vecGet A i = .error .noMeaning ∧ vecSet A i v = .error .noMeaning) ∧
    vecLength A = A.length ∧
    (vecLength (vecClear A) = A.length ∧ ∀ b ∈ vecClear A, b = false) ∧
    (vecLength (vecSetAll A v) = A.length ∧ ∀ b ∈ vecSetAll A v, b = v)

/-- R200: append overwrites `[destOffset, destOffset + n)` and nothing else, or fails; without `n` it copies all of
`src`; self onto an overlapping range of itself has no meaning (U10). -/
def Obligations.AppendOverwritesInPlace : Prop :=
  ∀ (A : List Bit) (off : Nat) (src : VectorSource) (n? : Option Nat),
    ∀ S n, (S = match src with | .self => A | .other X => X) → (n = match n? with | none => S.length | some k => k) →
    (vecAppend A off src n? = .error .capacity ↔ A.length < off + n) ∧
    (off + n ≤ A.length → n ≤ S.length → (src = .self → n ≤ off) →
      ∃ R, vecAppend A off src n? = .ok R ∧ R.length = A.length ∧
        (∀ i, i < n → R[off + i]? = S[i]?) ∧
        ∀ j, (j < off ∨ off + n ≤ j) → R[j]? = A[j]?) ∧
    (off + n ≤ A.length → S.length < n → vecAppend A off src n? = .error .noMeaning) ∧
    (src = .self → off + n ≤ A.length → (∃ i j, i < n ∧ j < n ∧ i = off + j) →
      vecAppend A off src n? = .error .noMeaning)

/-- R198: compare orders by length first, then by the first difference; the sign is the spec's general knowledge
(log 20). -/
def Obligations.CompareIsLengthThenBits : Prop :=
  ∀ A B : List Bit,
    (A.length < B.length → vecCompare A B = -1) ∧ (B.length < A.length → vecCompare A B = 1) ∧
    (A.length = B.length → (vecCompare A B = 0 ↔ A = B)) ∧
    (∀ i : Nat, A.length = B.length → (∀ j, j < i → A[j]? = B[j]?) → A[i]? = some false → B[i]? = some true →
      vecCompare A B = -1 ∧ vecCompare B A = 1) ∧
    vecCompare B A = -vecCompare A B

/-- R199, R197, R201: reverse, resize and slice, element by element; that resize without the flag keeps the old
prefix is the spec's general knowledge, PRESUMED (log 20). -/
def Obligations.ReverseResizeSlice : Prop :=
  (∀ A : List Bit, (vecReverse A).length = A.length ∧ vecReverse (vecReverse A) = A ∧
    ∀ i, i < A.length → (vecReverse A)[i]? = A[A.length - 1 - i]?) ∧
  (∀ (m : Nat) (A : List Bit) (n d : Nat), n ≤ m →
    vecResize m A n true d = .ok (List.replicate n false) ∧
    ∃ R, vecResize m A n false d = .ok R ∧ R.length = n ∧ ∀ i, i < n → i < A.length → R[i]? = A[i]?) ∧
  (∀ (m : Nat) (A : List Bit) (n d : Nat) (c : Bool), m < n → vecResize m A n c d = .error .allocation) ∧
  ∀ (A : List Bit) (off n : Nat),
    (off + n ≤ A.length → ∃ R, vecSlice A off n = .ok R ∧ R.length = n ∧ ∀ i, i < n → R[i]? = A[off + i]?) ∧
    (A.length < off + n → vecSlice A off n = .error .noMeaning)

/-! ### What the encoder writes -/

/-- The equations of `ENC` (R131 to R136), in the form of R147, which the spec marks as its own inference. A
measured run of 9 to 127 (it is maximal, or cut at 127) becomes one run token. A verbatim region, bits without nine
equal in a row up to the end or to a run of nine of the other value than its last bit, becomes verbatim tokens of
256 bits and one of the rest. Every bit sequence is empty, starts with such a run or starts with such a region. -/
def Obligations.EncEquations : Prop :=
  enc [] = [] ∧
  (∀ (v : Bit) (r : Nat) (rest : List Bit), 9 ≤ r → r ≤ 127 → (r = 127 ∨ rest.head? ≠ some v) →
    ∃ b : Byte, b.toNat = 128 * v.toNat + r ∧ enc (List.replicate r v ++ rest) = b :: enc rest) ∧
  (∀ (full : List (List Bit)) (last rest : List Bit), (∀ B ∈ full, B.length = 256) → last.length < 256 →
    ¬ HoldsNineEqual (full.flatten ++ last) →
    (rest = [] ∨ ∃ v more, rest = List.replicate 9 v ++ more ∧ (full.flatten ++ last).getLast? ≠ some v) →
    enc (full.flatten ++ last ++ rest) =
      full.flatMap (fun B => 128#8 :: 255#8 :: pack B) ++
      (if last = [] then [] else 128#8 :: BitVec.ofNat 8 (last.length - 1) :: pack last) ++ enc rest) ∧
  ∀ X : List Bit,
    X = [] ∨
    (∃ v r rest, X = List.replicate r v ++ rest ∧ 9 ≤ r ∧ r ≤ 127 ∧ (r = 127 ∨ rest.head? ≠ some v)) ∨
    ∃ (full : List (List Bit)) (last rest : List Bit), X = full.flatten ++ last ++ rest ∧
      full.flatten ++ last ≠ [] ∧ (∀ B ∈ full, B.length = 256) ∧ last.length < 256 ∧
      ¬ HoldsNineEqual (full.flatten ++ last) ∧
      (rest = [] ∨ ∃ v more, rest = List.replicate 9 v ++ more ∧ (full.flatten ++ last).getLast? ≠ some v)
end

