-- ==== Sys2Proof/Laws/Encoder.lean ====
section
/-! SUPPORT. The pieces of the encoder's function form: run measurement, the accumulator, and one turn of the
loop of R135. Later proofs cite these instead of unfolding `encLoop`. -/

namespace Sys2Proof.Machine

open Sys2Proof

/-! ### Run measurement (R131) -/

theorem leadingRun_le_cap (v : Bit) (cap : Nat) (xs : List Bit) : leadingRun v cap xs ≤ cap := by
  induction cap generalizing xs with
  | zero => simp [leadingRun]
  | succ cap ih =>
    cases xs with
    | nil => simp [leadingRun]
    | cons x xs =>
      have := ih xs
      simp only [leadingRun]
      split <;> omega

theorem leadingRun_le_length (v : Bit) (cap : Nat) (xs : List Bit) : leadingRun v cap xs ≤ xs.length := by
  induction cap generalizing xs with
  | zero => simp [leadingRun]
  | succ cap ih =>
    cases xs with
    | nil => simp [leadingRun]
    | cons x xs =>
      have := ih xs
      simp only [leadingRun, List.length_cons]
      split <;> omega

/-- The measured bits are a run, and what follows them ends it, unless the cap does. -/
theorem leadingRun_spec (v : Bit) (cap : Nat) (xs : List Bit) :
    xs = List.replicate (leadingRun v cap xs) v ++ xs.drop (leadingRun v cap xs) ∧
      (leadingRun v cap xs = cap ∨ (xs.drop (leadingRun v cap xs)).head? ≠ some v) := by
  induction cap generalizing xs with
  | zero => simp [leadingRun]
  | succ cap ih =>
    cases xs with
    | nil => simp [leadingRun]
    | cons x xs =>
      simp only [leadingRun]
      split
      · rename_i hx
        subst hx
        obtain ⟨h1, h2⟩ := ih xs
        refine ⟨by simpa [List.replicate_succ] using h1, ?_⟩
        simpa using h2
      · rename_i hx
        simp [hx]

/-- A run that ends by the cap or by the other value is measured whole. -/
theorem leadingRun_replicate_append (v : Bit) {r cap : Nat} {rest : List Bit} (hr : r ≤ cap)
    (h : r = cap ∨ rest.head? ≠ some v) : leadingRun v cap (List.replicate r v ++ rest) = r := by
  induction cap generalizing r with
  | zero => obtain rfl : r = 0 := by omega
            simp [leadingRun]
  | succ cap ih =>
    cases r with
    | zero =>
      cases rest with
      | nil => simp [leadingRun]
      | cons x xs => simp only [List.replicate_zero, List.nil_append, leadingRun]
                     rw [if_neg (by simpa using h)]
    | succ r =>
      simp only [List.replicate_succ, List.cons_append, leadingRun, if_pos]
      rw [ih (by omega) (h.imp_left (by omega))]

/-- `RUNLEN` is between 1 and 127 and does not pass the end (R131). -/
theorem runLength_bounds (v : Bit) (xs : List Bit) :
    1 ≤ runLength v xs ∧ runLength v xs ≤ 127 ∧ runLength v xs ≤ xs.length + 1 := by
  have h1 := leadingRun_le_cap v (RUN_MAX - 1) xs
  have h2 := leadingRun_le_length v (RUN_MAX - 1) xs
  have : RUN_MAX = 127 := rfl
  unfold runLength
  omega

/-! ### The accumulator (R134) -/

theorem appendBits_append (A X Y : List Bit) :
    appendBits A (X ++ Y) =
      ((appendBits A X).1 ++ (appendBits (appendBits A X).2 Y).1, (appendBits (appendBits A X).2 Y).2) := by
  induction X generalizing A with
  | nil => simp [appendBits]
  | cons b X ih =>
    simp only [List.cons_append, appendBits]
    split <;> simp [ih]

/-- Bits that do not fill the accumulator only go into it. -/
theorem appendBits_of_short {A X : List Bit} (h : A.length + X.length < VERB_MAX) :
    appendBits A X = ([], A ++ X) := by
  induction X generalizing A with
  | nil => simp [appendBits]
  | cons b X ih =>
    simp only [List.length_cons] at h
    simp only [appendBits]
    rw [if_neg (by simp; omega), ih (by simp; omega)]
    simp

/-- The accumulator never stays full. -/
theorem appendBits_pending_lt {A X : List Bit} (h : A.length < VERB_MAX) :
    (appendBits A X).2.length < VERB_MAX := by
  induction X generalizing A with
  | nil => simpa [appendBits]
  | cons b X ih =>
    simp only [appendBits]
    split
    · exact ih (by decide)
    · rename_i hne
      exact ih (by simp at hne ⊢; omega)

/-! ### The loop (R135) -/

/-- One turn of the loop, with `r` bits measured. -/
theorem encLoop_cons (fuel : Nat) (v : Bit) (xs A : List Bit) :
    encLoop (fuel + 1) (v :: xs) A =
      if runLength v xs > RUN_THRESHOLD then
        flushPending A ++ runByte v (runLength v xs) :: encLoop fuel (xs.drop (runLength v xs - 1)) []
      else
        (appendBits A (List.replicate (runLength v xs) v)).1 ++
          encLoop fuel (xs.drop (runLength v xs - 1)) (appendBits A (List.replicate (runLength v xs) v)).2 := rfl

/-- The end of input (R136). -/
theorem encLoop_nil (fuel : Nat) (A : List Bit) : encLoop fuel [] A = flushPending A := by
  cases fuel <;> rfl

/-- Fuel enough for the bits to read is as good as any. -/
theorem encLoop_fuel {fuel fuel' : Nat} {X : List Bit} (A : List Bit) (h : X.length ≤ fuel)
    (h' : X.length ≤ fuel') : encLoop fuel X A = encLoop fuel' X A := by
  induction fuel generalizing fuel' X A with
  | zero =>
    obtain rfl : X = [] := by simpa using h
    simp [encLoop_nil]
  | succ fuel ih =>
    cases X with
    | nil => simp [encLoop_nil]
    | cons v xs =>
      cases fuel' with
      | zero => simp at h'
      | succ fuel' =>
        simp only [List.length_cons] at h h'
        have hd : ∀ n, (xs.drop n).length ≤ fuel := fun n => by simp; omega
        have hd' : ∀ n, (xs.drop n).length ≤ fuel' := fun n => by simp; omega
        simp only [encLoop_cons, ih _ (hd _) (hd' _)]

/-- The loop on a measured run of 9 to 127, whatever is pending: flush, one run byte, and on from an empty
accumulator (R133). -/
theorem encLoop_long {v : Bit} {r fuel : Nat} {rest : List Bit} (A : List Bit) (h9 : 9 ≤ r) (h127 : r ≤ 127)
    (h : r = 127 ∨ rest.head? ≠ some v) (hf : r + rest.length ≤ fuel) :
    encLoop fuel (List.replicate r v ++ rest) A = flushPending A ++ runByte v r :: enc rest := by
  obtain ⟨r, rfl⟩ : ∃ k, r = k + 1 := ⟨r - 1, by omega⟩
  obtain ⟨fuel, rfl⟩ : ∃ k, fuel = k + 1 := ⟨fuel - 1, by omega⟩
  have hr : runLength v (List.replicate r v ++ rest) = r + 1 := by
    unfold runLength
    rw [leadingRun_replicate_append v (by simp [RUN_MAX]; omega)
      (h.imp (fun h => by simp [RUN_MAX]; omega) id)]
  rw [List.replicate_succ, List.cons_append, encLoop_cons, hr,
    if_pos (by simp [RUN_THRESHOLD]; omega)]
  simp only [Nat.add_sub_cancel, List.drop_left' (List.length_replicate ..)]
  rw [encLoop_fuel [] (by omega) (Nat.le_refl rest.length)]
  rfl

end Sys2Proof.Machine
end

