-- ==== Sys2Proof/Laws/State.lean ====
section
/-! SUPPORT. One lemma per field per update: what each named operation over State leaves in each field. -/

namespace Sys2Proof.Machine

open Sys2Proof

/-! ### `State.writeBits` -/

@[simp] theorem State.writeBits_params (s : State) (base : Nat) (X : List Bit) : (s.writeBits base X).params = s.params := rfl
@[simp] theorem State.writeBits_grain (s : State) (base : Nat) (X : List Bit) : (s.writeBits base X).grain = s.grain := rfl
@[simp] theorem State.writeBits_bitMem (s : State) (base : Nat) (X : List Bit) : (s.writeBits base X).bitMem = s.bitMem.writeRange base X := rfl
@[simp] theorem State.writeBits_bvLen (s : State) (base : Nat) (X : List Bit) : (s.writeBits base X).bvLen = s.bvLen := rfl
@[simp] theorem State.writeBits_byteMem (s : State) (base : Nat) (X : List Bit) : (s.writeBits base X).byteMem = s.byteMem := rfl
@[simp] theorem State.writeBits_byLen (s : State) (base : Nat) (X : List Bit) : (s.writeBits base X).byLen = s.byLen := rfl
@[simp] theorem State.writeBits_cmd (s : State) (base : Nat) (X : List Bit) : (s.writeBits base X).cmd = s.cmd := rfl
@[simp] theorem State.writeBits_argOff (s : State) (base : Nat) (X : List Bit) : (s.writeBits base X).argOff = s.argOff := rfl
@[simp] theorem State.writeBits_argNbits (s : State) (base : Nat) (X : List Bit) : (s.writeBits base X).argNbits = s.argNbits := rfl
@[simp] theorem State.writeBits_status (s : State) (base : Nat) (X : List Bit) : (s.writeBits base X).status = s.status := rfl
@[simp] theorem State.writeBits_errInfo (s : State) (base : Nat) (X : List Bit) : (s.writeBits base X).errInfo = s.errInfo := rfl
@[simp] theorem State.writeBits_eng (s : State) (base : Nat) (X : List Bit) : (s.writeBits base X).eng = s.eng := rfl
@[simp] theorem State.writeBits_host (s : State) (base : Nat) (X : List Bit) : (s.writeBits base X).host = s.host := rfl
@[simp] theorem State.writeBits_draws (s : State) (base : Nat) (X : List Bit) : (s.writeBits base X).draws = s.draws := rfl

/-! ### `State.writeBytes` -/

@[simp] theorem State.writeBytes_params (s : State) (base : Nat) (P : List Byte) : (s.writeBytes base P).params = s.params := rfl
@[simp] theorem State.writeBytes_grain (s : State) (base : Nat) (P : List Byte) : (s.writeBytes base P).grain = s.grain := rfl
@[simp] theorem State.writeBytes_bitMem (s : State) (base : Nat) (P : List Byte) : (s.writeBytes base P).bitMem = s.bitMem := rfl
@[simp] theorem State.writeBytes_bvLen (s : State) (base : Nat) (P : List Byte) : (s.writeBytes base P).bvLen = s.bvLen := rfl
@[simp] theorem State.writeBytes_byteMem (s : State) (base : Nat) (P : List Byte) : (s.writeBytes base P).byteMem = s.byteMem.writeRange base P := rfl
@[simp] theorem State.writeBytes_byLen (s : State) (base : Nat) (P : List Byte) : (s.writeBytes base P).byLen = s.byLen := rfl
@[simp] theorem State.writeBytes_cmd (s : State) (base : Nat) (P : List Byte) : (s.writeBytes base P).cmd = s.cmd := rfl
@[simp] theorem State.writeBytes_argOff (s : State) (base : Nat) (P : List Byte) : (s.writeBytes base P).argOff = s.argOff := rfl
@[simp] theorem State.writeBytes_argNbits (s : State) (base : Nat) (P : List Byte) : (s.writeBytes base P).argNbits = s.argNbits := rfl
@[simp] theorem State.writeBytes_status (s : State) (base : Nat) (P : List Byte) : (s.writeBytes base P).status = s.status := rfl
@[simp] theorem State.writeBytes_errInfo (s : State) (base : Nat) (P : List Byte) : (s.writeBytes base P).errInfo = s.errInfo := rfl
@[simp] theorem State.writeBytes_eng (s : State) (base : Nat) (P : List Byte) : (s.writeBytes base P).eng = s.eng := rfl
@[simp] theorem State.writeBytes_host (s : State) (base : Nat) (P : List Byte) : (s.writeBytes base P).host = s.host := rfl
@[simp] theorem State.writeBytes_draws (s : State) (base : Nat) (P : List Byte) : (s.writeBytes base P).draws = s.draws := rfl

/-! ### `State.storeBv` -/

@[simp] theorem State.storeBv_params (s : State) (X : List Bit) : (s.storeBv X).params = s.params := rfl
@[simp] theorem State.storeBv_grain (s : State) (X : List Bit) : (s.storeBv X).grain = s.grain := rfl
@[simp] theorem State.storeBv_bitMem (s : State) (X : List Bit) : (s.storeBv X).bitMem = s.bitMem.writeRange 0 X := rfl
@[simp] theorem State.storeBv_bvLen (s : State) (X : List Bit) : (s.storeBv X).bvLen = X.length := rfl
@[simp] theorem State.storeBv_byteMem (s : State) (X : List Bit) : (s.storeBv X).byteMem = s.byteMem := rfl
@[simp] theorem State.storeBv_byLen (s : State) (X : List Bit) : (s.storeBv X).byLen = s.byLen := rfl
@[simp] theorem State.storeBv_cmd (s : State) (X : List Bit) : (s.storeBv X).cmd = s.cmd := rfl
@[simp] theorem State.storeBv_argOff (s : State) (X : List Bit) : (s.storeBv X).argOff = s.argOff := rfl
@[simp] theorem State.storeBv_argNbits (s : State) (X : List Bit) : (s.storeBv X).argNbits = s.argNbits := rfl
@[simp] theorem State.storeBv_status (s : State) (X : List Bit) : (s.storeBv X).status = s.status := rfl
@[simp] theorem State.storeBv_errInfo (s : State) (X : List Bit) : (s.storeBv X).errInfo = s.errInfo := rfl
@[simp] theorem State.storeBv_eng (s : State) (X : List Bit) : (s.storeBv X).eng = s.eng := rfl
@[simp] theorem State.storeBv_host (s : State) (X : List Bit) : (s.storeBv X).host = s.host := rfl
@[simp] theorem State.storeBv_draws (s : State) (X : List Bit) : (s.storeBv X).draws = s.draws := rfl

/-! ### `State.storeBy` -/

@[simp] theorem State.storeBy_params (s : State) (P : List Byte) : (s.storeBy P).params = s.params := rfl
@[simp] theorem State.storeBy_grain (s : State) (P : List Byte) : (s.storeBy P).grain = s.grain := rfl
@[simp] theorem State.storeBy_bitMem (s : State) (P : List Byte) : (s.storeBy P).bitMem = s.bitMem := rfl
@[simp] theorem State.storeBy_bvLen (s : State) (P : List Byte) : (s.storeBy P).bvLen = s.bvLen := rfl
@[simp] theorem State.storeBy_byteMem (s : State) (P : List Byte) : (s.storeBy P).byteMem = s.byteMem.writeRange 0 P := rfl
@[simp] theorem State.storeBy_byLen (s : State) (P : List Byte) : (s.storeBy P).byLen = P.length := rfl
@[simp] theorem State.storeBy_cmd (s : State) (P : List Byte) : (s.storeBy P).cmd = s.cmd := rfl
@[simp] theorem State.storeBy_argOff (s : State) (P : List Byte) : (s.storeBy P).argOff = s.argOff := rfl
@[simp] theorem State.storeBy_argNbits (s : State) (P : List Byte) : (s.storeBy P).argNbits = s.argNbits := rfl
@[simp] theorem State.storeBy_status (s : State) (P : List Byte) : (s.storeBy P).status = s.status := rfl
@[simp] theorem State.storeBy_errInfo (s : State) (P : List Byte) : (s.storeBy P).errInfo = s.errInfo := rfl
@[simp] theorem State.storeBy_eng (s : State) (P : List Byte) : (s.storeBy P).eng = s.eng := rfl
@[simp] theorem State.storeBy_host (s : State) (P : List Byte) : (s.storeBy P).host = s.host := rfl
@[simp] theorem State.storeBy_draws (s : State) (P : List Byte) : (s.storeBy P).draws = s.draws := rfl

/-! ### `State.hostSetBvLen` -/

@[simp] theorem State.hostSetBvLen_params (s : State) (n : Nat) : (s.hostSetBvLen n).params = s.params := rfl
@[simp] theorem State.hostSetBvLen_grain (s : State) (n : Nat) : (s.hostSetBvLen n).grain = s.grain := rfl
@[simp] theorem State.hostSetBvLen_bitMem (s : State) (n : Nat) : (s.hostSetBvLen n).bitMem = s.bitMem.writeRange s.bvLen (freshBits s.draws (n - s.bvLen)) := rfl
@[simp] theorem State.hostSetBvLen_bvLen (s : State) (n : Nat) : (s.hostSetBvLen n).bvLen = n := rfl
@[simp] theorem State.hostSetBvLen_byteMem (s : State) (n : Nat) : (s.hostSetBvLen n).byteMem = s.byteMem := rfl
@[simp] theorem State.hostSetBvLen_byLen (s : State) (n : Nat) : (s.hostSetBvLen n).byLen = s.byLen := rfl
@[simp] theorem State.hostSetBvLen_cmd (s : State) (n : Nat) : (s.hostSetBvLen n).cmd = s.cmd := rfl
@[simp] theorem State.hostSetBvLen_argOff (s : State) (n : Nat) : (s.hostSetBvLen n).argOff = s.argOff := rfl
@[simp] theorem State.hostSetBvLen_argNbits (s : State) (n : Nat) : (s.hostSetBvLen n).argNbits = s.argNbits := rfl
@[simp] theorem State.hostSetBvLen_status (s : State) (n : Nat) : (s.hostSetBvLen n).status = s.status := rfl
@[simp] theorem State.hostSetBvLen_errInfo (s : State) (n : Nat) : (s.hostSetBvLen n).errInfo = s.errInfo := rfl
@[simp] theorem State.hostSetBvLen_eng (s : State) (n : Nat) : (s.hostSetBvLen n).eng = s.eng := rfl
@[simp] theorem State.hostSetBvLen_host (s : State) (n : Nat) : (s.hostSetBvLen n).host = s.host := rfl
@[simp] theorem State.hostSetBvLen_draws (s : State) (n : Nat) : (s.hostSetBvLen n).draws = s.draws + (n - s.bvLen) := rfl

/-! ### `State.hostSetByLen` -/

@[simp] theorem State.hostSetByLen_params (s : State) (n : Nat) : (s.hostSetByLen n).params = s.params := rfl
@[simp] theorem State.hostSetByLen_grain (s : State) (n : Nat) : (s.hostSetByLen n).grain = s.grain := rfl
@[simp] theorem State.hostSetByLen_bitMem (s : State) (n : Nat) : (s.hostSetByLen n).bitMem = s.bitMem := rfl
@[simp] theorem State.hostSetByLen_bvLen (s : State) (n : Nat) : (s.hostSetByLen n).bvLen = s.bvLen := rfl
@[simp] theorem State.hostSetByLen_byteMem (s : State) (n : Nat) : (s.hostSetByLen n).byteMem = s.byteMem.writeRange s.byLen (freshBytes s.draws (n - s.byLen)) := rfl
@[simp] theorem State.hostSetByLen_byLen (s : State) (n : Nat) : (s.hostSetByLen n).byLen = n := rfl
@[simp] theorem State.hostSetByLen_cmd (s : State) (n : Nat) : (s.hostSetByLen n).cmd = s.cmd := rfl
@[simp] theorem State.hostSetByLen_argOff (s : State) (n : Nat) : (s.hostSetByLen n).argOff = s.argOff := rfl
@[simp] theorem State.hostSetByLen_argNbits (s : State) (n : Nat) : (s.hostSetByLen n).argNbits = s.argNbits := rfl
@[simp] theorem State.hostSetByLen_status (s : State) (n : Nat) : (s.hostSetByLen n).status = s.status := rfl
@[simp] theorem State.hostSetByLen_errInfo (s : State) (n : Nat) : (s.hostSetByLen n).errInfo = s.errInfo := rfl
@[simp] theorem State.hostSetByLen_eng (s : State) (n : Nat) : (s.hostSetByLen n).eng = s.eng := rfl
@[simp] theorem State.hostSetByLen_host (s : State) (n : Nat) : (s.hostSetByLen n).host = s.host := rfl
@[simp] theorem State.hostSetByLen_draws (s : State) (n : Nat) : (s.hostSetByLen n).draws = s.draws + (n - s.byLen) := rfl

/-! ### `State.setBusy` -/

@[simp] theorem State.setBusy_params (s : State) (b : Bool) : (s.setBusy b).params = s.params := rfl
@[simp] theorem State.setBusy_grain (s : State) (b : Bool) : (s.setBusy b).grain = s.grain := rfl
@[simp] theorem State.setBusy_bitMem (s : State) (b : Bool) : (s.setBusy b).bitMem = s.bitMem := rfl
@[simp] theorem State.setBusy_bvLen (s : State) (b : Bool) : (s.setBusy b).bvLen = s.bvLen := rfl
@[simp] theorem State.setBusy_byteMem (s : State) (b : Bool) : (s.setBusy b).byteMem = s.byteMem := rfl
@[simp] theorem State.setBusy_byLen (s : State) (b : Bool) : (s.setBusy b).byLen = s.byLen := rfl
@[simp] theorem State.setBusy_cmd (s : State) (b : Bool) : (s.setBusy b).cmd = s.cmd := rfl
@[simp] theorem State.setBusy_argOff (s : State) (b : Bool) : (s.setBusy b).argOff = s.argOff := rfl
@[simp] theorem State.setBusy_argNbits (s : State) (b : Bool) : (s.setBusy b).argNbits = s.argNbits := rfl
@[simp] theorem State.setBusy_status (s : State) (b : Bool) : (s.setBusy b).status = statusOf s.reservedBits s.errCode b := rfl
@[simp] theorem State.setBusy_errInfo (s : State) (b : Bool) : (s.setBusy b).errInfo = s.errInfo := rfl
@[simp] theorem State.setBusy_eng (s : State) (b : Bool) : (s.setBusy b).eng = s.eng := rfl
@[simp] theorem State.setBusy_host (s : State) (b : Bool) : (s.setBusy b).host = s.host := rfl
@[simp] theorem State.setBusy_draws (s : State) (b : Bool) : (s.setBusy b).draws = s.draws := rfl

/-! ### `State.endCommand` -/

@[simp] theorem State.endCommand_params (s : State) (e : ErrKind) (info : Nat) : (s.endCommand e info).params = s.params := rfl
@[simp] theorem State.endCommand_grain (s : State) (e : ErrKind) (info : Nat) : (s.endCommand e info).grain = s.grain := rfl
@[simp] theorem State.endCommand_bitMem (s : State) (e : ErrKind) (info : Nat) : (s.endCommand e info).bitMem = s.bitMem := rfl
@[simp] theorem State.endCommand_bvLen (s : State) (e : ErrKind) (info : Nat) : (s.endCommand e info).bvLen = s.bvLen := rfl
@[simp] theorem State.endCommand_byteMem (s : State) (e : ErrKind) (info : Nat) : (s.endCommand e info).byteMem = s.byteMem := rfl
@[simp] theorem State.endCommand_byLen (s : State) (e : ErrKind) (info : Nat) : (s.endCommand e info).byLen = s.byLen := rfl
@[simp] theorem State.endCommand_cmd (s : State) (e : ErrKind) (info : Nat) : (s.endCommand e info).cmd = s.cmd := rfl
@[simp] theorem State.endCommand_argOff (s : State) (e : ErrKind) (info : Nat) : (s.endCommand e info).argOff = s.argOff := rfl
@[simp] theorem State.endCommand_argNbits (s : State) (e : ErrKind) (info : Nat) : (s.endCommand e info).argNbits = s.argNbits := rfl
@[simp] theorem State.endCommand_status (s : State) (e : ErrKind) (info : Nat) : (s.endCommand e info).status = s.endStatus e := rfl
@[simp] theorem State.endCommand_errInfo (s : State) (e : ErrKind) (info : Nat) : (s.endCommand e info).errInfo = info := rfl
@[simp] theorem State.endCommand_eng (s : State) (e : ErrKind) (info : Nat) : (s.endCommand e info).eng = Engine.free s.params s.draws := rfl
@[simp] theorem State.endCommand_host (s : State) (e : ErrKind) (info : Nat) : (s.endCommand e info).host = s.host := rfl
@[simp] theorem State.endCommand_draws (s : State) (e : ErrKind) (info : Nat) : (s.endCommand e info).draws = s.draws + engineDraws := rfl

/-! ### `State.withCmd` -/

@[simp] theorem State.withCmd_params (s : State) (c : BitVec 2) : (s.withCmd c).params = s.params := rfl
@[simp] theorem State.withCmd_grain (s : State) (c : BitVec 2) : (s.withCmd c).grain = s.grain := rfl
@[simp] theorem State.withCmd_bitMem (s : State) (c : BitVec 2) : (s.withCmd c).bitMem = s.bitMem := rfl
@[simp] theorem State.withCmd_bvLen (s : State) (c : BitVec 2) : (s.withCmd c).bvLen = s.bvLen := rfl
@[simp] theorem State.withCmd_byteMem (s : State) (c : BitVec 2) : (s.withCmd c).byteMem = s.byteMem := rfl
@[simp] theorem State.withCmd_byLen (s : State) (c : BitVec 2) : (s.withCmd c).byLen = s.byLen := rfl
@[simp] theorem State.withCmd_cmd (s : State) (c : BitVec 2) : (s.withCmd c).cmd = c := rfl
@[simp] theorem State.withCmd_argOff (s : State) (c : BitVec 2) : (s.withCmd c).argOff = s.argOff := rfl
@[simp] theorem State.withCmd_argNbits (s : State) (c : BitVec 2) : (s.withCmd c).argNbits = s.argNbits := rfl
@[simp] theorem State.withCmd_status (s : State) (c : BitVec 2) : (s.withCmd c).status = s.status := rfl
@[simp] theorem State.withCmd_errInfo (s : State) (c : BitVec 2) : (s.withCmd c).errInfo = s.errInfo := rfl
@[simp] theorem State.withCmd_eng (s : State) (c : BitVec 2) : (s.withCmd c).eng = s.eng := rfl
@[simp] theorem State.withCmd_host (s : State) (c : BitVec 2) : (s.withCmd c).host = s.host := rfl
@[simp] theorem State.withCmd_draws (s : State) (c : BitVec 2) : (s.withCmd c).draws = s.draws := rfl

/-! ### `State.withEng` -/

@[simp] theorem State.withEng_params (s : State) (e : Engine) : (s.withEng e).params = s.params := rfl
@[simp] theorem State.withEng_grain (s : State) (e : Engine) : (s.withEng e).grain = s.grain := rfl
@[simp] theorem State.withEng_bitMem (s : State) (e : Engine) : (s.withEng e).bitMem = s.bitMem := rfl
@[simp] theorem State.withEng_bvLen (s : State) (e : Engine) : (s.withEng e).bvLen = s.bvLen := rfl
@[simp] theorem State.withEng_byteMem (s : State) (e : Engine) : (s.withEng e).byteMem = s.byteMem := rfl
@[simp] theorem State.withEng_byLen (s : State) (e : Engine) : (s.withEng e).byLen = s.byLen := rfl
@[simp] theorem State.withEng_cmd (s : State) (e : Engine) : (s.withEng e).cmd = s.cmd := rfl
@[simp] theorem State.withEng_argOff (s : State) (e : Engine) : (s.withEng e).argOff = s.argOff := rfl
@[simp] theorem State.withEng_argNbits (s : State) (e : Engine) : (s.withEng e).argNbits = s.argNbits := rfl
@[simp] theorem State.withEng_status (s : State) (e : Engine) : (s.withEng e).status = s.status := rfl
@[simp] theorem State.withEng_errInfo (s : State) (e : Engine) : (s.withEng e).errInfo = s.errInfo := rfl
@[simp] theorem State.withEng_eng (s : State) (e : Engine) : (s.withEng e).eng = e := rfl
@[simp] theorem State.withEng_host (s : State) (e : Engine) : (s.withEng e).host = s.host := rfl
@[simp] theorem State.withEng_draws (s : State) (e : Engine) : (s.withEng e).draws = s.draws := rfl

/-! ### The two ends of a command, and the emission of bytes -/

theorem State.succeed_eq (s : State) : s.succeed = s.endCommand .none 0 := rfl

theorem State.raise_eq (s : State) (e : ErrKind) (info : Nat) : s.raise e info = s.endCommand e info := rfl

/-- What a successful command leaves of a result it has just stored: everything but the end fields. -/
@[simp] theorem State.succeed_byteMem (s : State) : s.succeed.byteMem = s.byteMem := rfl
@[simp] theorem State.succeed_bitMem (s : State) : s.succeed.bitMem = s.bitMem := rfl
@[simp] theorem State.succeed_bvLen (s : State) : s.succeed.bvLen = s.bvLen := rfl
@[simp] theorem State.succeed_byLen (s : State) : s.succeed.byLen = s.byLen := rfl

/-- What `emit` changes: the bytes at `WR_POS`, and `WR_POS`. -/
theorem State.emit_eq (s : State) (P : List Byte) :
    s.emit P = { s with
      byteMem := s.byteMem.writeRange s.eng.wrPos P
      eng := { s.eng with wrPos := s.eng.wrPos + P.length } } := rfl

end Sys2Proof.Machine
end

