-- ==== Sys2Proof/Laws/Memory.lean ====
section
/-! SUPPORT. The laws of memory: a read after a write, and that every write keeps the canonical form and
the address space. -/

namespace Sys2Proof.Machine

open Sys2Proof

variable {α : Type}

@[simp] theorem Memory.get?_nil (a : Nat) : Memory.get? ([] : Memory α) a = none := rfl

theorem Memory.get?_cons (k : Nat) (v : α) (m : Memory α) (a : Nat) :
    Memory.get? ((k, v) :: m) a = if k = a then some v else Memory.get? m a := rfl

theorem Memory.get?_append (m m' : Memory α) (a : Nat) :
    Memory.get? (m ++ m') a = (Memory.get? m a).or (Memory.get? m' a) := by
  induction m with
  | nil => simp
  | cons x m ih =>
    obtain ⟨k, v⟩ := x
    simp only [List.cons_append, Memory.get?_cons, ih]
    split <;> simp

/-- Filtering by address keeps what the filter admits and forgets the rest. -/
theorem Memory.get?_filter (p : Nat → Bool) (m : Memory α) (a : Nat) :
    Memory.get? (m.filter fun x => p x.1) a = if p a then Memory.get? m a else none := by
  induction m with
  | nil => simp
  | cons x m ih =>
    obtain ⟨k, v⟩ := x
    by_cases hk : k = a
    · subst hk
      by_cases hp : p k = true
      · simp [hp, Memory.get?_cons]
      · simp [hp, ih]
    · by_cases hp : p k = true
      · simp [hp, Memory.get?_cons, hk, ih]
      · simp [hp, Memory.get?_cons, hk, ih]

theorem Memory.get?_cellsFrom (vs : List α) (base a : Nat) :
    Memory.get? (Memory.cellsFrom base vs) a = if base ≤ a then vs[a - base]? else none := by
  induction vs generalizing base with
  | nil => simp [Memory.cellsFrom]
  | cons v vs ih =>
    simp only [Memory.cellsFrom, Memory.get?_cons, ih]
    rcases Nat.lt_trichotomy base a with h | h | h
    · have : a - base = (a - (base + 1)) + 1 := by omega
      simp [show base ≠ a by omega, show base + 1 ≤ a by omega, show base ≤ a by omega, this]
    · subst h; simp
    · simp [show base ≠ a by omega, show ¬ base + 1 ≤ a by omega, show ¬ base ≤ a by omega]

/-- A read after a write: inside the range what was written, outside it what was there. -/
theorem Memory.get?_writeRange (m : Memory α) (base : Nat) (vs : List α) (a : Nat) :
    (m.writeRange base vs).get? a =
      if base ≤ a ∧ a < base + vs.length then vs[a - base]? else m.get? a := by
  have h1 := Memory.get?_filter (fun k => decide (k < base)) m a
  have h2 := Memory.get?_filter (fun k => decide (base + vs.length ≤ k)) m a
  simp only [Memory.writeRange, Memory.get?_append, h1, h2, Memory.get?_cellsFrom]
  by_cases hb : base ≤ a
  · by_cases ha : a < base + vs.length
    · have hlt : a - base < vs.length := by omega
      simp [hb, ha, Nat.not_lt.mpr hb]
      rw [List.getElem?_eq_getElem hlt]; simp
    · have hge : vs.length ≤ a - base := by omega
      simp [hb, ha, Nat.not_lt.mpr hb, List.getElem?_eq_none hge, Nat.not_lt.mp ha]
  · have hlt : a < base := by omega
    have hn : ¬ base + vs.length ≤ a := by omega
    simp [hb, hlt, hn]

theorem Memory.mem_cellsFrom {vs : List α} {base : Nat} {x : Nat × α}
    (h : x ∈ Memory.cellsFrom base vs) : base ≤ x.1 ∧ x.1 < base + vs.length := by
  induction vs generalizing base with
  | nil => simp [Memory.cellsFrom] at h
  | cons v vs ih =>
    simp only [Memory.cellsFrom, List.mem_cons] at h
    rcases h with rfl | h
    · simp
    · have := ih h; simp only [List.length_cons]; omega

theorem Memory.wf_cellsFrom (vs : List α) (base : Nat) : (Memory.cellsFrom base vs).wf := by
  induction vs generalizing base with
  | nil => exact List.Pairwise.nil
  | cons v vs ih =>
    refine List.Pairwise.cons (fun x hx => ?_) (ih _)
    have := Memory.mem_cellsFrom hx
    simp only; omega

/-- Every write keeps the canonical form. -/
theorem Memory.wf_writeRange {m : Memory α} (h : m.wf) (base : Nat) (vs : List α) :
    (m.writeRange base vs).wf := by
  refine List.pairwise_append.mpr ⟨List.pairwise_append.mpr
    ⟨h.filter _, Memory.wf_cellsFrom vs base, ?_⟩, h.filter _, ?_⟩
  · intro x hx y hy
    have hx' := (List.mem_filter.mp hx).2
    have hy' := Memory.mem_cellsFrom hy
    simp only [decide_eq_true_eq] at hx'
    omega
  · intro x hx y hy
    have hy' := (List.mem_filter.mp hy).2
    simp only [decide_eq_true_eq] at hy'
    rcases List.mem_append.mp hx with hx | hx
    · have hx' := (List.mem_filter.mp hx).2
      simp only [decide_eq_true_eq] at hx'
      omega
    · have hx' := Memory.mem_cellsFrom hx
      omega

/-- A write inside an address space keeps a memory inside it. -/
theorem Memory.within_writeRange {m : Memory α} {cap base : Nat} {vs : List α} (h : m.within cap)
    (hb : base + vs.length ≤ cap ∨ vs = []) : (m.writeRange base vs).within cap := by
  intro x hx
  simp only [Memory.writeRange, List.mem_append, List.mem_filter] at hx
  rcases hx with (⟨hx, -⟩ | hx) | ⟨hx, -⟩
  · exact h x hx
  · have := Memory.mem_cellsFrom hx
    rcases hb with hb | rfl
    · omega
    · simp [Memory.cellsFrom] at hx
  · exact h x hx

/-- A memory with nothing listed has the canonical form, as State.reset's have. -/
theorem reset_memories_wf : State.reset.bitMem.wf ∧ State.reset.byteMem.wf :=
  ⟨List.Pairwise.nil, List.Pairwise.nil⟩

/-! ### The memories of the block -/

/-- `BIT[i]` after a write of cells. -/
theorem State.bit_writeBits (s : State) (base : Nat) (X : List Bit) (i : Nat) :
    (s.writeBits base X).bit i =
      if h : base ≤ i ∧ i < base + X.length then X[i - base]'(by omega) else s.bit i := by
  simp only [State.bit, State.writeBits_bitMem, Memory.get?_writeRange]
  split
  · rename_i h
    have : i - base < X.length := by omega
    simp [this]
  · rfl

/-- `BYTE[a]` after a write of bytes. -/
theorem State.byte_writeBytes (s : State) (base : Nat) (P : List Byte) (a : Nat) :
    (s.writeBytes base P).byte a =
      if h : base ≤ a ∧ a < base + P.length then P[a - base]'(by omega) else s.byte a := by
  simp only [State.byte, State.writeBytes_byteMem, Memory.get?_writeRange]
  split
  · rename_i h
    have : a - base < P.length := by omega
    simp [this]
  · rfl

@[simp] theorem State.bit_writeBytes (s : State) (base : Nat) (P : List Byte) (i : Nat) :
    (s.writeBytes base P).bit i = s.bit i := rfl
@[simp] theorem State.byte_writeBits (s : State) (base : Nat) (X : List Bit) (a : Nat) :
    (s.writeBits base X).byte a = s.byte a := rfl
@[simp] theorem State.byte_storeBv (s : State) (X : List Bit) (a : Nat) : (s.storeBv X).byte a = s.byte a := rfl
@[simp] theorem State.bit_storeBy (s : State) (P : List Byte) (i : Nat) : (s.storeBy P).bit i = s.bit i := rfl
@[simp] theorem State.bit_withCmd (s : State) (c : BitVec 2) (i : Nat) : (s.withCmd c).bit i = s.bit i := rfl
@[simp] theorem State.byte_withCmd (s : State) (c : BitVec 2) (a : Nat) : (s.withCmd c).byte a = s.byte a := rfl
@[simp] theorem State.bit_withEng (s : State) (e : Engine) (i : Nat) : (s.withEng e).bit i = s.bit i := rfl
@[simp] theorem State.byte_withEng (s : State) (e : Engine) (a : Nat) : (s.withEng e).byte a = s.byte a := rfl
@[simp] theorem State.bit_endCommand (s : State) (e : ErrKind) (n i : Nat) :
    (s.endCommand e n).bit i = s.bit i := rfl
@[simp] theorem State.byte_endCommand (s : State) (e : ErrKind) (n a : Nat) :
    (s.endCommand e n).byte a = s.byte a := rfl

theorem State.bit_storeBv (s : State) (X : List Bit) (i : Nat) :
    (s.storeBv X).bit i = if h : i < X.length then X[i] else s.bit i := by
  have h := State.bit_writeBits s 0 X i
  simpa [State.bit] using h

theorem State.byte_storeBy (s : State) (P : List Byte) (a : Nat) :
    (s.storeBy P).byte a = if h : a < P.length then P[a] else s.byte a := by
  have h := State.byte_writeBytes s 0 P a
  simpa [State.byte] using h

@[simp] theorem State.bitVector_length (s : State) : s.bitVector.length = s.bvLen := by
  simp [State.bitVector]

@[simp] theorem State.byteBuffer_length (s : State) : s.byteBuffer.length = s.byLen := by
  simp [State.byteBuffer]

/-- `BV <- X` makes the current vector `X` (R13). -/
@[simp] theorem State.bitVector_storeBv (s : State) (X : List Bit) : (s.storeBv X).bitVector = X := by
  refine List.ext_getElem (by simp) fun i h1 h2 => ?_
  simp [State.bitVector, State.bit_storeBv, h2]

/-- `BY <- P` makes the current buffer `P` (R13). -/
@[simp] theorem State.byteBuffer_storeBy (s : State) (P : List Byte) : (s.storeBy P).byteBuffer = P := by
  refine List.ext_getElem (by simp) fun i h1 h2 => ?_
  simp [State.byteBuffer, State.byte_storeBy, h2]

@[simp] theorem State.byteBuffer_storeBv (s : State) (X : List Bit) :
    (s.storeBv X).byteBuffer = s.byteBuffer := rfl
@[simp] theorem State.bitVector_storeBy (s : State) (P : List Byte) :
    (s.storeBy P).bitVector = s.bitVector := rfl
@[simp] theorem State.bitVector_endCommand (s : State) (e : ErrKind) (n : Nat) :
    (s.endCommand e n).bitVector = s.bitVector := rfl
@[simp] theorem State.byteBuffer_endCommand (s : State) (e : ErrKind) (n : Nat) :
    (s.endCommand e n).byteBuffer = s.byteBuffer := rfl
@[simp] theorem State.bitVector_withCmd (s : State) (c : BitVec 2) :
    (s.withCmd c).bitVector = s.bitVector := rfl
@[simp] theorem State.byteBuffer_withCmd (s : State) (c : BitVec 2) :
    (s.withCmd c).byteBuffer = s.byteBuffer := rfl

end Sys2Proof.Machine
end

