-- ==== Sys2Proof/Laws/Status.lean ====
section
/-! SUPPORT. The fields of STATUS (R27), read back after each way of writing it. -/

namespace Sys2Proof.Machine

open Sys2Proof

/-- Each field of a STATUS byte reads as it was put together. -/
theorem statusOf_fields (r : BitVec 4) (e : BitVec 3) (b : Bool) :
    (statusOf r e b).getLsbD 0 = b ∧ (statusOf r e b).extractLsb' 1 3 = e ∧
      (statusOf r e b).extractLsb' 4 4 = r := by
  revert r e b
  decide

@[simp] theorem ErrKind.ofCode_code (e : ErrKind) : ErrKind.ofCode e.code = some e := by
  cases e <;> rfl

@[simp] theorem State.busy_endCommand (s : State) (e : ErrKind) (info : Nat) :
    (s.endCommand e info).busy = false := (statusOf_fields _ _ _).1

@[simp] theorem State.errCode_endCommand (s : State) (e : ErrKind) (info : Nat) :
    (s.endCommand e info).errCode = e.code := (statusOf_fields _ _ _).2.1

@[simp] theorem State.reservedBits_endCommand (s : State) (e : ErrKind) (info : Nat) :
    (s.endCommand e info).reservedBits = s.reservedBits := (statusOf_fields _ _ _).2.2

@[simp] theorem State.busy_setBusy (s : State) (b : Bool) : (s.setBusy b).busy = b :=
  (statusOf_fields _ _ _).1

@[simp] theorem State.errCode_setBusy (s : State) (b : Bool) : (s.setBusy b).errCode = s.errCode :=
  (statusOf_fields _ _ _).2.1

@[simp] theorem State.reservedBits_setBusy (s : State) (b : Bool) :
    (s.setBusy b).reservedBits = s.reservedBits := (statusOf_fields _ _ _).2.2

@[simp] theorem State.busy_withCmd (s : State) (c : BitVec 2) : (s.withCmd c).busy = s.busy := rfl
@[simp] theorem State.busy_withEng (s : State) (e : Engine) : (s.withEng e).busy = s.busy := rfl
@[simp] theorem State.busy_storeBv (s : State) (X : List Bit) : (s.storeBv X).busy = s.busy := rfl
@[simp] theorem State.busy_storeBy (s : State) (P : List Byte) : (s.storeBy P).busy = s.busy := rfl
@[simp] theorem State.reservedBits_withCmd (s : State) (c : BitVec 2) :
    (s.withCmd c).reservedBits = s.reservedBits := rfl
@[simp] theorem State.reservedBits_withEng (s : State) (e : Engine) :
    (s.withEng e).reservedBits = s.reservedBits := rfl
@[simp] theorem State.reservedBits_storeBv (s : State) (X : List Bit) :
    (s.storeBv X).reservedBits = s.reservedBits := rfl
@[simp] theorem State.reservedBits_storeBy (s : State) (P : List Byte) :
    (s.storeBy P).reservedBits = s.reservedBits := rfl

end Sys2Proof.Machine
end

