-- ==== Sys2Proof/Laws/Exec.lean ====
section
/-! SUPPORT. One lemma per shared operation of the machine: everything it can do. Later proofs cite these
instead of unfolding the operation. -/

namespace Sys2Proof.Machine

open Sys2Proof

variable {s t : State}

/-! ### Commands -/

/-- A command in the function form runs exactly when the block is idle, on the state with `CMD` written. -/
theorem issue_next (c : BitVec 2) (f : State → State) :
    issue c f s = .next t ↔ s.busy = false ∧ t = f (s.withCmd c) := by
  unfold issue
  cases h : s.busy <;> simp [eq_comm]

theorem issue_idle (c : BitVec 2) (f : State → State) (h : s.busy = false) :
    issue c f s = .next (f (s.withCmd c)) := (issue_next c f).mpr ⟨h, rfl⟩

theorem explodeEffect_cases (s : State) :
    (8 * s.byLen < s.argOff + s.argNbits ∧ explodeEffect s = s.endCommand .range 0) ∨
    (s.argOff + s.argNbits ≤ 8 * s.byLen ∧ s.params.maxBits < s.argNbits ∧
      explodeEffect s = s.endCommand .allocation 0) ∨
    (s.argOff + s.argNbits ≤ 8 * s.byLen ∧ s.argNbits ≤ s.params.maxBits ∧
      explodeEffect s = (s.storeBv (unpack s.byteBuffer s.argOff s.argNbits)).endCommand .none 0) := by
  by_cases h1 : 8 * s.byLen < s.argOff + s.argNbits
  · exact .inl ⟨h1, by simp [explodeEffect, State.explodeOutOfRange, h1, State.raise_eq]⟩
  · by_cases h2 : s.params.maxBits < s.argNbits
    · exact .inr (.inl ⟨by omega, h2, by simp [explodeEffect, State.explodeOutOfRange, h1, h2, State.raise_eq]⟩)
    · exact .inr (.inr ⟨by omega, by omega, by simp [explodeEffect, State.explodeOutOfRange, h1, h2]; rfl⟩)

theorem implodeEffect_cases (s : State) :
    (s.bvLen < s.argOff + s.argNbits ∧ implodeEffect s = s.endCommand .range 0) ∨
    (s.argOff + s.argNbits ≤ s.bvLen ∧ s.params.maxBytes < ceil8 s.argNbits ∧
      implodeEffect s = s.endCommand .allocation 0) ∨
    (s.argOff + s.argNbits ≤ s.bvLen ∧ ceil8 s.argNbits ≤ s.params.maxBytes ∧
      implodeEffect s =
        (s.storeBy (pack ((s.bitVector.drop s.argOff).take s.argNbits))).endCommand .none 0) := by
  by_cases h1 : s.bvLen < s.argOff + s.argNbits
  · exact .inl ⟨h1, by simp [implodeEffect, State.implodeOutOfRange, h1, State.raise_eq]⟩
  · by_cases h2 : s.params.maxBytes < ceil8 s.argNbits
    · exact .inr (.inl ⟨by omega, h2, by simp [implodeEffect, State.implodeOutOfRange, h1, h2, State.raise_eq]⟩)
    · exact .inr (.inr ⟨by omega, by omega, by simp [implodeEffect, State.implodeOutOfRange, h1, h2]; rfl⟩)

theorem rleEncEffect_cases (s : State) :
    (s.bvLen < s.argNbits ∧ rleEncEffect s = s.endCommand .range 0) ∨
    (s.argNbits ≤ s.bvLen ∧ s.params.maxBytes < sizeBound s.argNbits ∧
      rleEncEffect s = s.endCommand .allocation 0) ∨
    (s.argNbits ≤ s.bvLen ∧ sizeBound s.argNbits ≤ s.params.maxBytes ∧
      rleEncEffect s = (s.storeBy (enc (s.bitVector.take s.argNbits))).endCommand .none 0) := by
  by_cases h1 : s.bvLen < s.argNbits
  · exact .inl ⟨h1, by simp [rleEncEffect, State.encodeOutOfRange, h1, State.raise_eq]⟩
  · by_cases h2 : s.params.maxBytes < sizeBound s.argNbits
    · exact .inr (.inl ⟨by omega, h2, by simp [rleEncEffect, State.encodeOutOfRange, h1, h2, State.raise_eq]⟩)
    · exact .inr (.inr ⟨by omega, by omega, by simp [rleEncEffect, State.encodeOutOfRange, h1, h2]; rfl⟩)

theorem rleDecEffect_cases (s : State) :
    (∃ q, dec s.byteBuffer = .error q ∧ rleDecEffect s = s.endCommand .malformed q) ∨
    (∃ D, dec s.byteBuffer = .ok D ∧ s.params.maxBits < D.length ∧
      rleDecEffect s = s.endCommand .allocation 0) ∨
    (∃ D, dec s.byteBuffer = .ok D ∧ D.length ≤ s.params.maxBits ∧
      rleDecEffect s = (s.storeBv D).endCommand .none 0) := by
  have hs : s.decodeSource = s.byteBuffer := rfl
  unfold rleDecEffect
  rw [hs]
  cases h : dec s.byteBuffer with
  | error q => exact .inl ⟨q, rfl, rfl⟩
  | ok D =>
    by_cases hD : s.params.maxBits < D.length
    · exact .inr (.inl ⟨D, rfl, hD, by simp [hD]; rfl⟩)
    · exact .inr (.inr ⟨D, rfl, by omega, by simp [hD]; rfl⟩)

/-! ### Tokens -/

theorem applyToken_size (bits : List Bit) (stride : Nat) (h : s.eng.decPass = .size) :
    applyToken bits stride s = .next (s.withEng { s.eng with
      decTotal := s.eng.decTotal + bits.length, tokPc := s.eng.tokPc + stride }) := by
  simp [applyToken, h]

theorem applyToken_materialise (bits : List Bit) (stride : Nat) (h : s.eng.decPass = .materialise)
    (hc : 0 < bits.length → s.eng.wrCur + bits.length ≤ s.params.maxBits) :
    applyToken bits stride s = .next ((s.writeBits s.eng.wrCur bits).withEng { s.eng with
      wrCur := s.eng.wrCur + bits.length, tokPc := s.eng.tokPc + stride }) := by
  simpa [applyToken, h] using hc

/-- Everything a token that answers a next state can have done. -/
theorem applyToken_next {bits : List Bit} {stride : Nat} (h : applyToken bits stride s = .next t) :
    (s.eng.decPass = .size ∧ t = s.withEng { s.eng with
      decTotal := s.eng.decTotal + bits.length, tokPc := s.eng.tokPc + stride }) ∨
    (s.eng.decPass = .materialise ∧ (0 < bits.length → s.eng.wrCur + bits.length ≤ s.params.maxBits) ∧
      t = (s.writeBits s.eng.wrCur bits).withEng { s.eng with
        wrCur := s.eng.wrCur + bits.length, tokPc := s.eng.tokPc + stride }) := by
  cases hp : s.eng.decPass with
  | size => rw [applyToken_size _ _ hp] at h; cases h; exact .inl ⟨rfl, by simp [hp]⟩
  | materialise =>
    by_cases hc : 0 < bits.length → s.eng.wrCur + bits.length ≤ s.params.maxBits
    · rw [applyToken_materialise _ _ hp hc] at h; cases h; exact .inr ⟨rfl, hc, by simp [hp]⟩
    · simp only [applyToken, hp] at h
      rw [if_pos (by omega)] at h
      cases h

/-! ### The turns of a step -/

/-- With nothing scheduled, the host acts while idle and the engine while a command runs (R247). -/
theorem step_unscheduled (h : s.host.schedule = []) :
    step s = if s.busy then engineStep s else hostTurn s := by
  unfold step takeTurn
  rw [h]
  cases hb : s.busy <;> simp [engineTurn, hb]

/-- The host's turn is its first move, on the state with that move used up. -/
theorem hostTurn_cons {m : HostMove} {ms : List HostMove} (h : s.host.moves = m :: ms) :
    hostTurn s = hostMove m { s with host := { s.host with moves := ms } } := by
  simp [hostTurn, h]

theorem hostTurn_nil (h : s.host.moves = []) : hostTurn s = .next s := by simp [hostTurn, h]

/-- A host write has its effect exactly while the block is idle and the condition holds. -/
theorem hostWrite_next {ok : Bool} {why : Refusal} {u : State} :
    hostWrite ok why u s = .next t ↔ s.busy = false ∧ ok = true ∧ t = u := by
  unfold hostWrite
  cases s.busy <;> cases ok <;> simp [eq_comm]

/-- Everything a step of the running decoder that answers a next state can be. -/
theorem decStep_next (h : decStep s = .next t) :
    (s.eng.tokPc < s.byLen ∧ ∃ i rest, decodeToken s.fetchToken = .ok (i, rest) ∧ exec i s = .next t) ∨
    (s.eng.tokPc < s.byLen ∧ (∃ e, decodeToken s.fetchToken = .error e) ∧ s.eng.decPass = .size ∧
      t = s.raise .malformed s.eng.tokPc) ∨
    (s.eng.tokPc = s.byLen ∧ s.eng.decPass = .size ∧ t = decTurn s) ∨
    (s.eng.tokPc = s.byLen ∧ s.eng.decPass = .materialise ∧ t = decFinal s) := by
  unfold decStep at h
  split at h
  · rename_i hlt
    cases hd : decodeToken s.fetchToken with
    | ok v => exact .inl ⟨hlt, v.1, v.2, rfl, by simpa [hd] using h⟩
    | error e =>
      refine .inr (.inl ⟨hlt, ⟨e, rfl⟩, ?_⟩)
      cases hp : s.eng.decPass <;> simp [hd, badToken, hp] at h
      exact ⟨rfl, h.symm⟩
  · split at h
    · rename_i heq
      cases hp : s.eng.decPass <;> simp [hp] at h
      · exact .inr (.inr (.inl ⟨heq, rfl, h.symm⟩))
      · exact .inr (.inr (.inr ⟨heq, rfl, h.symm⟩))
    · exact absurd h (by simp)

/-- Everything a step of the running encoder that answers a next state can be. -/
theorem encStep_next (h : encStep s = .next t) :
    (s.eng.rdPos < s.eng.encN ∧ t = encIteration s ∧ t.eng.wrPos ≤ t.params.maxBytes) ∨
    (s.eng.rdPos = s.eng.encN ∧ s.flushIfPending.eng.wrPos ≤ s.params.maxBytes ∧
      t = encFinal s.flushIfPending) := by
  unfold encStep withinBytes at h
  split at h
  · rename_i hlt
    split at h
    · simp at h
    · cases h; exact .inl ⟨hlt, rfl, Nat.not_lt.mp ‹_›⟩
  · split at h
    · rename_i heq
      split at h
      · simp at h
      · cases h; exact .inr ⟨heq, Nat.not_lt.mp ‹_›, rfl⟩
    · simp at h

end Sys2Proof.Machine
end

