-- ==== Sys2Proof/Laws/Packing.lean ====
section
/-! SUPPORT. The elements and lengths of PACK and UNPACK. -/

namespace Sys2Proof.Machine

open Sys2Proof

@[simp] theorem pack_length (X : List Bit) : (pack X).length = ceil8 X.length := by simp [pack]

@[simp] theorem pack_nil : pack [] = [] := rfl

@[simp] theorem unpack_length (P : List Byte) (off n : Nat) : (unpack P off n).length = n := by
  simp [unpack]

@[simp] theorem pack_getElem (X : List Bit) (j : Nat) (h : j < (pack X).length) :
    (pack X)[j] = packByte X j := by simp [pack]

@[simp] theorem unpack_getElem (P : List Byte) (off n i : Nat) (h : i < (unpack P off n).length) :
    (unpack P off n)[i] = packedBit P (off + i) := by simp [unpack]

/-- Eight bits shifted in from the first: bit `7 − k` is bit `k` of the eight. -/
theorem shiftConcat8 (f : Nat → Bit) (k : Nat) (h : k < 8) :
    ((List.range 8).foldl (fun b i => b.shiftConcat (f i)) (0#8 : Byte)).getLsbD (7 - k) = f k := by
  have h8 : List.range 8 = [0, 1, 2, 3, 4, 5, 6, 7] := rfl
  simp only [h8, List.foldl_cons, List.foldl_nil]
  interval_cases k <;> simp

/-- The bits of a packed byte (R11): bit `7 − k` is `X[8·j + k]`, or 0 beyond the end of `X`. -/
theorem packByte_bit (X : List Bit) (j k : Nat) (h : k < 8) :
    (packByte X j).getLsbD (7 - k) = X.getD (8 * j + k) false :=
  shiftConcat8 (fun i => X.getD (8 * j + i) false) k h

end Sys2Proof.Machine
end

