-- ==== Sys2Proof/Laws/PerInstr.lean ====
section
/-! SUPPORT. Statements about every instruction as syntax, one lemma per constructor. -/

namespace Sys2Proof.Laws.EncodedLength

open Sys2Proof

/-- A well-formed instruction's encoding is a command code, or a token of 1 to 34 bytes whose length is the
stride the decoder advances by (R70 to R73). -/
def Statement (i : Instr) : Prop :=
  WellFormed i = true →
    match encode i with
    | .cmd _ => i.isCommand = true
    | .token bytes =>
      i.isCommand = false ∧ 1 ≤ bytes.length ∧ bytes.length ≤ 34 ∧
        bytes.length = match i with
          | .verb sc _ => verbStride sc
          | _ => 1

theorem explode : Statement .explode := fun _ => rfl
theorem implode : Statement .implode := fun _ => rfl
theorem rleEnc : Statement .rleEnc := fun _ => rfl
theorem rleDec : Statement .rleDec := fun _ => rfl
theorem zrun : Statement .zrun := by intro _; simp [encode, Instr.isCommand]
theorem run0 (len : BitVec 7) : Statement (.run0 len) := by intro _; simp [encode, Instr.isCommand]
theorem run1 (len : BitVec 7) : Statement (.run1 len) := by intro _; simp [encode, Instr.isCommand]

theorem verb (sc : Byte) (payload : List Byte) : Statement (.verb sc payload) := by
  intro h
  have hl : payload.length = ceil8 (verbCount sc) := by simpa [WellFormed] using h
  have hsc : verbCount sc ≤ 256 := by
    have := sc.isLt
    simp only [verbCount]; omega
  have hc : ceil8 (verbCount sc) = (verbCount sc + 7) / 8 := rfl
  have hlen : (0x80#8 :: sc :: payload).length = payload.length + 2 := rfl
  refine ⟨rfl, ?_, ?_, ?_⟩
  · omega
  · omega
  · simp only [verbStride]; omega

end Sys2Proof.Laws.EncodedLength
end

