-- ==== Sys2Proof/Tests/Slice0.lean ====
section
/-! SUPPORT. Small tests: the refusals of WellFormed, words written out from the spec's encodings, one step of each
instruction on vectors of spec/95_test_vectors.md, and a state that meets the hypotheses of each obligation. -/

namespace Sys2Proof.Tests

open Sys2Proof Sys2Proof.Machine

/-! ### Helpers -/

/-- A bit sequence from its text. -/
def bits (t : String) : List Bit := t.toList.map (· == '1')

/-- A byte sequence from numbers. -/
def bytes (l : List Nat) : List Byte := l.map (BitVec.ofNat 8)

/-- An idle block that holds the vector `X`, the buffer `P` and the arguments `off` and `n`. -/
def idle (X : List Bit) (P : List Byte) (off n : Nat) : State :=
  { (State.reset.storeBv X).storeBy P with argOff := off, argNbits := n }

/-- The same with small capacities. -/
def small (maxBits maxBytes : Nat) (s : State) : State :=
  { s with params := { s.params with maxBits := maxBits, maxBytes := maxBytes } }

/-- The same with RLE_DEC running, `TOK_PC`, `WR_CUR` and `DEC_PASS` given. -/
def decoding (pass : DecPass) (pc wr : Nat) (s : State) : State :=
  { s with
    status := 0x01#8, cmd := 3#2
    eng := { s.eng with tokPc := pc, wrCur := wr, decPass := pass } }

/-- The same with the host's moves given. -/
def withMoves (ms : List HostMove) (s : State) : State := { s with host := { s.host with moves := ms } }

/-- The same with the command grain `machine`. -/
def machineGrain (s : State) : State := { s with grain := .machine }

/-- Whether an outcome is a next state with a property. -/
def onNext (o : Host.Outcome State Fault Refusal) (p : State → Bool) : Bool :=
  match o with
  | .next t => p t
  | .fault _ => false
  | .refused _ => false

/-- Whether an outcome is this refusal. -/
def isRefusal (o : Host.Outcome State Fault Refusal) (r : Refusal) : Bool :=
  match o with
  | .next _ => false
  | .fault _ => false
  | .refused r' => r' == r

/-! ### WellFormed refuses each ill-formed term -/

theorem test_wf_run0_zero : WellFormed (.run0 0#7) = false := by decide
theorem test_wf_run1_zero : WellFormed (.run1 0#7) = false := by decide
theorem test_wf_verb_short : WellFormed (.verb 8#8 [0xFF#8]) = false := by decide
theorem test_wf_verb_long : WellFormed (.verb 7#8 [0xFF#8, 0#8]) = false := by decide
theorem test_wf_verb : WellFormed (.verb 8#8 [0xFF#8, 0x80#8]) = true := by decide

/-! ### Words from the spec's encodings (R71, R72, R75, R80; V-K1 to V-K10) -/

theorem test_decode_explode : decode (.cmd 0b00#2) = .ok (.explode, []) := by decide
theorem test_decode_implode : decode (.cmd 0b01#2) = .ok (.implode, []) := by decide
theorem test_decode_rle_enc : decode (.cmd 0b10#2) = .ok (.rleEnc, []) := by decide
theorem test_decode_rle_dec : decode (.cmd 0b11#2) = .ok (.rleDec, []) := by decide
theorem test_decode_run0 : decodeToken [0b00001001#8] = .ok (.run0 9#7, []) := by decide
theorem test_decode_run0_longest : decodeToken [0b01111111#8] = .ok (.run0 127#7, []) := by decide
theorem test_decode_run1 : decodeToken [0b10000001#8] = .ok (.run1 1#7, []) := by decide
theorem test_decode_run1_longest : decodeToken [0b11111111#8, 3#8] = .ok (.run1 127#7, [3#8]) := by decide
theorem test_decode_zrun : decodeToken [0b00000000#8, 9#8] = .ok (.zrun, [9#8]) := by decide
theorem test_decode_verb :
    decodeToken [0b10000000#8, 0b00000111#8, 0b01110101#8] = .ok (.verb 7#8 [0x75#8], []) := by decide
theorem test_decode_verb_sentinel_bytes :
    decodeToken (bytes [0x80, 0x0F, 0x80, 0x80]) = .ok (.verb 15#8 [0x80#8, 0x80#8], []) := by decide
theorem test_decode_verb_no_count : decodeToken [0x80#8] = .error .noCountByte := by decide
theorem test_decode_verb_short : decodeToken (bytes [0x80, 8, 0xFF]) = .error .payloadTruncated := by decide
theorem test_decode_nothing : decodeToken [] = .error .noByte := by decide

/-! ### The interface's words -/

theorem test_table_command : decodeTableWord 8 2 = some .rleEnc := by decide
theorem test_table_verb : decodeTableWord 8 0x80 = some (.verb 0#8 [0#8]) := by decide
theorem test_table_run1 : decodeTableWord 8 0x8C = some (.run1 12#7) := by decide
theorem test_table_two_bytes : decodeTableWord 16 0x0900 = some .zrun := by decide

theorem test_fetch_command : onNext (step (State.reset.withFetchWord 8 3)) (fun t => t.cmd == 3#2 && t.busy == false)
    = true := by decide
theorem test_fetch_run0 : onNext (step (State.reset.withFetchWord 8 9))
    (fun t => t.eng.decTotal == 9 && t.eng.tokPc == 1) = true := by decide
theorem test_fetch_verb : onNext (step (State.reset.withFetchWord 8 0x80))
    (fun t => t.eng.decTotal == 1 && t.eng.tokPc == 3) = true := by decide

/-! ### The commands (95_test_vectors.md) -/

/-- V-X3: the bits straddle the byte boundary. -/
theorem test_explode_straddles : onNext (exec .explode (idle [] (bytes [0xA5, 0x3C]) 7 9))
    (fun t => t.bitVector == bits "100111100" && t.status == 0#8) = true := by decide
/-- V-X16: RANGE before ALLOCATION; the vector unchanged. -/
theorem test_explode_range_first : onNext (exec .explode (small 8 100 (idle (bits "101") (bytes [0xA5, 0x3C]) 8 9)))
    (fun t => t.status == 0x08#8 && t.bitVector == bits "101") = true := by decide
/-- V-I9: an offset in the source, padding in the result. -/
theorem test_implode_offset : onNext (exec .implode (idle (bits "1010010100111100") [] 4 12))
    (fun t => t.byteBuffer == bytes [0x53, 0xC0] && t.status == 0#8) = true := by decide
/-- V-I15: ALLOCATION. -/
theorem test_implode_allocation : onNext (exec .implode (small 100 1 (idle (bits "111111111") [] 0 9)))
    (fun t => t.status == 0x06#8 && t.byLen == 0) = true := by decide
/-- V-E18: neighbours join the runs. -/
theorem test_rle_enc_joins : onNext (exec .rleEnc (idle (bits "00000000001110101111111111111") [] 0 29))
    (fun t => t.byteBuffer == bytes [0x0A, 0x80, 0x05, 0xE8, 0x8D]) = true := by decide
/-- V-E4: a run of 8 does not qualify. -/
theorem test_rle_enc_eight : onNext (exec .rleEnc (idle (bits "00000000") [] 5 8))
    (fun t => t.byteBuffer == bytes [0x80, 0x07, 0x00] && t.status == 0#8) = true := by decide
/-- V-D23: short runs and a ZRUN. -/
theorem test_rle_dec_zrun : onNext (exec .rleDec (idle [] (bytes [0x05, 0x83, 0x00, 0x02]) 0 0))
    (fun t => t.bitVector == bits "0000011100" && t.status == 0#8) = true := by decide
/-- V-D21: MALFORMED at offset 5, nothing else changed. -/
theorem test_rle_dec_malformed :
    onNext (exec .rleDec (idle (bits "101") (bytes [0x09, 0x80, 0x07, 0x75, 0x8C, 0x80]) 0 0))
      (fun t => t.status == 0x04#8 && t.errInfo == 5 && t.bitVector == bits "101") = true := by decide

/-! ### The tokens -/

/-- R166: pass 2 writes zeros over ones and leaves the next cell. -/
theorem test_run0_writes : onNext (exec (.run0 2#7) (decoding .materialise 0 1 (idle (bits "1111") (bytes [2]) 0 0)))
    (fun t => t.bitVector == bits "1001" && t.eng.wrCur == 3 && t.eng.tokPc == 1) = true := by decide
/-- R167: pass 1 counts and writes nothing. -/
theorem test_run1_counts : onNext (exec (.run1 12#7) (decoding .size 4 0 (idle [] (bytes [0, 0, 0, 0, 0x8C]) 0 0)))
    (fun t => t.eng.decTotal == 12 && t.eng.tokPc == 5 && t.eng.wrCur == 0) = true := by decide
/-- R168: the payload's bits, most significant first. -/
theorem test_verb_writes :
    onNext (exec (.verb 7#8 [0x75#8]) (decoding .materialise 0 0 (idle (bits "00000000") (bytes [0x80, 7, 0x75]) 0 0)))
      (fun t => t.bitVector == bits "01110101" && t.eng.tokPc == 3) = true := by decide
/-- R169: ZRUN writes no cell. -/
theorem test_zrun_writes_nothing : onNext (exec .zrun (decoding .materialise 0 0 (idle (bits "11") (bytes [0]) 0 0)))
    (fun t => t.bitVector == bits "11" && t.eng.wrCur == 0 && t.eng.tokPc == 1) = true := by decide

/-! ### The machine forms and the host port -/

/-- The running encoder measures a run of nine and emits one byte (R133). -/
theorem test_encoder_step :
    onNext (encStep { (idle (bits "111111111") [] 0 9) with
      status := 0x01#8, cmd := 2#2, eng := { Engine.zero with encN := 9 } })
      (fun t => t.byte 0 == 0x89#8 && t.eng.rdPos == 9 && t.eng.wrPos == 1) = true := by decide
/-- The turn step (R170). -/
theorem test_decoder_turn : onNext (step (decoding .size 1 0 (idle [] (bytes [9]) 0 0)))
    (fun t => t.eng.decPass == .materialise && t.eng.tokPc == 0 && t.busy) = true := by decide
/-- A read of a cell at `BV_LEN` is refused (U1). -/
theorem test_read_beyond : isRefusal (step (withMoves [.read (.bit 3)] (idle (bits "101") [] 0 0))) .indexBeyondLength
    = true := by decide
/-- A write of a cell (R38). -/
theorem test_write_bit : onNext (step (withMoves [.writeBit 1 true] (idle (bits "101") [] 0 0)))
    (fun t => t.bitVector == bits "111" && t.host.moves == []) = true := by decide

/-! ### Container operations (V-A9, V-A10, V-A13, V-A8) -/

theorem test_append : vecAppend (bits "00000") 2 (.other (bits "11")) none = .ok (bits "00110") := by decide
theorem test_append_capacity : vecAppend (bits "00000") 4 (.other (bits "11")) (some 2) = .error .capacity := by decide
/-- R200, U10: one vector, overlapping ranges; and ranges that only touch. -/
theorem test_append_self : vecAppend (bits "101") 1 .self (some 2) = .error .noMeaning ∧
    vecAppend (bits "1000") 2 .self (some 2) = .ok (bits "1010") := by decide
theorem test_compare : vecCompare (bits "11") (bits "000") = -1 := by decide
theorem test_reverse : vecReverse (bits "110") = bits "011" := by decide

/-! ### A state and operands that meet the hypotheses of each obligation, each clause, at the edges of its range -/

theorem witness_DecodeInvertsEncode :
    WellFormed .rleDec = true ∧ encode .rleDec = .cmd 3#2 ∧
      WellFormed (.run0 127#7) = true ∧ encode (.run0 127#7) = .token [0x7F#8] ∧
      WellFormed (.verb 255#8 (List.replicate 32 0x55#8)) = true ∧
      encode (.verb 255#8 (List.replicate 32 0x55#8)) = .token (0x80#8 :: 0xFF#8 :: List.replicate 32 0x55#8) := by
  decide

theorem witness_EncodeInvertsDecode :
    decodeToken (bytes [0x80, 0x08, 0xFF, 0x80, 0x09]) = .ok (.verb 8#8 [0xFF#8, 0x80#8], [9#8]) := by decide

theorem witness_FirstByteSelectsTheKind :
    (0x00#8).toNat = 0 ∧ 1 ≤ (0x01#8).toNat ∧ (0x7F#8).toNat ≤ 0x7F ∧ (0x80#8).toNat = 0x80 ∧
      [0x75#8].length = ceil8 (verbCount 7#8) ∧ 0x81 ≤ (0x81#8).toNat ∧ 0x81 ≤ (0xFF#8).toNat := by decide

theorem witness_StrideFromFirstBytes :
    (0x81#8 ≠ 128#8 ∧ 2 + ceil8 ((255#8).toNat + 1) = (128#8 :: 255#8 :: List.replicate 32 128#8).length) ∧
      ∃ v, decodeToken (128#8 :: 0#8 :: [0xFF#8]) = .ok v := ⟨by decide, _, rfl⟩

theorem witness_PackAndUnpackBitByBit :
    1 < ceil8 (bits "111111111").length ∧ 7 ≤ 7 ∧ 7 + 9 ≤ 8 * (bytes [0xA5, 0x3C]).length := by decide

theorem witness_PackAndUnpackOfJoins :
    (bits "01110101").length % 8 = 0 ∧ 3 + 7 + 6 ≤ 8 * (bytes [0xA5, 0x3C]).length := by decide

/-- One idle state for each clause: 17 > 16; 9 > 8 with 9 ≤ 16; 16 ≤ 16. -/
theorem witness_ExplodeOutcome :
    (let s := idle [] (bytes [0xA5, 0x3C]) 17 0
     s.busy = false ∧ 8 * s.byLen < s.argOff + s.argNbits) ∧
    (let s := small 8 100 (idle [] (bytes [0xA5, 0x3C]) 0 9)
     s.busy = false ∧ s.argOff + s.argNbits ≤ 8 * s.byLen ∧ s.params.maxBits < s.argNbits) ∧
    (let s := small 16 100 (idle [] (bytes [0xA5, 0x3C]) 0 16)
     s.busy = false ∧ s.argOff + s.argNbits ≤ 8 * s.byLen ∧ s.argNbits ≤ s.params.maxBits) := by decide

theorem witness_ImplodeOutcome :
    (let s := idle (bits "111111111") [] 1 9
     s.busy = false ∧ s.bvLen < s.argOff + s.argNbits) ∧
    (let s := small 100 1 (idle (bits "111111111") [] 0 9)
     s.busy = false ∧ s.argOff + s.argNbits ≤ s.bvLen ∧ s.params.maxBytes < ceil8 s.argNbits) ∧
    (let s := small 100 1 (idle (bits "111111111") [] 1 8)
     s.busy = false ∧ s.argOff + s.argNbits ≤ s.bvLen ∧ ceil8 s.argNbits ≤ s.params.maxBytes) := by decide

theorem witness_RleEncOutcome :
    (let s := idle (bits "101") [] 0 4
     s.busy = false ∧ s.bvLen < s.argNbits) ∧
    (let s := small 100 8 (idle (bits "00000000111111111") [] 0 17)
     s.busy = false ∧ s.argNbits ≤ s.bvLen ∧ s.params.maxBytes < sizeBound s.argNbits) ∧
    (let s := small 100 9 (idle (bits "00000000111111111") [] 0 17)
     s.busy = false ∧ s.argNbits ≤ s.bvLen ∧ sizeBound s.argNbits ≤ s.params.maxBytes) := by decide

theorem witness_RleDecOutcome :
    (let s := idle [] (bytes [0x09, 0x80]) 0 0
     s.busy = false ∧ dec s.byteBuffer = .error 1) ∧
    (let s := small 8 100 (idle [] (bytes [0x09]) 0 0)
     s.busy = false ∧ dec s.byteBuffer = .ok (bits "000000000") ∧ s.params.maxBits < (bits "000000000").length) ∧
    (let s := small 9 100 (idle [] (bytes [0x09]) 0 0)
     s.busy = false ∧ dec s.byteBuffer = .ok (bits "000000000") ∧
       (bits "000000000").length ≤ s.params.maxBits) := by decide

theorem witness_DecEquations :
    0x09#8 ≠ 128#8 ∧ ceil8 ((8#8).toNat + 1) ≤ (bytes [0xFF, 0x80]).length ∧
      (bytes [0xFF]).length < ceil8 ((8#8).toNat + 1) := by decide

theorem witness_MalformedExactly :
    (idle [] (bytes [0x09, 0x80]) 0 0).busy = false ∧ Reaches (bytes [0x09, 0x80]) 1 ∧
      Overshoots (bytes [0x09, 0x80]) 1 :=
  ⟨by decide, .run 0 .start (by decide) (by decide), by decide, by decide, .inl (by decide)⟩

theorem witness_CommandRefusedWhileBusy :
    Instr.isCommand .rleEnc = true ∧ (decoding .size 0 0 State.reset).busy = true := by decide

theorem witness_EncodeThenDecodeRestoresTheVector :
    let s := small 10 7 (idle (bits "1000000000") [] 0 10)
    s.busy = false ∧ s.bvLen ≤ s.params.maxBits ∧ s.argNbits = s.bvLen ∧ sizeBound s.bvLen ≤ s.params.maxBytes := by
  decide

/-- A run of 9 ended by the other value; a run cut at 127; a full token with a rest, before a run of nine and at the
end. -/
theorem witness_EncEquations :
    (9 ≤ 9 ∧ 9 ≤ 127 ∧ (bits "10").head? ≠ some false) ∧ (9 ≤ 127 ∧ 127 ≤ 127) ∧
    (let B := (List.replicate 128 (bits "01")).flatten
     (∀ X ∈ [B], X.length = 256) ∧ (bits "0").length < 256 ∧ ¬ HoldsNineEqual ([B].flatten ++ bits "0") ∧
       ∃ v more, bits "1111111110" = List.replicate 9 v ++ more ∧ ([B].flatten ++ bits "0").getLast? ≠ some v) := by
  exact ⟨by decide, by decide, by decide +kernel, by decide, by decide +kernel, true, [false], rfl, by decide +kernel⟩

theorem witness_AcceptedStreamsJoin :
    dec (bytes [0x80, 0x00, 0xFF]) = .ok (bits "1") ∧ dec (bytes [0x00, 0x02]) = .ok (bits "00") := by decide

theorem witness_DecodedLength :
    ∃ t, exec .rleDec (idle [] (bytes [0x05, 0x83, 0x00]) 0 0) = .next t ∧ t.errCode = ErrKind.none.code :=
  ⟨_, rfl, by decide⟩

theorem witness_RunLengthIsLargest :
    (2 : Nat) < 3 ∧ (1 : Nat) ≤ 127 ∧ (2 : Nat) + 1 ≤ 3 ∧ ∀ i, i < 1 → (fun _ => true : Nat → Bit) (2 + i) = true := by
  simp

theorem witness_EncodeOfNothing :
    let s := small 100 0 (idle (bits "101") [] 7 0)
    s.busy = false ∧ s.argNbits = 0 := by decide

theorem witness_PackingRoundTrips :
    (let s := small 16 2 (idle (bits "1010010100111100") [] 7 9)
     s.busy = false ∧ s.argOff + s.argNbits ≤ s.bvLen ∧ s.bvLen ≤ s.params.maxBits ∧
       ceil8 s.argNbits ≤ s.params.maxBytes) ∧
    (let s := small 16 2 (idle [] (bytes [0xA5, 0xFF]) 0 13)
     s.busy = false ∧ s.argOff = 0 ∧ s.argNbits ≤ 8 * s.byLen ∧ s.argNbits ≤ s.params.maxBits ∧
       s.byLen ≤ s.params.maxBytes) := by decide

/-- Both passes, the second with the last cell at the capacity. -/
theorem witness_Run0Effect :
    1#7 ≠ 0#7 ∧ 127#7 ≠ 0#7 ∧
    (decoding .size 0 0 State.reset).eng.decPass = .size ∧
    (let s := small 9 1 (decoding .materialise 0 8 State.reset)
     s.eng.decPass = .materialise ∧ s.eng.wrCur + (1#7).toNat ≤ s.params.maxBits) := by decide

theorem witness_Run1Effect :
    1#7 ≠ 0#7 ∧ 127#7 ≠ 0#7 ∧
    (decoding .size 0 0 State.reset).eng.decPass = .size ∧
    (let s := small 127 1 (decoding .materialise 0 0 State.reset)
     s.eng.decPass = .materialise ∧ s.eng.wrCur + (127#7).toNat ≤ s.params.maxBits) := by decide

theorem witness_ZrunEffect :
    dec (bytes [0x80, 0x00, 0xFF]) = .ok (bits "1") ∧ dec (bytes [0x00, 0x02]) = .ok (bits "00") ∧
    (decoding .size 0 0 State.reset).eng.decPass = .size ∧
    (decoding .materialise 0 9 State.reset).eng.decPass = .materialise := by decide

/-- A payload of the right length; an end one beyond `BY_LEN`; an end at it; a write up to the capacity. -/
theorem witness_VerbEffect :
    [0x75#8].length = ceil8 ((7#8).toNat + 1) ∧
    (let s := decoding .size 0 0 (idle [] (bytes [0x80, 7]) 0 0)
     s.eng.decPass = .size ∧ s.byLen < s.eng.tokPc + 2 + ceil8 ((7#8).toNat + 1)) ∧
    (let s := decoding .size 0 0 (idle [] (bytes [0x80, 7, 0x75]) 0 0)
     s.eng.decPass = .size ∧ s.eng.tokPc + 2 + ceil8 ((7#8).toNat + 1) ≤ s.byLen) ∧
    (let s := small 8 3 (decoding .materialise 0 0 (idle [] (bytes [0x80, 7, 0x75]) 0 0))
     s.eng.decPass = .materialise ∧ s.eng.wrCur + ((7#8).toNat + 1) ≤ s.params.maxBits) := by decide

theorem witness_TokenStops :
    (let s := small 8 3 (decoding .materialise 0 8 State.reset)
     1#7 ≠ 0#7 ∧ s.eng.decPass = .materialise ∧ s.params.maxBits < s.eng.wrCur + (1#7).toNat) ∧
    (let s := small 8 3 (decoding .materialise 0 1 State.reset)
     [0x75#8].length = ceil8 (verbCount 7#8) ∧ s.eng.decPass = .materialise ∧
       s.params.maxBits < s.eng.wrCur + verbCount 7#8) ∧
    [0x75#8].length ≠ ceil8 (verbCount 8#8) := by decide

theorem witness_StepRunsTheCommand :
    let s := withMoves [.writeCmd 2#2, .reset] State.reset
    s.busy = false ∧ s.grain = .command ∧ s.host.schedule = [] ∧ s.host.moves = .writeCmd 2#2 :: [.reset] := by decide

theorem witness_StepRunsTheToken :
    let s := decoding .size 1 0 (idle [] (bytes [0x09, 0x80, 7, 0x75]) 0 0)
    s.busy = true ∧ s.cmd = 3#2 ∧ s.host.schedule = [] ∧ WellFormed (.verb 7#8 [0x75#8]) = true ∧
      encode (.verb 7#8 [0x75#8]) = .token (bytes [0x80, 7, 0x75]) ∧
      bytes [0x80, 7, 0x75] <+: s.byteBuffer.drop s.eng.tokPc := by decide

theorem witness_StepAtAnOvershootingToken :
    (∀ pass : DecPass,
      let s := decoding pass 1 0 (idle [] (bytes [0x09, 0x80, 8, 0xFF]) 0 0)
      s.busy = true ∧ s.cmd = 3#2 ∧ s.host.schedule = [] ∧ Overshoots s.byteBuffer s.eng.tokPc ∧
        s.eng.decPass = pass) := by
  intro pass
  cases pass <;> exact ⟨by decide, by decide, by decide, ⟨by decide, by decide, .inr (by decide)⟩, by decide⟩

/-- An idle state in the machine grain that meets the invariant, about to issue the command. -/
theorem witness_EncoderMachineMatchesFunction :
    let s := withMoves [.writeCmd 2#2] (machineGrain (idle (bits "0000000001") (bytes [0x09, 0x80, 0, 0x80]) 0 10))
    s.Inv ∧ s.busy = false ∧ s.grain = .machine ∧ s.host.schedule = [] ∧ s.host.moves = .writeCmd 2#2 :: [] :=
  ⟨by constructor <;> decide, by decide, rfl, rfl, rfl⟩

/-- An idle state in the machine grain that meets the invariant, about to issue the command. -/
theorem witness_DecoderMachineMatchesFunction :
    let s := withMoves [.writeCmd 3#2] (machineGrain (idle (bits "0000000001") (bytes [0x09, 0x80, 0, 0x80]) 0 10))
    s.Inv ∧ s.busy = false ∧ s.grain = .machine ∧ s.host.schedule = [] ∧ s.host.moves = .writeCmd 3#2 :: [] :=
  ⟨by constructor <;> decide, by decide, rfl, rfl, rfl⟩

theorem witness_StartSetsBusy :
    (let s := withMoves [.writeCmd 2#2] (machineGrain (idle (bits "101") [] 0 3))
     s.busy = false ∧ s.grain = .machine ∧ s.host.schedule = [] ∧ s.host.moves = .writeCmd 2#2 :: [] ∧
       s.argNbits ≤ s.bvLen ∧ sizeBound s.argNbits ≤ s.params.maxBytes) ∧
    (let s := withMoves [.writeCmd 1#2] (machineGrain (idle (bits "101") [] 0 3))
     s.busy = false ∧ s.grain = .machine ∧ s.host.schedule = [] ∧ s.host.moves = .writeCmd 1#2 :: [] ∧
       (1#2 : BitVec 2) ≠ 2#2) := by decide

theorem witness_IdleBlockWaits :
    (State.reset.busy = false ∧ State.reset.host.schedule = [] ∧ State.reset.host.moves = []) ∧
    (let s := { State.reset with host := { moves := [.reset], schedule := [.engine, .host], readData := 0 } }
     s.busy = false ∧ s.host.schedule = .engine :: [.host]) := by decide

/-- Reset while a command runs, and while idle. -/
theorem witness_ResetAtAnyTime :
    (let s := { decoding .size 0 0 State.reset with host := { moves := [.reset], schedule := [.host], readData := 0 } }
     s.busy = true ∧ HostMovesNext .reset [] s) ∧
    HostMovesNext .reset [] (withMoves [.reset] State.reset) :=
  ⟨⟨by decide, rfl, .inr ⟨[], rfl⟩⟩, rfl, .inl ⟨rfl, by decide⟩⟩

/-- A running decoder that meets the invariant and steps. -/
theorem witness_StepKeepsInv :
    ∃ t, (decoding .size 0 0 (idle [] (bytes [9]) 0 0)).Inv ∧ step (decoding .size 0 0 (idle [] (bytes [9]) 0 0)) = .next t :=
  ⟨_, by constructor <;> decide, rfl⟩

theorem witness_StepKeepsParams : ∃ t, step (withMoves [.writeByLen 3] State.reset) = .next t := ⟨_, rfl⟩

theorem witness_ErrorsByCommand :
    (∃ t, exec .explode State.reset = .next t) ∧ (∃ t, exec .implode State.reset = .next t) ∧
      (∃ t, exec .rleEnc State.reset = .next t) ∧ (∃ t, exec .rleDec State.reset = .next t) ∧
      ∃ t, (Instr.verb 0#8 [0#8]).isCommand = false ∧
        exec (.verb 0#8 [0#8]) (decoding .size 0 0 (idle [] (bytes [0x80]) 0 0)) = .next t ∧
        t.status ≠ (decoding .size 0 0 (idle [] (bytes [0x80]) 0 0)).status :=
  ⟨⟨_, rfl⟩, ⟨_, rfl⟩, ⟨_, rfl⟩, ⟨_, rfl⟩, _, rfl, rfl, by decide⟩

theorem witness_FailedCommandChangesNothing :
    ∃ t, Instr.isCommand .rleDec = true ∧ exec .rleDec (idle [] (bytes [0x80]) 0 0) = .next t ∧
      t.errCode ≠ ErrKind.none.code := ⟨_, rfl, rfl, by decide⟩

/-- Two idle states that differ in the last error, in `CMD`, in an internal register and above the lengths. -/
theorem witness_CommandSeesOnlyItsInputs :
    let s := idle (bits "101") (bytes [9]) 0 3
    let s' := { s.writeBits 5 [true] with status := 0x04#8, errInfo := 7, cmd := 3#2, eng := { s.eng with rdPos := 2 } }
    (∃ t t', exec .rleEnc s = .next t ∧ exec .rleEnc s' = .next t') ∧ s.params = s'.params ∧
      s.bitVector = s'.bitVector ∧ s.byteBuffer = s'.byteBuffer ∧ s.argOff = s'.argOff ∧
      s.argNbits = s'.argNbits ∧ s.reservedBits = s'.reservedBits :=
  ⟨⟨_, _, rfl, rfl⟩, rfl, by decide, by decide, rfl, rfl, by decide⟩

/-- EXPLODE, IMPLODE, RLE_ENC and RLE_DEC running, each with a next state. -/
theorem witness_EngineLeavesItsSourceAlone :
    ∀ c ∈ [0#2, 1#2, 2#2, 3#2],
      let s := { decoding .size 0 0 (idle (bits "1") (bytes [9]) 0 1) with cmd := c }
      EngineRuns s ∧ ∃ t, step s = .next t := by
  intro c hc
  simp only [List.mem_cons, List.not_mem_nil, or_false] at hc
  rcases hc with rfl | rfl | rfl | rfl <;> exact ⟨⟨by decide, .inl rfl⟩, _, rfl⟩

theorem witness_TokPcMovesForward :
    let s := decoding .size 0 0 (idle [] (bytes [9]) 0 0)
    ∃ t, s.Inv ∧ EngineRuns s ∧ s.cmd = 3#2 ∧ step s = .next t ∧ t.busy = true :=
  ⟨_, by constructor <;> decide, ⟨by decide, .inl rfl⟩, rfl, rfl, by decide⟩

theorem witness_CapacityNeverProduced :
    ∃ t, State.reset.errCode ≠ ErrKind.capacity.code ∧ step (withMoves [.writeCmd 0#2] State.reset) = .next t :=
  ⟨_, by decide, rfl⟩

theorem witness_HostWritesWhileIdle :
    (let s := withMoves [.writeBit 2 true] (idle (bits "100") [] 0 0)
     s.busy = false ∧ HostMovesNext (.writeBit 2 true) [] s ∧ 2 < s.bvLen) ∧
    (let s := withMoves [.writeBit 3 true] (idle (bits "100") [] 0 0)
     s.busy = false ∧ HostMovesNext (.writeBit 3 true) [] s ∧ s.bvLen ≤ 3) ∧
    (let s := withMoves [.writeByte 0 7#8] (idle [] (bytes [9]) 0 0)
     s.busy = false ∧ HostMovesNext (.writeByte 0 7#8) [] s ∧ 0 < s.byLen) ∧
    (let s := withMoves [.writeByte 1 7#8] (idle [] (bytes [9]) 0 0)
     s.busy = false ∧ HostMovesNext (.writeByte 1 7#8) [] s ∧ s.byLen ≤ 1) ∧
    (let s := withMoves [.writeArgOff 4194303] State.reset
     s.busy = false ∧ HostMovesNext (.writeArgOff 4194303) [] s ∧ 4194303 < 2 ^ s.params.lenW) ∧
    (let s := withMoves [.writeArgOff 4194304] State.reset
     s.busy = false ∧ HostMovesNext (.writeArgOff 4194304) [] s ∧ 2 ^ s.params.lenW ≤ 4194304) ∧
    (let s := withMoves [.writeArgNbits 4194303] State.reset
     s.busy = false ∧ HostMovesNext (.writeArgNbits 4194303) [] s ∧ 4194303 < 2 ^ s.params.lenW) ∧
    (let s := withMoves [.writeArgNbits 4194304] State.reset
     s.busy = false ∧ HostMovesNext (.writeArgNbits 4194304) [] s ∧ 2 ^ s.params.lenW ≤ 4194304) :=
  ⟨⟨by decide, ⟨rfl, .inl ⟨rfl, by decide⟩⟩, by decide⟩,
    ⟨by decide, ⟨rfl, .inl ⟨rfl, by decide⟩⟩, by decide⟩,
    ⟨by decide, ⟨rfl, .inl ⟨rfl, by decide⟩⟩, by decide⟩,
    ⟨by decide, ⟨rfl, .inl ⟨rfl, by decide⟩⟩, by decide⟩,
    ⟨by decide, ⟨rfl, .inl ⟨rfl, by decide⟩⟩, by decide⟩,
    ⟨by decide, ⟨rfl, .inl ⟨rfl, by decide⟩⟩, by decide⟩,
    ⟨by decide, ⟨rfl, .inl ⟨rfl, by decide⟩⟩, by decide⟩,
    ⟨by decide, ⟨rfl, .inl ⟨rfl, by decide⟩⟩, by decide⟩⟩

theorem witness_HostWritesLengths :
    (let s := withMoves [.writeBvLen 65536] (idle (bits "1") [] 0 0)
     s.busy = false ∧ HostMovesNext (.writeBvLen 65536) [] s ∧ 65536 ≤ s.params.maxBits) ∧
    (let s := withMoves [.writeBvLen 65537] (idle (bits "1") [] 0 0)
     s.busy = false ∧ HostMovesNext (.writeBvLen 65537) [] s ∧ s.params.maxBits < 65537) ∧
    (let s := withMoves [.writeByLen 32768] State.reset
     s.busy = false ∧ HostMovesNext (.writeByLen 32768) [] s ∧ 32768 ≤ s.params.maxBytes) ∧
    (let s := withMoves [.writeByLen 32769] State.reset
     s.busy = false ∧ HostMovesNext (.writeByLen 32769) [] s ∧ s.params.maxBytes < 32769) :=
  ⟨⟨by decide, ⟨rfl, .inl ⟨rfl, by decide⟩⟩, by decide⟩,
    ⟨by decide, ⟨rfl, .inl ⟨rfl, by decide⟩⟩, by decide⟩,
    ⟨by decide, ⟨rfl, .inl ⟨rfl, by decide⟩⟩, by decide⟩,
    ⟨by decide, ⟨rfl, .inl ⟨rfl, by decide⟩⟩, by decide⟩⟩

theorem witness_HostReadsWhileIdle :
    (let s := withMoves [.read (.bit 2)] (idle (bits "101") [] 0 0)
     s.busy = false ∧ HostMovesNext (.read (.bit 2)) [] s ∧ 2 < s.bvLen) ∧
    (let s := withMoves [.read (.byte 1)] (idle [] (bytes [9, 1]) 0 0)
     s.busy = false ∧ HostMovesNext (.read (.byte 1)) [] s ∧ 1 < s.byLen) ∧
    (let s := withMoves [.read .errInfo] State.reset
     s.busy = false ∧ HostMovesNext (.read .errInfo) [] s ∧ True) ∧
    (let s := withMoves [.read (.bit 3)] (idle (bits "101") [] 0 0)
     s.busy = false ∧ HostMovesNext (.read (.bit 3)) [] s ∧ s.bvLen ≤ 3) ∧
    (let s := withMoves [.read (.byte 2)] (idle [] (bytes [9, 1]) 0 0)
     s.busy = false ∧ HostMovesNext (.read (.byte 2)) [] s ∧ s.byLen ≤ 2) :=
  ⟨⟨by decide, ⟨rfl, .inl ⟨rfl, by decide⟩⟩, by decide⟩,
    ⟨by decide, ⟨rfl, .inl ⟨rfl, by decide⟩⟩, by decide⟩,
    ⟨by decide, ⟨rfl, .inl ⟨rfl, by decide⟩⟩, by decide⟩,
    ⟨by decide, ⟨rfl, .inl ⟨rfl, by decide⟩⟩, by decide⟩,
    ⟨by decide, ⟨rfl, .inl ⟨rfl, by decide⟩⟩, by decide⟩⟩

/-- A read of STATUS, and a write of CMD, while a command runs and the schedule gives the host the turn. -/
theorem witness_HostWhileBusy :
    ∀ m ∈ [HostMove.read .status, .writeCmd 0#2],
      let s := { decoding .size 0 0 State.reset with host := { moves := [m], schedule := [.host], readData := 0 } }
      s.busy = true ∧ HostMovesNext m [] s := by
  intro m hm
  simp only [List.mem_cons, List.not_mem_nil, or_false] at hm
  rcases hm with rfl | rfl <;> exact ⟨by decide, rfl, .inr ⟨[], rfl⟩⟩

theorem witness_HostLoadsAnyVectorAndBuffer :
    (let s := withMoves (loadVector (bits "101")) State.reset
     s.busy = false ∧ s.host.schedule = [] ∧ (bits "101").length ≤ s.params.maxBits ∧
       s.host.moves = loadVector (bits "101") ++ []) ∧
    (let s := withMoves (loadBuffer (bytes [9, 1])) State.reset
     s.busy = false ∧ s.host.schedule = [] ∧ (bytes [9, 1]).length ≤ s.params.maxBytes ∧
       s.host.moves = loadBuffer (bytes [9, 1]) ++ []) := by decide

theorem witness_ContainerBasics :
    3 ≤ 3 ∧ 3 < 4 ∧ 2 < (bits "101").length ∧ (bits "101").length ≤ 3 := by decide

theorem witness_AppendOverwritesInPlace :
    3 + 2 ≤ (bits "00000").length ∧ 2 ≤ (bits "11").length ∧ (bits "1").length < 2 ∧
      (2 ≤ 2 ∧ 2 + 2 ≤ (bits "1000").length) ∧ 1 + 2 ≤ (bits "101").length ∧
      ∃ i j : Nat, i < 2 ∧ j < 2 ∧ i = 1 + j :=
  ⟨by decide, by decide, by decide, by decide, by decide, 1, 0, by decide, by decide, rfl⟩

theorem witness_CompareIsLengthThenBits :
    (bits "11").length < (bits "000").length ∧ (bits "0101").length = (bits "0110").length ∧
      (∀ j, j < 2 → (bits "0101")[j]? = (bits "0110")[j]?) ∧ (bits "0101")[2]? = some false ∧
      (bits "0110")[2]? = some true := by decide

theorem witness_ReverseResizeSlice :
    2 < (bits "110").length ∧ 5 ≤ 5 ∧ 5 < 6 ∧ 1 + 2 ≤ (bits "110").length ∧ (bits "110").length < 2 + 2 := by decide

end Sys2Proof.Tests
end

section
/-! PROOFS. PACK and UNPACK: a packed bit is a bit of the sequence, and how both act on joined sequences. -/

namespace Sys2Proof.Machine

open Sys2Proof

/-- The packed bit `8·j + k` stands in byte `j`, at bit `7 − k` (R52). -/
theorem packedBit_eight_mul_add (P : List Byte) (j : Nat) {k : Nat} (hk : k < 8) :
    packedBit P (8 * j + k) = (P.getD j 0#8).getLsbD (7 - k) := by
  have hbyte : (8 * j + k) / 8 = j := by omega
  have hplace : (8 * j + k) % 8 = k := by omega
  rw [packedBit, hbyte, hplace]

/-- Every packed bit of `PACK(X)` is the bit of `X` with the same index, or 0 beyond the end of `X` (R11). -/
theorem packedBit_pack (X : List Bit) (i : Nat) : packedBit (pack X) i = X.getD i false := by
  have hi : 8 * (i / 8) + i % 8 = i := Nat.div_add_mod i 8
  have hk : i % 8 < 8 := Nat.mod_lt i (by decide)
  by_cases hj : i / 8 < ceil8 X.length
  · have hbyte : (pack X).getD (i / 8) 0#8 = packByte X (i / 8) := by simp [pack, hj]
    rw [packedBit, hbyte, packByte_bit X (i / 8) (i % 8) hk, hi]
  · have hout : X.length ≤ i := by
      unfold ceil8 at hj
      omega
    have hbyte : (pack X).getD (i / 8) 0#8 = 0#8 := List.getD_eq_default _ _ (by simpa using hj)
    rw [packedBit, hbyte, List.getD_eq_default _ _ hout]
    simp

/-- A packed byte is told by its eight bits. -/
theorem packByte_congr {X Y : List Bit} {i j : Nat}
    (h : ∀ k < 8, X.getD (8 * i + k) false = Y.getD (8 * j + k) false) : packByte X i = packByte Y j := by
  apply BitVec.eq_of_getLsbD_eq
  intro n hn
  have hplace : n = 7 - (7 - n) := by omega
  rw [hplace, packByte_bit X i (7 - n) (by omega), packByte_bit Y j (7 - n) (by omega)]
  exact h (7 - n) (by omega)

/-- Packing distributes over a join at a byte boundary (R121 (d)). -/
theorem pack_append {X : List Bit} (Y : List Bit) (hX : X.length % 8 = 0) :
    pack (X ++ Y) = pack X ++ pack Y := by
  obtain ⟨m, hm⟩ := Nat.dvd_of_mod_eq_zero hX
  have hlenX : ceil8 X.length = m := by
    unfold ceil8
    omega
  have hlen : ceil8 (X ++ Y).length = m + ceil8 Y.length := by
    rw [List.length_append]
    unfold ceil8
    omega
  have hleft : (List.range m).map (packByte (X ++ Y)) = pack X := by
    rw [pack, hlenX]
    refine List.map_congr_left fun j hj => packByte_congr fun k hk => ?_
    have hj : j < m := List.mem_range.mp hj
    exact List.getD_append X Y false _ (by omega)
  have hright : (List.range (ceil8 Y.length)).map (packByte (X ++ Y) ∘ (m + ·)) = pack Y := by
    refine List.map_congr_left fun j _ => packByte_congr (i := m + j) fun k _ => ?_
    rw [List.getD_append_right X Y false _ (by omega)]
    congr 1
    omega
  calc pack (X ++ Y)
      = (List.range m).map (packByte (X ++ Y)) ++
          (List.range (ceil8 Y.length)).map (packByte (X ++ Y) ∘ (m + ·)) := by
        rw [pack, hlen, List.range_add, List.map_append, List.map_map]
    _ = pack X ++ pack Y := by rw [hleft, hright]

/-- The inverse law of R12. -/
theorem unpack_pack (X : List Bit) : unpack (pack X) 0 X.length = X := by
  refine List.ext_getElem (unpack_length _ _ _) fun i _ hi => ?_
  rw [unpack_getElem, Nat.zero_add, packedBit_pack, List.getD_eq_getElem X false hi]

/-- Unpacking may be cut anywhere (R106). -/
theorem unpack_add (P : List Byte) (off n m : Nat) :
    unpack P off (n + m) = unpack P off n ++ unpack P (off + n) m := by
  simp [unpack, List.range_add, Nat.add_assoc]

/-- Inside the source, element `i` of `UNPACK(P, off, n)` is bit `7 − ((off + i) mod 8)` of byte
`(off + i) div 8` (R12). -/
theorem unpack_getElem? {P : List Byte} {off n i : Nat} (hi : i < n) (hP : off + n ≤ 8 * P.length) :
    (unpack P off n)[i]? = (P[(off + i) / 8]?).map fun b => b.getLsbD (7 - (off + i) % 8) := by
  have hbyte : (off + i) / 8 < P.length := by omega
  rw [List.getElem?_eq_getElem ((unpack_length P off n).symm ▸ hi), unpack_getElem,
    List.getElem?_eq_getElem hbyte, packedBit, List.getD_eq_getElem P 0#8 hbyte, Option.map_some]

/-- Settles O6, from the bits of a packed byte and of a packed sequence. -/
theorem packAndUnpackBitByBit : Obligations.PackAndUnpackBitByBit := by
  refine ⟨fun X => ⟨pack_length X, fun j k _ hk => ?_⟩, pack_nil, fun P off n hP =>
    ⟨unpack_length P off n, fun i hi => unpack_getElem? hi hP⟩⟩
  rw [← packedBit_eight_mul_add (pack X) j (by omega), packedBit_pack]
  split
  · next hin => exact List.getD_eq_getElem X false hin
  · next hout => exact List.getD_eq_default X false (Nat.le_of_not_lt hout)

/-- Settles O7: the inverse law, and packing and unpacking of joined sequences. -/
theorem packAndUnpackOfJoins : Obligations.PackAndUnpackOfJoins :=
  ⟨unpack_pack, fun _ Y hX => pack_append Y hX, fun P off n m _ => unpack_add P off n m, pack_length⟩

end Sys2Proof.Machine
end

section
/-! PROOFS. What is fixed for a run, the parameters (R8) and the grain (log 1): no operation of the machine
changes either. -/

namespace Sys2Proof.Machine

open Sys2Proof

/-- `t` has the parameters and the grain of `s`. -/
structure SameConfig (s t : State) : Prop where
  params : t.params = s.params
  grain  : t.grain = s.grain

section Operations

variable {s t u : State}

theorem SameConfig.trans (h : SameConfig s t) (h' : SameConfig t u) : SameConfig s u :=
  ⟨h'.params.trans h.params, h'.grain.trans h.grain⟩

theorem State.withCmd_sameConfig (s : State) (c : BitVec 2) : SameConfig s (s.withCmd c) := ⟨rfl, rfl⟩

/-! ### The commands in the function form -/

theorem explodeEffect_sameConfig (s : State) : SameConfig s (explodeEffect s) := by
  rcases explodeEffect_cases s with ⟨_, h⟩ | ⟨_, _, h⟩ | ⟨_, _, h⟩ <;> exact h ▸ ⟨rfl, rfl⟩

theorem implodeEffect_sameConfig (s : State) : SameConfig s (implodeEffect s) := by
  rcases implodeEffect_cases s with ⟨_, h⟩ | ⟨_, _, h⟩ | ⟨_, _, h⟩ <;> exact h ▸ ⟨rfl, rfl⟩

theorem rleEncEffect_sameConfig (s : State) : SameConfig s (rleEncEffect s) := by
  rcases rleEncEffect_cases s with ⟨_, h⟩ | ⟨_, _, h⟩ | ⟨_, _, h⟩ <;> exact h ▸ ⟨rfl, rfl⟩

theorem rleDecEffect_sameConfig (s : State) : SameConfig s (rleDecEffect s) := by
  rcases rleDecEffect_cases s with ⟨_, _, h⟩ | ⟨_, _, _, h⟩ | ⟨_, _, _, h⟩ <;> exact h ▸ ⟨rfl, rfl⟩

theorem issue_sameConfig {c : BitVec 2} {f : State → State} (hf : ∀ u, SameConfig u (f u))
    (h : issue c f s = .next t) : SameConfig s t := by
  obtain ⟨_, rfl⟩ := (issue_next c f).mp h
  exact (s.withCmd_sameConfig c).trans (hf (s.withCmd c))

/-! ### Tokens, and the meaning of every instruction -/

theorem applyToken_sameConfig {bits : List Bit} {stride : Nat} (h : applyToken bits stride s = .next t) :
    SameConfig s t := by
  rcases applyToken_next h with ⟨_, rfl⟩ | ⟨_, _, rfl⟩ <;> exact ⟨rfl, rfl⟩

theorem execVerb_sameConfig {sc : Byte} {payload : List Byte} (h : execVerb sc payload s = .next t) :
    SameConfig s t := by
  unfold execVerb at h
  split at h
  · cases h
  · split at h
    · cases h; exact ⟨rfl, rfl⟩
    · exact applyToken_sameConfig h

theorem exec_sameConfig {i : Instr} (h : exec i s = .next t) : SameConfig s t := by
  cases i with
  | explode => exact issue_sameConfig explodeEffect_sameConfig h
  | implode => exact issue_sameConfig implodeEffect_sameConfig h
  | rleEnc => exact issue_sameConfig rleEncEffect_sameConfig h
  | rleDec => exact issue_sameConfig rleDecEffect_sameConfig h
  | verb sc payload => exact execVerb_sameConfig h
  | zrun => exact applyToken_sameConfig h
  | run0 len => exact applyToken_sameConfig h
  | run1 len => exact applyToken_sameConfig h

/-! ### The running encoder -/

theorem State.flushIfPending_sameConfig (s : State) : SameConfig s s.flushIfPending := by
  unfold State.flushIfPending
  split <;> exact ⟨rfl, rfl⟩

theorem State.appendBit_sameConfig (v : Bit) (s : State) : SameConfig s (s.appendBit v) := by
  unfold State.appendBit
  dsimp only
  split <;> exact ⟨rfl, rfl⟩

theorem State.appendRun_sameConfig (v : Bit) (r : Nat) (s : State) :
    SameConfig s (State.appendRun v r s) := by
  induction r generalizing s with
  | zero => exact ⟨rfl, rfl⟩
  | succ r ih => exact (s.appendBit_sameConfig v).trans (ih (s.appendBit v))

theorem encIteration_sameConfig (s : State) : SameConfig s (encIteration s) := by
  unfold encIteration
  dsimp only
  split
  · exact s.flushIfPending_sameConfig.trans ⟨rfl, rfl⟩
  · exact (State.appendRun_sameConfig _ _ s).trans ⟨rfl, rfl⟩

theorem encStep_sameConfig (h : encStep s = .next t) : SameConfig s t := by
  rcases encStep_next h with ⟨_, rfl, _⟩ | ⟨_, _, rfl⟩
  · exact encIteration_sameConfig s
  · exact s.flushIfPending_sameConfig.trans ⟨rfl, rfl⟩

/-! ### The running decoder, and the engine's turn -/

theorem decTurn_sameConfig (s : State) : SameConfig s (decTurn s) := by
  unfold decTurn
  split <;> exact ⟨rfl, rfl⟩

theorem decStep_sameConfig (h : decStep s = .next t) : SameConfig s t := by
  rcases decStep_next h with ⟨_, _, _, _, hexec⟩ | ⟨_, _, _, rfl⟩ | ⟨_, _, rfl⟩ | ⟨_, _, rfl⟩
  · exact exec_sameConfig hexec
  · exact ⟨rfl, rfl⟩
  · exact decTurn_sameConfig s
  · exact ⟨rfl, rfl⟩

theorem engineStep_sameConfig (h : engineStep s = .next t) : SameConfig s t := by
  unfold engineStep at h
  split at h
  · cases h; exact explodeEffect_sameConfig s
  · cases h; exact implodeEffect_sameConfig s
  · exact encStep_sameConfig h
  · exact decStep_sameConfig h

theorem engineTurn_sameConfig (h : engineTurn s = .next t) : SameConfig s t := by
  unfold engineTurn at h
  split at h
  · exact engineStep_sameConfig h
  · cases h; exact ⟨rfl, rfl⟩

/-! ### The host's turn -/

theorem startEncoder_sameConfig (s : State) : SameConfig s (startEncoder s) := by
  unfold startEncoder
  split
  · exact ⟨rfl, rfl⟩
  · split <;> exact ⟨rfl, rfl⟩

theorem startCommand_sameConfig (c : BitVec 2) (s : State) : SameConfig s (startCommand c s) := by
  unfold startCommand
  split
  · exact (s.withCmd_sameConfig c).trans (startEncoder_sameConfig (s.withCmd c))
  · exact ⟨rfl, rfl⟩
  · exact ⟨rfl, rfl⟩

theorem writeCmd_sameConfig {c : BitVec 2} (h : writeCmd c s = .next t) : SameConfig s t := by
  unfold writeCmd at h
  split at h
  · exact exec_sameConfig h
  · split at h
    · cases h
    · cases h; exact startCommand_sameConfig c s

theorem hostWrite_sameConfig {ok : Bool} {why : Refusal} (h : hostWrite ok why u s = .next t)
    (hu : SameConfig s u) : SameConfig s t := by
  obtain ⟨_, _, rfl⟩ := hostWrite_next.mp h
  exact hu

theorem hostMove_sameConfig {m : HostMove} (h : hostMove m s = .next t) : SameConfig s t := by
  cases m with
  | read r =>
    simp only [hostMove] at h
    split at h
    · cases h; exact ⟨rfl, rfl⟩
    · cases h
  | writeBvLen n => exact hostWrite_sameConfig h ⟨rfl, rfl⟩
  | writeByLen n => exact hostWrite_sameConfig h ⟨rfl, rfl⟩
  | writeArgOff v => exact hostWrite_sameConfig h ⟨rfl, rfl⟩
  | writeArgNbits v => exact hostWrite_sameConfig h ⟨rfl, rfl⟩
  | writeBit i v => exact hostWrite_sameConfig h ⟨rfl, rfl⟩
  | writeByte a v => exact hostWrite_sameConfig h ⟨rfl, rfl⟩
  | writeCmd c => exact writeCmd_sameConfig h
  | reset => cases h; exact ⟨rfl, rfl⟩

theorem hostTurn_sameConfig (h : hostTurn s = .next t) : SameConfig s t := by
  cases hm : s.host.moves with
  | nil => rw [hostTurn_nil hm] at h; cases h; exact ⟨rfl, rfl⟩
  | cons m ms =>
    rw [hostTurn_cons hm] at h
    obtain ⟨hparams, hgrain⟩ := hostMove_sameConfig h
    exact ⟨hparams, hgrain⟩

/-! ### One step -/

theorem takeTurn_sameConfig (s : State) : SameConfig s (takeTurn s).2 := by
  unfold takeTurn
  split <;> exact ⟨rfl, rfl⟩

/-- A step is the turn of the host or of the engine, on the state with that turn of the schedule used up. -/
theorem step_eq_turn (s : State) :
    step s = hostTurn (takeTurn s).2 ∨ step s = engineTurn (takeTurn s).2 := by
  unfold step
  split
  · next hturn => exact .inl (by rw [hturn])
  · next hturn => exact .inr (by rw [hturn])

theorem step_sameConfig (h : step s = .next t) : SameConfig s t := by
  rcases step_eq_turn s with hturn | hturn <;> rw [hturn] at h
  · exact (takeTurn_sameConfig s).trans (hostTurn_sameConfig h)
  · exact (takeTurn_sameConfig s).trans (engineTurn_sameConfig h)

end Operations

/-- Settles O42: a step is a turn of the host or of the engine, and no operation either can perform changes the
parameters or the grain. -/
theorem stepKeepsParams : Obligations.StepKeepsParams := fun _ _ h =>
  have same := step_sameConfig h
  ⟨same.params, same.grain⟩

end Sys2Proof.Machine
end

section
/-! PROOFS. How many bytes the encoder emits (R138): every bit, read or pending, pays for two fifths of a byte, and
three bytes more cover the tokens that are not full. -/

namespace Sys2Proof.Machine

open Sys2Proof

/-- What is still pending is at most one token (R134). -/
theorem flushPending_length (A : List Bit) :
    (flushPending A).length = if A = [] then 0 else 2 + ceil8 A.length := by
  cases A with
  | nil => rfl
  | cons b A => simp [flushPending, verbToken]; omega

/-- A pending bit pays for its share of the flush, three bytes being free. -/
theorem flushPending_length_le (A : List Bit) : 5 * (flushPending A).length ≤ 2 * A.length + 15 := by
  rw [flushPending_length]
  unfold ceil8
  split
  · omega
  · next h =>
    have := List.length_pos_iff.mpr h
    omega

/-- A flush before a run token is paid for by the pending bits and by nine bits of the run. -/
theorem flushPending_length_add_one_le (A : List Bit) :
    5 * ((flushPending A).length + 1) ≤ 2 * A.length + 18 := by
  rw [flushPending_length]
  unfold ceil8
  split
  · omega
  · next h =>
    have := List.length_pos_iff.mpr h
    omega

/-- The full tokens that appending emits are paid for by the bits that no longer wait. -/
theorem appendBits_length_le {A : List Bit} (X : List Bit) (hA : A.length < VERB_MAX) :
    5 * (appendBits A X).1.length + 2 * (appendBits A X).2.length ≤ 2 * (A.length + X.length) := by
  induction X generalizing A with
  | nil => simp [appendBits]
  | cons b X ih =>
    simp only [appendBits]
    split
    · next hfull =>
      have hrest := ih (A := []) (by decide)
      have htoken : (verbToken (A ++ [b])).length = 34 := by
        simp [verbToken, ceil8] at hfull ⊢
        simp [VERB_MAX] at hfull
        omega
      simp [VERB_MAX] at hfull
      simp only [List.length_append, List.length_nil, List.length_cons, htoken] at hrest ⊢
      omega
    · next hne =>
      have hrest := ih (A := A ++ [b]) (by simp at hne ⊢; omega)
      simp only [List.length_append, List.length_cons, List.length_nil] at hrest ⊢
      omega

/-- The loop of R135, with `A` pending. -/
theorem encLoop_length_le (fuel : Nat) (X : List Bit) {A : List Bit} (hA : A.length < VERB_MAX) :
    5 * (encLoop fuel X A).length ≤ 2 * (X.length + A.length) + 15 := by
  induction fuel generalizing X A with
  | zero =>
    have := flushPending_length_le A
    cases X <;> simp only [encLoop] <;> omega
  | succ fuel ih =>
    cases X with
    | nil =>
      have := flushPending_length_le A
      rw [encLoop_nil]
      omega
    | cons v xs =>
      obtain ⟨hr1, -, hr⟩ := runLength_bounds v xs
      have hrest : (xs.drop (runLength v xs - 1)).length + runLength v xs = xs.length + 1 := by
        rw [List.length_drop]; omega
      rw [encLoop_cons]
      split
      · next hlong =>
        have hflush := flushPending_length_add_one_le A
        have hloop := ih (xs.drop (runLength v xs - 1)) (A := []) (by decide)
        simp only [RUN_THRESHOLD, List.length_append, List.length_cons, List.length_nil] at *
        omega
      · have happend := appendBits_length_le (List.replicate (runLength v xs) v) hA
        have hloop := ih (xs.drop (runLength v xs - 1))
          (appendBits_pending_lt (X := List.replicate (runLength v xs) v) hA)
        simp only [List.length_append, List.length_cons, List.length_replicate] at *
        omega

/-- The bound of R138. -/
theorem enc_length_le_sizeBound (X : List Bit) : (enc X).length ≤ sizeBound X.length := by
  unfold sizeBound
  split
  · next h =>
    obtain rfl := List.length_eq_zero_iff.mp h
    simp [enc, encLoop_nil, flushPending]
  · have := encLoop_length_le X.length X (A := []) (by decide)
    simp only [List.length_nil] at this
    unfold enc
    omega

end Sys2Proof.Machine
end

section
/-! PROOFS. What the pieces of the running encoder write (R134, R140): bytes at `WR_POS`, and the registers `WR_POS`,
`ACC` and `ACC_CNT`. -/

namespace Sys2Proof.Machine

open Sys2Proof

/-- `t` is `s` after emissions and accumulator writes: nothing else differs, `WR_POS` has not moved back, and the
bytes written lie below the new `WR_POS`. -/
structure EncoderWrote (s t : State) : Prop where
  frame : t = { s with
    byteMem := t.byteMem
    eng := { s.eng with wrPos := t.eng.wrPos, acc := t.eng.acc, accCnt := t.eng.accCnt } }
  wrPos_le : s.eng.wrPos ≤ t.eng.wrPos
  wf : s.byteMem.wf → t.byteMem.wf
  within : ∀ cap, t.eng.wrPos ≤ cap → s.byteMem.within cap → t.byteMem.within cap

section Pieces

variable {s t u : State}

theorem EncoderWrote.trans (h : EncoderWrote s t) (h' : EncoderWrote t u) : EncoderWrote s u where
  frame := h'.frame.trans (by rw [h.frame])
  wrPos_le := h.wrPos_le.trans h'.wrPos_le
  wf := fun hs => h'.wf (h.wf hs)
  within := fun cap hcap hs => h'.within cap hcap (h.within cap (h'.wrPos_le.trans hcap) hs)

/-- Writing the accumulator alone. -/
theorem State.withAcc_encoderWrote (s : State) (acc : Vector Bit 256) (n : Nat) :
    EncoderWrote s (s.withEng { s.eng with acc := acc, accCnt := n }) where
  frame := rfl
  wrPos_le := Nat.le_refl _
  wf := id
  within := fun _ _ => id

theorem State.refl_encoderWrote (s : State) : EncoderWrote s s :=
  s.withAcc_encoderWrote s.eng.acc s.eng.accCnt

theorem State.emit_encoderWrote (s : State) (P : List Byte) : EncoderWrote s (s.emit P) where
  frame := rfl
  wrPos_le := Nat.le_add_right _ _
  wf := fun hs => Memory.wf_writeRange hs s.eng.wrPos P
  within := fun _ hcap hs => Memory.within_writeRange hs (.inl hcap)

theorem State.flush_encoderWrote (s : State) : EncoderWrote s s.flush :=
  (s.emit_encoderWrote _).trans (State.withAcc_encoderWrote _ _ 0)

theorem State.flushIfPending_encoderWrote (s : State) : EncoderWrote s s.flushIfPending := by
  unfold State.flushIfPending
  split
  · exact s.flush_encoderWrote
  · exact s.refl_encoderWrote

theorem State.appendBit_encoderWrote (v : Bit) (s : State) : EncoderWrote s (s.appendBit v) := by
  unfold State.appendBit
  dsimp only
  split
  · exact (s.withAcc_encoderWrote _ _).trans (State.flush_encoderWrote _)
  · exact s.withAcc_encoderWrote _ _

theorem State.appendRun_encoderWrote (v : Bit) (r : Nat) (s : State) :
    EncoderWrote s (State.appendRun v r s) := by
  induction r generalizing s with
  | zero => exact s.refl_encoderWrote
  | succ r ih => exact (s.appendBit_encoderWrote v).trans (ih (s.appendBit v))

end Pieces

/-! ### How many bits stay pending (R141) -/

@[simp] theorem State.flushIfPending_accCnt (s : State) : s.flushIfPending.eng.accCnt = 0 := by
  unfold State.flushIfPending
  split
  · rfl
  · omega

@[simp] theorem State.emit_accCnt (s : State) (P : List Byte) : (s.emit P).eng.accCnt = s.eng.accCnt := rfl

/-- The accumulator is flushed as soon as it is full. -/
theorem State.appendBit_accCnt_le (v : Bit) {s : State} (h : s.eng.accCnt ≤ 255) :
    (s.appendBit v).eng.accCnt ≤ 255 := by
  unfold State.appendBit
  dsimp only
  split
  · exact Nat.zero_le _
  · next hne =>
    simp only [State.withEng_eng, VERB_MAX] at hne ⊢
    omega

theorem State.appendRun_accCnt_le (v : Bit) (r : Nat) {s : State} (h : s.eng.accCnt ≤ 255) :
    (State.appendRun v r s).eng.accCnt ≤ 255 := by
  induction r generalizing s with
  | zero => exact h
  | succ r ih => exact ih (State.appendBit_accCnt_le v h)

/-! ### One turn of the loop -/

theorem runLenFrom_le (bit : Nat → Bit) {p n r : Nat} (fuel : Nat) (h : p + r ≤ n) :
    p + runLenFrom bit p n fuel r ≤ n := by
  induction fuel generalizing r with
  | zero => exact h
  | succ fuel ih =>
    simp only [runLenFrom]
    split
    · next hr => exact ih (by omega)
    · exact h

/-- A run does not pass the end of the input (R131). -/
theorem runLen_le (bit : Nat → Bit) {p n : Nat} (h : p < n) : p + runLen bit p n ≤ n :=
  runLenFrom_le bit (RUN_MAX - 1) h

/-- One turn of the loop is some writing, then `ENC_MODE` and `RD_POS` (R140): at most 255 bits stay pending, and
`RD_POS` stays within the input. -/
theorem encIteration_eq {s : State} (hlt : s.eng.rdPos < s.eng.encN) (hacc : s.eng.accCnt ≤ 255) :
    ∃ u p, EncoderWrote s u ∧ u.eng.accCnt ≤ 255 ∧ p ≤ s.eng.encN ∧
      encIteration s = u.withEng { u.eng with encMode := encModeOf u.eng.accCnt, rdPos := p } := by
  refine ⟨_, _, ?_, ?_, runLen_le s.bit hlt, rfl⟩
  · split
    · exact s.flushIfPending_encoderWrote.trans (State.emit_encoderWrote _ _)
    · exact State.appendRun_encoderWrote _ _ s
  · split
    · simp
    · exact State.appendRun_accCnt_le _ _ hacc

end Sys2Proof.Machine
end

section
/-! PROOFS. The engine's turn by the command that runs, and the steps of the running decoder: a decoded token lies
whole below `BY_LEN`, so `TOK_PC` only moves forward inside a pass (R29, R170). -/

namespace Sys2Proof.Machine

open Sys2Proof

/-- The block as it is, with another host side: what taking a turn, using up a move and a read all do. -/
def State.withHost (hs : HostSide) (s : State) : State := { s with host := hs }

/-- A step of the engine is a step of the command named by `CMD` (R225 (3)). -/
theorem engineStep_cases (s : State) :
    (s.cmd = 0#2 ∧ engineStep s = .next (explodeEffect s)) ∨
    (s.cmd = 1#2 ∧ engineStep s = .next (implodeEffect s)) ∨
    (s.cmd = 2#2 ∧ engineStep s = encStep s) ∨ (s.cmd = 3#2 ∧ engineStep s = decStep s) := by
  have hcodes : ∀ c : BitVec 2, c = 0#2 ∨ c = 1#2 ∨ c = 2#2 ∨ c = 3#2 := by decide
  rcases hcodes s.cmd with h | h | h | h <;> simp [engineStep, decodeCmd, h]

theorem engineStep_rleDec {s : State} (h : s.cmd = 3#2) : engineStep s = decStep s := by
  simp [engineStep, decodeCmd, h]

/-- While the engine runs, a step is a step of the engine; the host side may lose a turn of its schedule. -/
theorem step_of_engineRuns {s : State} (h : EngineRuns s) : ∃ hs, step s = engineStep (s.withHost hs) := by
  obtain ⟨hbusy, hsched | ⟨rest, hsched⟩⟩ := h
  · exact ⟨s.host, by rw [step_unscheduled hsched, if_pos hbusy]; rfl⟩
  · have hturn : takeTurn s = (.engine, s.withHost { s.host with schedule := rest }) := by
      simp [takeTurn, hsched, State.withHost]
    refine ⟨{ s.host with schedule := rest }, ?_⟩
    rw [step, hturn]
    exact if_pos hbusy

/-! ### Tokens -/

/-- What the decoder can read: a token, and a verbatim token only with all its payload there (R73, R165). -/
theorem decodeToken_ok {bytes rest : List Byte} {i : Instr} (h : decodeToken bytes = .ok (i, rest)) :
    i = .zrun ∨ (∃ len, i = .run0 len) ∨ (∃ len, i = .run1 len) ∨
      ∃ sc payload, i = .verb sc payload ∧ payload.length = ceil8 (verbCount sc) ∧
        verbStride sc ≤ bytes.length := by
  cases bytes with
  | nil => simp [decodeToken] at h
  | cons b tail =>
    cases hk : firstByteKind b with
    | zrun => simp [decodeToken, hk] at h; exact .inl h.1.symm
    | run0 => simp [decodeToken, hk] at h; exact .inr (.inl ⟨_, h.1.symm⟩)
    | run1 => simp [decodeToken, hk] at h; exact .inr (.inr (.inl ⟨_, h.1.symm⟩))
    | verb =>
      cases tail with
      | nil => simp [decodeToken, hk] at h
      | cons sc tail =>
        by_cases hlen : ceil8 (verbCount sc) ≤ tail.length
        · simp [decodeToken, hk, hlen] at h
          refine .inr (.inr (.inr ⟨sc, _, h.1.symm, by simpa using hlen, ?_⟩))
          simp only [verbStride, List.length_cons]
          omega
        · simp [decodeToken, hk, hlen] at h

@[simp] theorem runBits_length (v : Bit) (len : BitVec 7) : (runBits v len).length = len.toNat := by
  simp [runBits]

@[simp] theorem verbBits_length (sc : Byte) (payload : List Byte) :
    (verbBits sc payload).length = verbCount sc := by simp [verbBits]

theorem State.fetchToken_length (s : State) : s.fetchToken.length = min 34 (s.byLen - s.eng.tokPc) := by
  simp [State.fetchToken]

/-- A verbatim token whose bytes are all there counts or writes its bits (R168). -/
theorem execVerb_eq_applyToken {sc : Byte} {payload : List Byte} {s : State}
    (hp : payload.length = ceil8 (verbCount sc)) (hend : s.eng.tokPc + verbStride sc ≤ s.byLen) :
    execVerb sc payload s = applyToken (verbBits sc payload) (verbStride sc) s := by
  simp [execVerb, hp, Nat.not_lt.mpr hend]

/-- The token at `TOK_PC` lies whole below `BY_LEN`, stands for at most 127 bits a byte (R164), and its meaning is to
count or write them. -/
theorem exec_fetched {s : State} {i : Instr} {rest : List Byte} (hlt : s.eng.tokPc < s.byLen)
    (h : decodeToken s.fetchToken = .ok (i, rest)) :
    ∃ bits stride, 0 < stride ∧ s.eng.tokPc + stride ≤ s.byLen ∧ bits.length ≤ 127 * stride ∧
      exec i s = applyToken bits stride s := by
  rcases decodeToken_ok h with rfl | ⟨len, rfl⟩ | ⟨len, rfl⟩ | ⟨sc, payload, rfl, hp, hfit⟩
  · exact ⟨[], 1, by decide, hlt, by simp, rfl⟩
  · exact ⟨runBits false len, 1, by decide, hlt, by have := len.isLt; simp; omega, rfl⟩
  · exact ⟨runBits true len, 1, by decide, hlt, by have := len.isLt; simp; omega, rfl⟩
  · rw [State.fetchToken_length] at hfit
    have hend : s.eng.tokPc + verbStride sc ≤ s.byLen := by omega
    have hbits : (verbBits sc payload).length ≤ 127 * verbStride sc := by
      rw [verbBits_length]
      unfold verbStride ceil8
      omega
    exact ⟨verbBits sc payload, verbStride sc, by unfold verbStride; omega, hend, hbits,
      execVerb_eq_applyToken hp hend⟩

/-! ### `TOK_PC` -/

/-- The two ways a turn step can go: the total is too large, or pass 2 begins (R170). -/
theorem decTurn_cases (s : State) :
    (s.params.maxBits < s.eng.decTotal ∧ decTurn s = s.endCommand .allocation 0) ∨
    (s.eng.decTotal ≤ s.params.maxBits ∧
      decTurn s = s.withEng { s.eng with decPass := .materialise, tokPc := 0, wrCur := 0 }) := by
  unfold decTurn
  split
  · next h => exact .inl ⟨h, rfl⟩
  · next h => exact .inr ⟨Nat.le_of_not_lt h, rfl⟩

/-- A token keeps the pass and advances `TOK_PC` by its stride, in either pass. -/
theorem applyToken_tokPc {bits : List Bit} {stride : Nat} {s t : State}
    (h : applyToken bits stride s = .next t) :
    t.eng.decPass = s.eng.decPass ∧ t.eng.tokPc = s.eng.tokPc + stride := by
  rcases applyToken_next h with ⟨_, rfl⟩ | ⟨_, _, rfl⟩ <;> exact ⟨rfl, rfl⟩

/-- A step of the running decoder after which it still runs moves `TOK_PC` forward, or is the turn. -/
theorem decStep_tokPc {s t : State} (h : decStep s = .next t) (hbusy : t.busy = true) :
    (t.eng.decPass = s.eng.decPass ∧ s.eng.tokPc < t.eng.tokPc ∧ t.eng.tokPc ≤ s.byLen) ∨
    (s.eng.decPass = .size ∧ t.eng.decPass = .materialise ∧ s.eng.tokPc = s.byLen ∧ t.eng.tokPc = 0) := by
  rcases decStep_next h with ⟨hlt, i, rest, hdec, hexec⟩ | ⟨_, _, _, rfl⟩ | ⟨heq, hp, rfl⟩ | ⟨_, _, rfl⟩
  · obtain ⟨bits, stride, hpos, hend, -, happly⟩ := exec_fetched hlt hdec
    obtain ⟨hpass, hpc⟩ := applyToken_tokPc (happly ▸ hexec)
    exact .inl ⟨hpass, by omega, by omega⟩
  · simp [State.raise_eq] at hbusy
  · rcases decTurn_cases s with ⟨-, hturn⟩ | ⟨-, hturn⟩ <;> rw [hturn] at hbusy ⊢
    · simp at hbusy
    · exact .inr ⟨hp, rfl, heq, rfl⟩
  · simp [decFinal, State.succeed_eq] at hbusy

/-- Settles O47: such a step is a step of the running decoder. -/
theorem tokPcMovesForward : Obligations.TokPcMovesForward := by
  intro s t _ hruns hcmd hstep hbusy
  obtain ⟨hs, hengine⟩ := step_of_engineRuns hruns
  rw [hengine, engineStep_rleDec (s := s.withHost hs) hcmd] at hstep
  exact decStep_tokPc (s := s.withHost hs) hstep hbusy

end Sys2Proof.Machine
end

section
/-! PROOFS. The invariant (R35, and the cursors of the running machines): its parts, what the end of a command
needs of the state it ends in, and the four commands in the function form. -/

namespace Sys2Proof.Machine

open Sys2Proof

/-- The part of the invariant that speaks neither of `CMD`, `BUSY` and the last error nor of the engine's registers:
the end of a command writes those, so this part is all it needs. -/
structure State.Stored (s : State) : Prop where
  params   : s.params.wf
  memory   : s.memoryOk
  argOff   : s.argOff < 2 ^ s.params.lenW
  argNbits : s.argNbits < 2 ^ s.params.lenW
  reserved : s.reservedBits = 0#4

section Invariant

variable {s t : State}

/-! ### What fits `LEN_W` bits (R8) -/

theorem lt_lenW_of_le_maxBits {p : Params} (hp : p.wf) {n : Nat} (h : n ≤ p.maxBits) : n < 2 ^ p.lenW := by
  obtain ⟨-, hp⟩ := hp
  omega

theorem lt_lenW_of_le_maxBytes {p : Params} (hp : p.wf) {n : Nat} (h : n ≤ 127 * p.maxBytes) :
    n < 2 ^ p.lenW := by
  obtain ⟨-, hp⟩ := hp
  omega

/-! ### The parts of the invariant -/

theorem State.Inv.stored (h : s.Inv) : s.Stored := by
  obtain ⟨hoff, hnb, -⟩ := h.widths
  obtain ⟨hres, -⟩ := h.status
  exact ⟨h.params, h.memory, hoff, hnb, hres⟩

/-- The invariant does not speak of the host. -/
theorem State.Inv.withHost (h : s.Inv) (hs : HostSide) : (s.withHost hs).Inv :=
  ⟨h.params, h.memory, h.widths, h.status, h.encoder, h.decoder⟩

/-- In an idle state the cursors of the running machines are free. -/
theorem State.Inv.of_idle (hparams : s.params.wf) (hmemory : s.memoryOk) (hwidths : s.widthsOk)
    (hstatus : s.statusOk) (hidle : s.busy = false) : s.Inv :=
  ⟨hparams, hmemory, hwidths, hstatus, by simp [hidle], by simp [hidle]⟩

theorem State.Stored.withCmd (h : s.Stored) (c : BitVec 2) : (s.withCmd c).Stored :=
  ⟨h.params, h.memory, h.argOff, h.argNbits, h.reserved⟩

theorem State.Stored.storeBv (h : s.Stored) {X : List Bit} (hX : X.length ≤ s.params.maxBits) :
    (s.storeBv X).Stored := by
  obtain ⟨hbits, hbytes, hbitsIn, hbytesIn, -, hby⟩ := h.memory
  exact ⟨h.params, ⟨Memory.wf_writeRange hbits 0 X, hbytes,
    Memory.within_writeRange hbitsIn (.inl (by simpa using hX)), hbytesIn, hX, hby⟩,
    h.argOff, h.argNbits, h.reserved⟩

theorem State.Stored.storeBy (h : s.Stored) {P : List Byte} (hP : P.length ≤ s.params.maxBytes) :
    (s.storeBy P).Stored := by
  obtain ⟨hbits, hbytes, hbitsIn, hbytesIn, hbv, -⟩ := h.memory
  exact ⟨h.params, ⟨hbits, Memory.wf_writeRange hbytes 0 P, hbitsIn,
    Memory.within_writeRange hbytesIn (.inl (by simpa using hP)), hbv, hP⟩,
    h.argOff, h.argNbits, h.reserved⟩

/-- The free values of the internal registers fit their widths (U7). -/
theorem State.Stored.widthsOk_free (h : s.Stored) {k : Nat} (heng : s.eng = Engine.free s.params k)
    (hinfo : s.errInfo < 2 ^ s.params.lenW) : s.widthsOk := by
  have hmod : ∀ n, n % 2 ^ s.params.lenW < 2 ^ s.params.lenW := fun n => Nat.mod_lt n (by positivity)
  refine ⟨h.argOff, h.argNbits, hinfo, ?_⟩
  rw [heng]
  exact ⟨hmod _, hmod _, hmod _, hmod _, hmod _, hmod _, Nat.le_of_lt_succ (Nat.mod_lt _ (by decide))⟩

@[simp] theorem State.errCode_withEng (s : State) (e : Engine) : (s.withEng e).errCode = s.errCode := rfl

/-- Setting `BUSY` keeps the rest of STATUS. -/
theorem State.statusOk_setBusy (h : s.statusOk) (b : Bool) : (s.setBusy b).statusOk := by
  simpa [State.statusOk] using h

theorem ErrKind.code_le (e : ErrKind) : e.code ≤ 4#3 := by cases e <;> decide

/-- The end of a command, well or with an error, meets the invariant. -/
theorem State.Stored.endCommand (h : s.Stored) {e : ErrKind} {info : Nat}
    (hinfo : e = .malformed ∧ info < 2 ^ s.params.lenW ∨ info = 0) : (s.endCommand e info).Inv := by
  have hstored : (s.endCommand e info).Stored :=
    ⟨h.params, h.memory, h.argOff, h.argNbits, by simpa using h.reserved⟩
  have hwidth : info < 2 ^ s.params.lenW := by
    rcases hinfo with ⟨-, hlt⟩ | rfl
    · exact hlt
    · positivity
  refine .of_idle h.params h.memory (hstored.widthsOk_free rfl hwidth) ⟨hstored.reserved, ?_, ?_⟩ (by simp)
  · simpa using e.code_le
  · rcases hinfo with ⟨rfl, -⟩ | rfl
    · exact .inl (by simp)
    · exact .inr rfl

theorem State.Stored.endCommand_zero (h : s.Stored) (e : ErrKind) : (s.endCommand e 0).Inv :=
  h.endCommand (.inr rfl)

/-! ### The commands in the function form -/

theorem explodeEffect_inv (h : s.Stored) : (explodeEffect s).Inv := by
  rcases explodeEffect_cases s with ⟨_, heq⟩ | ⟨_, _, heq⟩ | ⟨_, hfit, heq⟩ <;> rw [heq]
  · exact h.endCommand_zero .range
  · exact h.endCommand_zero .allocation
  · exact (h.storeBv (by simpa using hfit)).endCommand_zero .none

theorem implodeEffect_inv (h : s.Stored) : (implodeEffect s).Inv := by
  rcases implodeEffect_cases s with ⟨_, heq⟩ | ⟨_, _, heq⟩ | ⟨hin, hfit, heq⟩ <;> rw [heq]
  · exact h.endCommand_zero .range
  · exact h.endCommand_zero .allocation
  · have hlen : ((s.bitVector.drop s.argOff).take s.argNbits).length = s.argNbits := by
      simp; omega
    exact (h.storeBy (by rwa [pack_length, hlen])).endCommand_zero .none

theorem rleEncEffect_inv (h : s.Stored) : (rleEncEffect s).Inv := by
  rcases rleEncEffect_cases s with ⟨_, heq⟩ | ⟨_, _, heq⟩ | ⟨hin, hfit, heq⟩ <;> rw [heq]
  · exact h.endCommand_zero .range
  · exact h.endCommand_zero .allocation
  · have hlen : (s.bitVector.take s.argNbits).length = s.argNbits := by simpa using hin
    have hbound := enc_length_le_sizeBound (s.bitVector.take s.argNbits)
    rw [hlen] at hbound
    exact (h.storeBy (hbound.trans hfit)).endCommand_zero .none

theorem except_map_eq_error {ε β γ : Type} {f : β → γ} {x : Except ε β} {e : ε} :
    x.map f = .error e ↔ x = .error e := by
  cases x <;> simp [Except.map]

/-- The offset of a malformed token lies inside the stream. -/
theorem decLoop_error_le {fuel p q : Nat} {S : List Byte} (h : decLoop fuel p S = .error q) :
    q ≤ p + S.length := by
  induction fuel generalizing p S with
  | zero => cases S <;> simp [decLoop] at h; omega
  | succ fuel ih =>
    cases S with
    | nil => simp [decLoop] at h
    | cons b S =>
      simp only [decLoop] at h
      split at h
      · have := ih (except_map_eq_error.mp h)
        simp only [List.length_cons]
        omega
      · cases S with
        | nil => simp at h; omega
        | cons sc S =>
          simp only at h
          split at h
          · have := ih (except_map_eq_error.mp h)
            simp only [List.length_cons, List.length_drop] at this ⊢
            omega
          · simp at h; omega

theorem rleDecEffect_inv (h : s.Stored) : (rleDecEffect s).Inv := by
  rcases rleDecEffect_cases s with ⟨q, hdec, heq⟩ | ⟨_, _, _, heq⟩ | ⟨D, _, hfit, heq⟩ <;> rw [heq]
  · have hq : q ≤ s.byLen := by simpa using decLoop_error_le hdec
    obtain ⟨-, -, -, -, -, hby⟩ := h.memory
    exact h.endCommand (.inl ⟨rfl, lt_lenW_of_le_maxBytes h.params (by omega)⟩)
  · exact h.endCommand_zero .allocation
  · exact (h.storeBv hfit).endCommand_zero .none

theorem issue_inv {c : BitVec 2} {f : State → State} (hf : ∀ u : State, u.Stored → (f u).Inv) (h : s.Stored)
    (hnext : issue c f s = .next t) : t.Inv := by
  obtain ⟨_, rfl⟩ := (issue_next c f).mp hnext
  exact hf _ (h.withCmd c)

theorem exec_command_inv {i : Instr} (hi : i.isCommand = true) (h : s.Stored) (hnext : exec i s = .next t) :
    t.Inv := by
  cases i with
  | explode => exact issue_inv (fun _ => explodeEffect_inv) h hnext
  | implode => exact issue_inv (fun _ => implodeEffect_inv) h hnext
  | rleEnc => exact issue_inv (fun _ => rleEncEffect_inv) h hnext
  | rleDec => exact issue_inv (fun _ => rleDecEffect_inv) h hnext
  | verb sc payload => cases hi
  | zrun => cases hi
  | run0 len => cases hi
  | run1 len => cases hi

end Invariant

end Sys2Proof.Machine
end

section
/-! PROOFS. The invariant over the steps of the running encoder and decoder (R140, R170). -/

namespace Sys2Proof.Machine

open Sys2Proof

section Invariant

variable {s t : State}

/-! ### The running encoder -/

/-- Emissions that stay within the capacity keep what is stored. -/
theorem EncoderWrote.stored (hw : EncoderWrote s t) (h : s.Stored) (hfit : t.eng.wrPos ≤ s.params.maxBytes) :
    t.Stored := by
  obtain ⟨hbits, hbytes, hbitsIn, hbytesIn, hbv, hby⟩ := h.memory
  rw [hw.frame]
  exact ⟨h.params, ⟨hbits, hw.wf hbytes, hbitsIn, hw.within _ hfit hbytesIn, hbv, hby⟩, h.argOff, h.argNbits,
    h.reserved⟩

/-- A turn of the loop keeps the invariant. -/
theorem encIteration_inv (h : s.Inv) (henc : s.encoderOk) (hcmd : s.cmd = 2#2)
    (hlt : s.eng.rdPos < s.eng.encN) (hfit : (encIteration s).eng.wrPos ≤ (encIteration s).params.maxBytes) :
    (encIteration s).Inv := by
  obtain ⟨hn, -, -, hacc, -⟩ := henc
  obtain ⟨u, p, hw, huacc, hp, heq⟩ := encIteration_eq hlt hacc
  rw [heq] at hfit ⊢
  have hfit' : u.eng.wrPos ≤ s.params.maxBytes := by
    have hparams : u.params = s.params := by rw [hw.frame]
    rwa [← hparams]
  obtain ⟨-, hmem, -, -, -⟩ := hw.stored h.stored hfit'
  obtain ⟨-, -, -, -, hbv, -⟩ := h.memory
  obtain ⟨hoff, hnb, hinfo, hpc, htot, hwc, -, -, hen, -⟩ := h.widths
  rw [hw.frame] at hmem ⊢
  have hrd : p < 2 ^ s.params.lenW := lt_lenW_of_le_maxBits h.params (by omega)
  have hwr : u.eng.wrPos < 2 ^ s.params.lenW := lt_lenW_of_le_maxBytes h.params (by omega)
  exact ⟨h.params, hmem, ⟨hoff, hnb, hinfo, hpc, htot, hwc, hrd, hwr, hen, by simp; omega⟩, h.status,
    fun _ _ => ⟨hn, hp, hfit', huacc, rfl⟩, fun _ hdec => by simp [hcmd] at hdec⟩

theorem encStep_inv (h : s.Inv) (hbusy : s.busy = true) (hcmd : s.cmd = 2#2) (hnext : encStep s = .next t) :
    t.Inv := by
  rcases encStep_next hnext with ⟨hlt, rfl, hfit⟩ | ⟨-, hfit, rfl⟩
  · exact encIteration_inv h (h.encoder hbusy hcmd) hcmd hlt hfit
  · have hw := s.flushIfPending_encoderWrote
    obtain ⟨hparams, ⟨hbits, hbytes, hbitsIn, hbytesIn, hbv, -⟩, hoff, hnb, hres⟩ := hw.stored h.stored hfit
    have hfit' : s.flushIfPending.eng.wrPos ≤ s.flushIfPending.params.maxBytes := by
      rwa [s.flushIfPending_sameConfig.params]
    have hstored : ({ s.flushIfPending with byLen := s.flushIfPending.eng.wrPos } : State).Stored :=
      ⟨hparams, ⟨hbits, hbytes, hbitsIn, hbytesIn, hbv, hfit'⟩, hoff, hnb, hres⟩
    exact hstored.endCommand_zero .none

/-! ### The running decoder -/

/-- A token keeps the invariant while RLE_DEC runs: it counts at most 127 bits a byte, or writes within the
capacity. -/
theorem applyToken_inv {bits : List Bit} {stride : Nat} (h : s.Inv) (hdec : s.decoderOk) (hcmd : s.cmd = 3#2)
    (hend : s.eng.tokPc + stride ≤ s.byLen) (hbits : bits.length ≤ 127 * stride)
    (hnext : applyToken bits stride s = .next t) : t.Inv := by
  obtain ⟨hbm, hbym, hbmIn, hbymIn, hbv, hby⟩ := h.memory
  obtain ⟨hoff, hnb, hinfo, -, htot, hwc, hrd, hwr, hen, hacc⟩ := h.widths
  obtain ⟨-, hsize, hmat⟩ := hdec
  have hpc : s.eng.tokPc + stride < 2 ^ s.params.lenW := lt_lenW_of_le_maxBytes h.params (by omega)
  rcases applyToken_next hnext with ⟨hpass, rfl⟩ | ⟨hpass, hroom, rfl⟩
  · have hcount : s.eng.decTotal + bits.length ≤ 127 * (s.eng.tokPc + stride) := by
      have := hsize hpass
      omega
    have htot' : s.eng.decTotal + bits.length < 2 ^ s.params.lenW :=
      lt_lenW_of_le_maxBytes h.params (by omega)
    exact ⟨h.params, h.memory, ⟨hoff, hnb, hinfo, hpc, htot', hwc, hrd, hwr, hen, hacc⟩, h.status,
      fun _ henc => by simp [hcmd] at henc, fun _ _ => ⟨hend, fun _ => hcount, fun hm => by simp [hpass] at hm⟩⟩
  · obtain ⟨htotal, hcur⟩ := hmat hpass
    have hcur' : s.eng.wrCur + bits.length ≤ s.params.maxBits := by
      rcases Nat.eq_zero_or_pos bits.length with hzero | hpos
      · omega
      · exact hroom hpos
    have hmem' : ((s.writeBits s.eng.wrCur bits).withEng { s.eng with
        wrCur := s.eng.wrCur + bits.length, tokPc := s.eng.tokPc + stride }).memoryOk :=
      ⟨Memory.wf_writeRange hbm _ _, hbym, Memory.within_writeRange hbmIn (.inl hcur'), hbymIn, hbv, hby⟩
    exact ⟨h.params, hmem', ⟨hoff, hnb, hinfo, hpc, htot, lt_lenW_of_le_maxBits h.params hcur', hrd, hwr, hen,
      hacc⟩, h.status, fun _ henc => by simp [hcmd] at henc,
      fun _ _ => ⟨hend, fun hs => by simp [hpass] at hs, fun _ => ⟨htotal, hcur'⟩⟩⟩

theorem decTurn_inv (h : s.Inv) (hcmd : s.cmd = 3#2) : (decTurn s).Inv := by
  rcases decTurn_cases s with ⟨-, heq⟩ | ⟨hfit, heq⟩ <;> rw [heq]
  · exact h.stored.endCommand_zero .allocation
  · obtain ⟨hoff, hnb, hinfo, -, htot, -, hrd, hwr, hen, hacc⟩ := h.widths
    have hzero : 0 < 2 ^ s.params.lenW := by positivity
    exact ⟨h.params, h.memory, ⟨hoff, hnb, hinfo, hzero, htot, hzero, hrd, hwr, hen, hacc⟩, h.status,
      fun _ henc => by simp [hcmd] at henc,
      fun _ _ => ⟨Nat.zero_le _, fun hs => by simp at hs, fun _ => ⟨hfit, Nat.zero_le _⟩⟩⟩

theorem decStep_inv (h : s.Inv) (hbusy : s.busy = true) (hcmd : s.cmd = 3#2) (hnext : decStep s = .next t) :
    t.Inv := by
  have hdec := h.decoder hbusy hcmd
  rcases decStep_next hnext with ⟨hlt, i, rest, hfetch, hexec⟩ | ⟨-, -, -, rfl⟩ | ⟨-, -, rfl⟩ | ⟨-, hpass, rfl⟩
  · obtain ⟨bits, stride, -, hend, hbits, happly⟩ := exec_fetched hlt hfetch
    exact applyToken_inv h hdec hcmd hend hbits (happly ▸ hexec)
  · obtain ⟨-, -, -, hpc, -⟩ := h.widths
    exact h.stored.endCommand (.inl ⟨rfl, hpc⟩)
  · exact decTurn_inv h hcmd
  · obtain ⟨hparams, ⟨hbits, hbytes, hbitsIn, hbytesIn, -, hby⟩, hoff, hnb, hres⟩ := h.stored
    obtain ⟨-, -, hmat⟩ := hdec
    obtain ⟨htotal, -⟩ := hmat hpass
    have hstored : ({ s with bvLen := s.eng.decTotal } : State).Stored :=
      ⟨hparams, ⟨hbits, hbytes, hbitsIn, hbytesIn, htotal, hby⟩, hoff, hnb, hres⟩
    exact hstored.endCommand_zero .none

theorem engineTurn_inv (h : s.Inv) (hnext : engineTurn s = .next t) : t.Inv := by
  unfold engineTurn at hnext
  split at hnext
  · next hbusy =>
    rcases engineStep_cases s with ⟨_, heq⟩ | ⟨_, heq⟩ | ⟨hcmd, heq⟩ | ⟨hcmd, heq⟩ <;> rw [heq] at hnext
    · cases hnext; exact explodeEffect_inv h.stored
    · cases hnext; exact implodeEffect_inv h.stored
    · exact encStep_inv h hbusy hcmd hnext
    · exact decStep_inv h hbusy hcmd hnext
  · cases hnext; exact h

end Invariant

end Sys2Proof.Machine
end

section
/-! PROOFS. The invariant over the host's moves, and so over every step (R35). -/

namespace Sys2Proof.Machine

open Sys2Proof

section Invariant

variable {s t : State}

/-! ### Starting a command -/

theorem startEncoder_inv (h : s.Inv) (hcmd : s.cmd = 2#2) : (startEncoder s).Inv := by
  unfold startEncoder
  split
  · exact h.stored.endCommand_zero .range
  · next hrange =>
    split
    · exact h.stored.endCommand_zero .allocation
    · have hn : s.argNbits ≤ s.bvLen := by simpa [State.encodeOutOfRange] using hrange
      obtain ⟨hoff, hnb, hinfo, hpc, htot, hwc, -⟩ := h.widths
      have hzero : 0 < 2 ^ s.params.lenW := by positivity
      exact ⟨h.params, h.memory, ⟨hoff, hnb, hinfo, hpc, htot, hwc, hzero, hzero, hnb, by simp⟩,
        State.statusOk_setBusy h.status true,
        fun _ _ => ⟨hn, Nat.zero_le _, Nat.zero_le _, Nat.zero_le _, rfl⟩, fun _ hdec => by simp [hcmd] at hdec⟩

theorem startDecoder_inv (h : s.Inv) (hcmd : s.cmd = 3#2) : (startDecoder s).Inv := by
  obtain ⟨hoff, hnb, hinfo, -, -, hwc, hrd, hwr, hen, hacc⟩ := h.widths
  have hzero : 0 < 2 ^ s.params.lenW := by positivity
  exact ⟨h.params, h.memory, ⟨hoff, hnb, hinfo, hzero, hzero, hwc, hrd, hwr, hen, hacc⟩,
    State.statusOk_setBusy h.status true, fun _ henc => by simp [startDecoder, hcmd] at henc,
    fun _ _ => ⟨Nat.zero_le _, fun _ => Nat.zero_le _, fun hm => by simp [startDecoder] at hm⟩⟩

/-- Writing `CMD` of an idle block. -/
theorem State.Inv.withCmd (h : s.Inv) (hidle : s.busy = false) (c : BitVec 2) : (s.withCmd c).Inv :=
  .of_idle h.params h.memory h.widths h.status hidle

/-- The three ways a command starts in the machine form (R140, R170; log 17). -/
theorem startCommand_cases (c : BitVec 2) (s : State) :
    (c = 2#2 ∧ startCommand c s = startEncoder (s.withCmd c)) ∨
    (c = 3#2 ∧ startCommand c s = startDecoder (s.withCmd c)) ∨
    (c ≠ 2#2 ∧ c ≠ 3#2 ∧ startCommand c s = (s.withCmd c).setBusy true) := by
  have hcodes : ∀ c : BitVec 2, c = 0#2 ∨ c = 1#2 ∨ c = 2#2 ∨ c = 3#2 := by decide
  rcases hcodes c with rfl | rfl | rfl | rfl
  · exact .inr (.inr ⟨by decide, by decide, rfl⟩)
  · exact .inr (.inr ⟨by decide, by decide, rfl⟩)
  · exact .inl ⟨rfl, rfl⟩
  · exact .inr (.inl ⟨rfl, rfl⟩)

theorem startCommand_inv (h : s.Inv) (hidle : s.busy = false) (c : BitVec 2) : (startCommand c s).Inv := by
  have hcmd := h.withCmd hidle c
  rcases startCommand_cases c s with ⟨rfl, heq⟩ | ⟨rfl, heq⟩ | ⟨hne2, hne3, heq⟩ <;> rw [heq]
  · exact startEncoder_inv hcmd rfl
  · exact startDecoder_inv hcmd rfl
  · exact ⟨h.params, h.memory, h.widths, State.statusOk_setBusy hcmd.status true,
      fun _ henc => absurd henc hne2, fun _ hdec => absurd hdec hne3⟩

theorem decodeCmd_isCommand (c : BitVec 2) : (decodeCmd c).isCommand = true := by
  revert c
  decide

theorem writeCmd_inv {c : BitVec 2} (h : s.Inv) (hnext : writeCmd c s = .next t) : t.Inv := by
  unfold writeCmd at hnext
  split at hnext
  · exact exec_command_inv (decodeCmd_isCommand c) h.stored hnext
  · split at hnext
    · cases hnext
    · next hidle => cases hnext; exact startCommand_inv h (by simpa using hidle) c

/-! ### The host's turn -/

/-- A host write of a cell keeps the invariant, as far as it lies within the capacity. -/
theorem State.Inv.writeBits (h : s.Inv) (hidle : s.busy = false) {base : Nat} {X : List Bit}
    (hfit : base + X.length ≤ s.params.maxBits ∨ X = []) : (s.writeBits base X).Inv := by
  obtain ⟨hbits, hbytes, hbitsIn, hbytesIn, hbv, hby⟩ := h.memory
  exact .of_idle h.params ⟨Memory.wf_writeRange hbits base X, hbytes, Memory.within_writeRange hbitsIn hfit,
    hbytesIn, hbv, hby⟩ h.widths h.status hidle

theorem State.Inv.writeBytes (h : s.Inv) (hidle : s.busy = false) {base : Nat} {P : List Byte}
    (hfit : base + P.length ≤ s.params.maxBytes ∨ P = []) : (s.writeBytes base P).Inv := by
  obtain ⟨hbits, hbytes, hbitsIn, hbytesIn, hbv, hby⟩ := h.memory
  exact .of_idle h.params ⟨hbits, Memory.wf_writeRange hbytes base P, hbitsIn,
    Memory.within_writeRange hbytesIn hfit, hbv, hby⟩ h.widths h.status hidle

@[simp] theorem freshBits_length (draw n : Nat) : (freshBits draw n).length = n := by simp [freshBits]

@[simp] theorem freshBytes_length (draw n : Nat) : (freshBytes draw n).length = n := by simp [freshBytes]

theorem State.Inv.hostSetBvLen (h : s.Inv) (hidle : s.busy = false) {n : Nat} (hn : n ≤ s.params.maxBits) :
    (s.hostSetBvLen n).Inv := by
  obtain ⟨-, -, -, -, hbv, -⟩ := h.memory
  have hwrite := h.writeBits hidle (base := s.bvLen) (X := freshBits s.draws (n - s.bvLen))
    (.inl (by rw [freshBits_length]; omega))
  obtain ⟨hbits, hbytes, hbitsIn, hbytesIn, -, hby⟩ := hwrite.memory
  exact .of_idle h.params ⟨hbits, hbytes, hbitsIn, hbytesIn, hn, hby⟩ h.widths h.status hidle

theorem State.Inv.hostSetByLen (h : s.Inv) (hidle : s.busy = false) {n : Nat} (hn : n ≤ s.params.maxBytes) :
    (s.hostSetByLen n).Inv := by
  obtain ⟨-, -, -, -, -, hby⟩ := h.memory
  have hwrite := h.writeBytes hidle (base := s.byLen) (P := freshBytes s.draws (n - s.byLen))
    (.inl (by rw [freshBytes_length]; omega))
  obtain ⟨hbits, hbytes, hbitsIn, hbytesIn, hbv, -⟩ := hwrite.memory
  exact .of_idle h.params ⟨hbits, hbytes, hbitsIn, hbytesIn, hbv, hn⟩ h.widths h.status hidle

theorem State.Inv.writeArgOff (h : s.Inv) (hidle : s.busy = false) {v : Nat} (hv : v < 2 ^ s.params.lenW) :
    State.Inv { s with argOff := v } := by
  obtain ⟨-, hwidths⟩ := h.widths
  exact .of_idle h.params h.memory ⟨hv, hwidths⟩ h.status hidle

theorem State.Inv.writeArgNbits (h : s.Inv) (hidle : s.busy = false) {v : Nat}
    (hv : v < 2 ^ s.params.lenW) : State.Inv { s with argNbits := v } := by
  obtain ⟨hoff, -, hwidths⟩ := h.widths
  exact .of_idle h.params h.memory ⟨hoff, hv, hwidths⟩ h.status hidle

theorem reset_statusOk : State.reset.statusOk := by decide

theorem reset_idle : State.reset.busy = false := by decide

theorem State.memoryOk_of_empty (hbits : s.bitMem = []) (hbytes : s.byteMem = []) (hbv : s.bvLen = 0)
    (hby : s.byLen = 0) : s.memoryOk := by
  simp [State.memoryOk, hbits, hbytes, hbv, hby]

/-- Reset empties both memories and both lengths, so it needs the parameters alone (R240). -/
theorem State.resetBlock_inv (hparams : s.params.wf) : s.resetBlock.Inv := by
  have hzero : 0 < 2 ^ s.params.lenW := by positivity
  have hmemory : s.resetBlock.memoryOk := State.memoryOk_of_empty rfl rfl rfl rfl
  obtain ⟨hres, -⟩ := reset_statusOk
  have hstored : s.resetBlock.Stored := ⟨hparams, hmemory, hzero, hzero, hres⟩
  exact .of_idle hparams hmemory (hstored.widthsOk_free rfl hzero) reset_statusOk reset_idle

theorem hostMove_inv {m : HostMove} (h : s.Inv) (hnext : hostMove m s = .next t) : t.Inv := by
  obtain ⟨-, -, -, -, hbv, hby⟩ := h.memory
  cases m with
  | read r =>
    simp only [hostMove] at hnext
    split at hnext
    · cases hnext; exact h.withHost _
    · cases hnext
  | writeBvLen n =>
    obtain ⟨hidle, hn, rfl⟩ := hostWrite_next.mp hnext
    exact h.hostSetBvLen hidle (by simpa using hn)
  | writeByLen n =>
    obtain ⟨hidle, hn, rfl⟩ := hostWrite_next.mp hnext
    exact h.hostSetByLen hidle (by simpa using hn)
  | writeArgOff v =>
    obtain ⟨hidle, hv, rfl⟩ := hostWrite_next.mp hnext
    exact h.writeArgOff hidle (by simpa using hv)
  | writeArgNbits v =>
    obtain ⟨hidle, hv, rfl⟩ := hostWrite_next.mp hnext
    exact h.writeArgNbits hidle (by simpa using hv)
  | writeBit i v =>
    obtain ⟨hidle, hi, rfl⟩ := hostWrite_next.mp hnext
    have hi : i < s.bvLen := by simpa using hi
    exact h.writeBits hidle (.inl (by simp; omega))
  | writeByte a v =>
    obtain ⟨hidle, ha, rfl⟩ := hostWrite_next.mp hnext
    have ha : a < s.byLen := by simpa using ha
    exact h.writeBytes hidle (.inl (by simp; omega))
  | writeCmd c => exact writeCmd_inv h hnext
  | reset => cases hnext; exact State.resetBlock_inv h.params

theorem hostTurn_inv (h : s.Inv) (hnext : hostTurn s = .next t) : t.Inv := by
  cases hm : s.host.moves with
  | nil => rw [hostTurn_nil hm] at hnext; cases hnext; exact h
  | cons m ms => rw [hostTurn_cons hm] at hnext; exact hostMove_inv (h.withHost _) hnext

/-! ### One step -/

theorem takeTurn_eq_withHost (s : State) : ∃ hs, (takeTurn s).2 = s.withHost hs := by
  unfold takeTurn
  split
  · exact ⟨s.host, rfl⟩
  · exact ⟨_, rfl⟩

theorem step_inv (h : s.Inv) (hnext : step s = .next t) : t.Inv := by
  obtain ⟨hs, hturn⟩ := takeTurn_eq_withHost s
  have hinv : (takeTurn s).2.Inv := hturn ▸ h.withHost hs
  rcases step_eq_turn s with heq | heq <;> rw [heq] at hnext
  · exact hostTurn_inv hinv hnext
  · exact engineTurn_inv hinv hnext

end Invariant

/-- Settles O41: a step is a turn of the host or of the engine, and each thing either can do keeps the
invariant. -/
theorem stepKeepsInv : Obligations.StepKeepsInv := fun _ _ => step_inv

/-- Settles O40: nothing is listed in either memory, and every register is 0. -/
theorem resetMeetsInv : Obligations.ResetMeetsInv :=
  .of_idle (by decide) (State.memoryOk_of_empty rfl rfl rfl rfl) (by decide) reset_statusOk reset_idle

end Sys2Proof.Machine
end

section
/-! PROOFS. What a command reads (R33, R210): the parameters, the vector, the buffer, the arguments and the reserved
bits of STATUS, and nothing else of the state. -/

namespace Sys2Proof.Machine

open Sys2Proof

/-- Two states that no command tells apart, with the same code in `CMD`. -/
structure SameInputs (s s' : State) : Prop where
  params   : s.params = s'.params
  bv       : s.bitVector = s'.bitVector
  by_      : s.byteBuffer = s'.byteBuffer
  argOff   : s.argOff = s'.argOff
  argNbits : s.argNbits = s'.argNbits
  reserved : s.reservedBits = s'.reservedBits
  cmd      : s.cmd = s'.cmd

section Effects

variable {s s' t t' : State}

theorem SameInputs.bvLen (h : SameInputs s s') : s.bvLen = s'.bvLen := by
  simpa using congrArg List.length h.bv

theorem SameInputs.byLen (h : SameInputs s s') : s.byLen = s'.byLen := by
  simpa using congrArg List.length h.by_

theorem SameInputs.storeBv (h : SameInputs s s') (X : List Bit) : SameInputs (s.storeBv X) (s'.storeBv X) :=
  ⟨h.params, by simp, h.by_, h.argOff, h.argNbits, h.reserved, h.cmd⟩

theorem SameInputs.storeBy (h : SameInputs s s') (P : List Byte) : SameInputs (s.storeBy P) (s'.storeBy P) :=
  ⟨h.params, h.bv, by simp, h.argOff, h.argNbits, h.reserved, h.cmd⟩

/-- Commands that end alike on such states have the same observable result. -/
theorem SameInputs.result_endCommand (h : SameInputs s s') (e : ErrKind) (info : Nat) :
    (s.endCommand e info).result = (s'.endCommand e info).result := by
  simp [State.result, State.endStatus, h.bv, h.by_, h.cmd, h.argOff, h.argNbits, h.reserved]

theorem explodeEffect_result (h : SameInputs s s') : (explodeEffect s).result = (explodeEffect s').result := by
  simp only [explodeEffect, State.explodeOutOfRange, decide_eq_true_eq, State.explodeSource, h.params, h.by_,
    h.argOff, h.argNbits, h.byLen]
  split_ifs
  · exact h.result_endCommand .range 0
  · exact h.result_endCommand .allocation 0
  · exact (h.storeBv _).result_endCommand .none 0

theorem implodeEffect_result (h : SameInputs s s') : (implodeEffect s).result = (implodeEffect s').result := by
  simp only [implodeEffect, State.implodeOutOfRange, decide_eq_true_eq, State.implodeSource, h.params, h.bv,
    h.argOff, h.argNbits, h.bvLen]
  split_ifs
  · exact h.result_endCommand .range 0
  · exact h.result_endCommand .allocation 0
  · exact (h.storeBy _).result_endCommand .none 0

theorem rleEncEffect_result (h : SameInputs s s') : (rleEncEffect s).result = (rleEncEffect s').result := by
  simp only [rleEncEffect, State.encodeOutOfRange, decide_eq_true_eq, State.encodeSource, h.params, h.bv,
    h.argNbits, h.bvLen]
  split_ifs
  · exact h.result_endCommand .range 0
  · exact h.result_endCommand .allocation 0
  · exact (h.storeBy _).result_endCommand .none 0

theorem rleDecEffect_result (h : SameInputs s s') : (rleDecEffect s).result = (rleDecEffect s').result := by
  simp only [rleDecEffect, State.decodeSource, h.params, h.by_]
  split
  · exact h.result_endCommand .malformed _
  · split
    · exact h.result_endCommand .allocation 0
    · exact (h.storeBv _).result_endCommand .none 0

/-- Issuing writes the same code in both states. -/
theorem issue_result {c : BitVec 2} {f : State → State}
    (hf : ∀ u u' : State, SameInputs u u' → (f u).result = (f u').result)
    (h : SameInputs (s.withCmd c) (s'.withCmd c)) (hs : issue c f s = .next t) (hs' : issue c f s' = .next t') :
    t.result = t'.result := by
  obtain ⟨-, rfl⟩ := (issue_next c f).mp hs
  obtain ⟨-, rfl⟩ := (issue_next c f).mp hs'
  exact hf _ _ h

end Effects

/-- Settles O45: each command's effect on states with the same inputs has the same observable result. -/
theorem commandSeesOnlyItsInputs : Obligations.CommandSeesOnlyItsInputs := by
  intro i s s' t t' hi hparams hbv hby hoff hnbits hres hs hs'
  have hsame : ∀ c, SameInputs (s.withCmd c) (s'.withCmd c) := fun _ =>
    ⟨hparams, hbv, hby, hoff, hnbits, hres, rfl⟩
  cases i with
  | explode => exact issue_result (fun _ _ => explodeEffect_result) (hsame 0#2) hs hs'
  | implode => exact issue_result (fun _ _ => implodeEffect_result) (hsame 1#2) hs hs'
  | rleEnc => exact issue_result (fun _ _ => rleEncEffect_result) (hsame 2#2) hs hs'
  | rleDec => exact issue_result (fun _ _ => rleDecEffect_result) (hsame 3#2) hs hs'
  | verb sc payload => cases hi
  | zrun => cases hi
  | run0 len => cases hi
  | run1 len => cases hi

/-- Issuing while a command runs is refused (R38). -/
theorem issue_busy (c : BitVec 2) (f : State → State) {s : State} (h : s.busy = true) :
    issue c f s = .refused .accessWhileBusy := by simp [issue, h]

/-- Settles O14: every command is issued, and issuing is refused while `BUSY = 1`. -/
theorem commandRefusedWhileBusy : Obligations.CommandRefusedWhileBusy := by
  intro i s hi hbusy
  cases i with
  | explode => exact issue_busy 0#2 explodeEffect hbusy
  | implode => exact issue_busy 1#2 implodeEffect hbusy
  | rleEnc => exact issue_busy 2#2 rleEncEffect hbusy
  | rleDec => exact issue_busy 3#2 rleDecEffect hbusy
  | verb sc payload => cases hi
  | zrun => cases hi
  | run0 len => cases hi
  | run1 len => cases hi

/-- Settles O38: the values of R39, register by register. -/
theorem resetValues : Obligations.ResetValues :=
  ⟨rfl, rfl, rfl, rfl, rfl, rfl, rfl, reset_idle, by decide, rfl, rfl⟩

end Sys2Proof.Machine
end

section
/-! PROOFS. The host port while the block is idle (R38): what a read returns, what a write changes, what is refused, and
the loading of a whole vector or buffer. -/

namespace Sys2Proof.Machine

open Sys2Proof

section Port

variable {s t u : State} {ms : List HostMove}

/-- With nothing scheduled, an idle block's step is the host's next move. -/
theorem step_unscheduled_move {m : HostMove} (hidle : s.busy = false) (hsched : s.host.schedule = [])
    (hmoves : s.host.moves = m :: ms) : step s = hostMove m (s.withHost { s.host with moves := ms }) := by
  rw [step_unscheduled hsched, hidle, if_neg (by decide), hostTurn_cons hmoves]
  rfl

/-- The host's next move is made on the block as it is; the host side has that move used up. -/
theorem step_of_hostMovesNext {m : HostMove} (h : HostMovesNext m ms s) :
    ∃ hs, hs.moves = ms ∧ step s = hostMove m (s.withHost hs) := by
  obtain ⟨hmoves, ⟨hsched, hidle⟩ | ⟨rest, hsched⟩⟩ := h
  · exact ⟨{ s.host with moves := ms }, rfl, step_unscheduled_move hidle hsched hmoves⟩
  · have hturn : takeTurn s = (.host, s.withHost { s.host with schedule := rest }) := by
      simp [takeTurn, hsched, State.withHost]
    refine ⟨{ s.host with schedule := rest, moves := ms }, rfl, ?_⟩
    rw [step, hturn]
    exact hostTurn_cons (s := s.withHost _) hmoves

/-- The host side and the count of draws are no part of the block (logs 2, 10). -/
theorem State.sameBlock_withHost_draws (s : State) (hs : HostSide) (draws : Nat) :
    SameBlock s { s.withHost hs with draws := draws } :=
  ⟨rfl, rfl, rfl, rfl, rfl, rfl, rfl, rfl, rfl, rfl, rfl⟩

/-! ### Writes -/

theorem hostWrite_of_idle {ok : Bool} {why : Refusal} (hidle : s.busy = false) (hok : ok = true) :
    hostWrite ok why u s = .next u := hostWrite_next.mpr ⟨hidle, hok, rfl⟩

theorem hostWrite_refused {ok : Bool} {why : Refusal} (hidle : s.busy = false) (hok : ok = false) :
    hostWrite ok why u s = .refused why := by simp [hostWrite, hidle, hok]

theorem State.bit_writeBits_singleton_same (s : State) (i : Nat) (v : Bit) : (s.writeBits i [v]).bit i = v := by
  simp [State.bit_writeBits]

theorem State.bit_writeBits_singleton_ne (s : State) {i j : Nat} (v : Bit) (h : j ≠ i) :
    (s.writeBits i [v]).bit j = s.bit j := by
  rw [State.bit_writeBits, dif_neg (by simp; omega)]

theorem State.byte_writeBytes_singleton_same (s : State) (a : Nat) (v : Byte) :
    (s.writeBytes a [v]).byte a = v := by
  simp [State.byte_writeBytes]

theorem State.byte_writeBytes_singleton_ne (s : State) {a j : Nat} (v : Byte) (h : j ≠ a) :
    (s.writeBytes a [v]).byte j = s.byte j := by
  rw [State.byte_writeBytes, dif_neg (by simp; omega)]

/-- Fresh values enter at the old length, so nothing below it changes (U8). -/
theorem State.bit_hostSetBvLen_of_lt (s : State) (n : Nat) {i : Nat} (h : i < s.bvLen) :
    (s.hostSetBvLen n).bit i = s.bit i := by
  have hwrite := s.bit_writeBits s.bvLen (freshBits s.draws (n - s.bvLen)) i
  rwa [dif_neg (by omega)] at hwrite

theorem State.byte_hostSetByLen_of_lt (s : State) (n : Nat) {a : Nat} (h : a < s.byLen) :
    (s.hostSetByLen n).byte a = s.byte a := by
  have hwrite := s.byte_writeBytes s.byLen (freshBytes s.draws (n - s.byLen)) a
  rwa [dif_neg (by omega)] at hwrite

/-! ### Reads -/

theorem hostRead_withHost (r : HostRead) (s : State) (hs : HostSide) :
    hostRead r (s.withHost hs) = hostRead r s := by cases r <;> rfl

/-- A read that has a meaning changes the host's read value alone. -/
theorem step_read {r : HostRead} {v : Nat} (h : HostMovesNext (.read r) ms s) (hread : hostRead r s = .ok v) :
    ∃ t, step s = .next t ∧ SameBlock s t ∧ t.host.readData = v := by
  obtain ⟨hs, -, hstep⟩ := step_of_hostMovesNext h
  refine ⟨s.withHost { hs with readData := v }, ?_,
    s.sameBlock_withHost_draws { hs with readData := v } s.draws, rfl⟩
  rw [hstep, hostMove, hostRead_withHost, hread]
  rfl

theorem step_read_refused {r : HostRead} {why : Refusal} (h : HostMovesNext (.read r) ms s)
    (hread : hostRead r s = .error why) : step s = .refused why := by
  obtain ⟨hs, -, hstep⟩ := step_of_hostMovesNext h
  rw [hstep, hostMove, hostRead_withHost, hread]

end Port

/-- Settles O51: what each read returns while the block is idle. -/
theorem hostReadsWhileIdle : Obligations.HostReadsWhileIdle := by
  refine ⟨fun s ms i hidle => ⟨fun hm hout => ?_, fun hm hout => ?_⟩, fun s ms r hidle hm hin => ?_⟩
  · exact step_read_refused hm (by simp [hostRead, hidle, hout])
  · exact step_read_refused hm (by simp [hostRead, hidle, hout])
  · cases r with
    | bit i => exact step_read hm (by simp only [hostRead, hidle]; exact if_pos hin)
    | byte a => exact step_read hm (by simp only [hostRead, hidle]; exact if_pos hin)
    | _ => exact step_read hm (by simp [hostRead, hidle])

/-- Settles O49: each write is a host write of an idle block, within its bound or refused. -/
theorem hostWritesWhileIdle : Obligations.HostWritesWhileIdle := by
  intro s ms hidle
  refine ⟨fun i v hm => ?_, fun a v hm => ?_, fun v hm => ?_, fun v hm => ?_⟩
  · obtain ⟨hs, -, hstep⟩ := step_of_hostMovesNext hm
    rw [hstep]
    exact ⟨fun hin => ⟨_, hostWrite_of_idle hidle (decide_eq_true hin),
        State.bit_writeBits_singleton_same _ i v, fun _ => State.bit_writeBits_singleton_ne _ v,
        s.sameBlock_withHost_draws hs _⟩,
      fun hout => hostWrite_refused hidle (decide_eq_false (Nat.not_lt.mpr hout))⟩
  · obtain ⟨hs, -, hstep⟩ := step_of_hostMovesNext hm
    rw [hstep]
    exact ⟨fun hin => ⟨_, hostWrite_of_idle hidle (decide_eq_true hin),
        State.byte_writeBytes_singleton_same _ a v, fun _ => State.byte_writeBytes_singleton_ne _ v,
        s.sameBlock_withHost_draws hs _⟩,
      fun hout => hostWrite_refused hidle (decide_eq_false (Nat.not_lt.mpr hout))⟩
  · obtain ⟨hs, -, hstep⟩ := step_of_hostMovesNext hm
    rw [hstep]
    exact ⟨fun hin => ⟨_, hostWrite_of_idle hidle (decide_eq_true hin), rfl, s.sameBlock_withHost_draws hs _⟩,
      fun hout => hostWrite_refused hidle (decide_eq_false (Nat.not_lt.mpr hout))⟩
  · obtain ⟨hs, -, hstep⟩ := step_of_hostMovesNext hm
    rw [hstep]
    exact ⟨fun hin => ⟨_, hostWrite_of_idle hidle (decide_eq_true hin), rfl, s.sameBlock_withHost_draws hs _⟩,
      fun hout => hostWrite_refused hidle (decide_eq_false (Nat.not_lt.mpr hout))⟩

/-- Settles O50: a length write of an idle block changes no cell or byte below the old length. -/
theorem hostWritesLengths : Obligations.HostWritesLengths := by
  intro s n ms hidle
  refine ⟨fun hm => ?_, fun hm => ?_⟩
  · obtain ⟨hs, -, hstep⟩ := step_of_hostMovesNext hm
    rw [hstep]
    exact ⟨fun hin => ⟨_, hostWrite_of_idle hidle (decide_eq_true hin), rfl,
        fun _ => (s.withHost hs).bit_hostSetBvLen_of_lt n, s.sameBlock_withHost_draws hs _⟩,
      fun hout => hostWrite_refused hidle (decide_eq_false (Nat.not_le.mpr hout))⟩
  · obtain ⟨hs, -, hstep⟩ := step_of_hostMovesNext hm
    rw [hstep]
    exact ⟨fun hin => ⟨_, hostWrite_of_idle hidle (decide_eq_true hin), rfl,
        fun _ => (s.withHost hs).byte_hostSetByLen_of_lt n, s.sameBlock_withHost_draws hs _⟩,
      fun hout => hostWrite_refused hidle (decide_eq_false (Nat.not_le.mpr hout))⟩

end Sys2Proof.Machine
end

section
/-! PROOFS. Loading a whole vector or buffer by the host's moves (R38, R242): the length first, then one move a cell or
byte, one step a move. -/

namespace Sys2Proof.Machine

open Sys2Proof

/-- The values `vs` written one at a time from `base` on. -/
def Memory.writeEach {α : Type} (m : Memory α) (base : Nat) : List α → Memory α
  | [] => m
  | v :: vs => Memory.writeEach (m.writeRange base [v]) (base + 1) vs

/-- Writing one at a time leaves what writing the range at once does. -/
theorem Memory.get?_writeEach {α : Type} (vs : List α) (m : Memory α) (base a : Nat) :
    (m.writeEach base vs).get? a = (m.writeRange base vs).get? a := by
  induction vs generalizing m base with
  | nil => simp [Memory.writeEach, Memory.get?_writeRange]
  | cons v vs ih =>
    simp only [Memory.writeEach, ih, Memory.get?_writeRange, List.length_cons, List.length_nil]
    rcases Nat.lt_trichotomy a base with h | rfl | h
    · rw [if_neg (by omega), if_neg (by omega), if_neg (by omega)]
    · rw [if_neg (by omega), if_pos (by omega), if_pos (by omega)]
      simp
    · obtain ⟨k, rfl⟩ : ∃ k, a = base + 1 + k := ⟨a - (base + 1), by omega⟩
      have hidx : base + 1 + k - base = k + 1 := by omega
      by_cases hk : k < vs.length
      · rw [if_pos (by omega), if_pos (by omega), hidx]
        simp
      · rw [if_neg (by omega), if_neg (by omega), if_neg (by omega)]

section Runs

variable {s u : State} {ms : List HostMove}

theorem run_succ_of_step (k : Nat) (h : step s = .next u) :
    Host.Core.run core (k + 1) s = Host.Core.run core k u := by
  have hstep : core.step s = .next u := h
  simp [Host.Core.run, hstep]

/-- Writing cells below `BV_LEN`, one step a cell. -/
theorem run_bitMoves (vs : List Bit) {base : Nat} (hidle : s.busy = false) (hsched : s.host.schedule = [])
    (hmoves : s.host.moves = bitMoves base vs ++ ms) (hfit : base + vs.length ≤ s.bvLen) :
    Host.Core.run core vs.length s = .next
      { s with bitMem := s.bitMem.writeEach base vs, host := { s.host with moves := ms } } := by
  induction vs generalizing s base with
  | nil => obtain rfl : s.host.moves = ms := hmoves; rfl
  | cons v vs ih =>
    rw [List.length_cons] at hfit ⊢
    have hwrite := (step_unscheduled_move hidle hsched hmoves).trans
      (hostWrite_of_idle hidle (decide_eq_true (show base < s.bvLen by omega)))
    rw [run_succ_of_step vs.length hwrite]
    exact ih hidle hsched rfl (show base + 1 + vs.length ≤ s.bvLen by omega)

/-- Writing bytes below `BY_LEN`, one step a byte. -/
theorem run_byteMoves (vs : List Byte) {base : Nat} (hidle : s.busy = false) (hsched : s.host.schedule = [])
    (hmoves : s.host.moves = byteMoves base vs ++ ms) (hfit : base + vs.length ≤ s.byLen) :
    Host.Core.run core vs.length s = .next
      { s with byteMem := s.byteMem.writeEach base vs, host := { s.host with moves := ms } } := by
  induction vs generalizing s base with
  | nil => obtain rfl : s.host.moves = ms := hmoves; rfl
  | cons v vs ih =>
    rw [List.length_cons] at hfit ⊢
    have hwrite := (step_unscheduled_move hidle hsched hmoves).trans
      (hostWrite_of_idle hidle (decide_eq_true (show base < s.byLen by omega)))
    rw [run_succ_of_step vs.length hwrite]
    exact ih hidle hsched rfl (show base + 1 + vs.length ≤ s.byLen by omega)

/-- A vector is told by its length and its cells, however they were written. -/
theorem bitVector_of_writeEach {t : State} {m : Memory Bit} {X : List Bit} (hlen : t.bvLen = X.length)
    (hmem : t.bitMem = m.writeEach 0 X) : t.bitVector = X := by
  refine List.ext_getElem (by simp [hlen]) fun i _ hi => ?_
  simp [State.bitVector, State.bit, hmem, Memory.get?_writeEach, Memory.get?_writeRange, hi]

theorem byteBuffer_of_writeEach {t : State} {m : Memory Byte} {P : List Byte} (hlen : t.byLen = P.length)
    (hmem : t.byteMem = m.writeEach 0 P) : t.byteBuffer = P := by
  refine List.ext_getElem (by simp [hlen]) fun i _ hi => ?_
  simp [State.byteBuffer, State.byte, hmem, Memory.get?_writeEach, Memory.get?_writeRange, hi]

end Runs

/-- Settles O53: the length write makes room, and every cell (byte) is then written in place. -/
theorem hostLoadsAnyVectorAndBuffer : Obligations.HostLoadsAnyVectorAndBuffer := by
  intro s ms hidle hsched
  refine ⟨fun X hX hmoves => ?_, fun P hP hmoves => ?_⟩
  · have hlength := (step_unscheduled_move hidle hsched hmoves).trans
      (hostWrite_of_idle hidle (decide_eq_true hX))
    have hcells := run_bitMoves (ms := ms) X (base := 0)
      (s := (s.withHost { s.host with moves := bitMoves 0 X ++ ms }).hostSetBvLen X.length) hidle hsched rfl
      (Nat.zero_add X.length).le
    rw [Nat.add_comm 1]
    exact ⟨_, (run_succ_of_step X.length hlength).trans hcells, bitVector_of_writeEach rfl rfl, rfl,
      hidle, rfl, rfl, rfl⟩
  · have hlength := (step_unscheduled_move hidle hsched hmoves).trans
      (hostWrite_of_idle hidle (decide_eq_true hP))
    have hcells := run_byteMoves (ms := ms) P (base := 0)
      (s := (s.withHost { s.host with moves := byteMoves 0 P ++ ms }).hostSetByLen P.length) hidle hsched rfl
      (Nat.zero_add P.length).le
    rw [Nat.add_comm 1]
    exact ⟨_, (run_succ_of_step P.length hlength).trans hcells, byteBuffer_of_writeEach rfl rfl, rfl,
      hidle, rfl, rfl, rfl⟩

end Sys2Proof.Machine
end

section
/-! PROOFS. What the engine leaves alone while it runs: the operand registers (R26), the byte memory when the command
reads bytes and the bit memory when it reads bits (R58, R61). -/

namespace Sys2Proof.Machine

open Sys2Proof

/-- `t` has the operand registers of `s` (R25, R26). -/
structure KeepsOperands (s t : State) : Prop where
  cmd      : t.cmd = s.cmd
  argOff   : t.argOff = s.argOff
  argNbits : t.argNbits = s.argNbits

/-- `t` also has the byte memory and `BY_LEN` of `s`: the source of EXPLODE and of RLE_DEC. -/
structure KeepsBytes (s t : State) : Prop extends KeepsOperands s t where
  byteMem : t.byteMem = s.byteMem
  byLen   : t.byLen = s.byLen

/-- `t` also has the bit memory and `BV_LEN` of `s`: the source of IMPLODE and of RLE_ENC. -/
structure KeepsBits (s t : State) : Prop extends KeepsOperands s t where
  bitMem : t.bitMem = s.bitMem
  bvLen  : t.bvLen = s.bvLen

section Engine

variable {s t : State}

/-! ### The commands that read bytes -/

theorem explodeEffect_keepsBytes (s : State) : KeepsBytes s (explodeEffect s) := by
  rcases explodeEffect_cases s with ⟨_, h⟩ | ⟨_, _, h⟩ | ⟨_, _, h⟩ <;> exact h ▸ ⟨⟨rfl, rfl, rfl⟩, rfl, rfl⟩

theorem applyToken_keepsBytes {bits : List Bit} {stride : Nat} (h : applyToken bits stride s = .next t) :
    KeepsBytes s t := by
  rcases applyToken_next h with ⟨_, rfl⟩ | ⟨_, _, rfl⟩ <;> exact ⟨⟨rfl, rfl, rfl⟩, rfl, rfl⟩

theorem decTurn_keepsBytes (s : State) : KeepsBytes s (decTurn s) := by
  rcases decTurn_cases s with ⟨_, h⟩ | ⟨_, h⟩ <;> exact h ▸ ⟨⟨rfl, rfl, rfl⟩, rfl, rfl⟩

/-- A decoded token only counts or writes its bits, so it is never a command that would write `CMD`. -/
theorem decStep_keepsBytes (h : decStep s = .next t) : KeepsBytes s t := by
  rcases decStep_next h with ⟨hlt, i, rest, hfetch, hexec⟩ | ⟨_, _, _, rfl⟩ | ⟨_, _, rfl⟩ | ⟨_, _, rfl⟩
  · obtain ⟨bits, stride, -, -, -, happly⟩ := exec_fetched hlt hfetch
    exact applyToken_keepsBytes (happly ▸ hexec)
  · exact ⟨⟨rfl, rfl, rfl⟩, rfl, rfl⟩
  · exact decTurn_keepsBytes s
  · exact ⟨⟨rfl, rfl, rfl⟩, rfl, rfl⟩

/-! ### The commands that read bits -/

theorem implodeEffect_keepsBits (s : State) : KeepsBits s (implodeEffect s) := by
  rcases implodeEffect_cases s with ⟨_, h⟩ | ⟨_, _, h⟩ | ⟨_, _, h⟩ <;> exact h ▸ ⟨⟨rfl, rfl, rfl⟩, rfl, rfl⟩

theorem EncoderWrote.keepsBits (h : EncoderWrote s t) : KeepsBits s t := by
  rw [h.frame]
  exact ⟨⟨rfl, rfl, rfl⟩, rfl, rfl⟩

/-- One turn of the loop is some writing and then an update of internal registers, in any state. -/
theorem encIteration_encoderWrote (s : State) :
    ∃ u e, EncoderWrote s u ∧ encIteration s = u.withEng e := by
  refine ⟨_, _, ?_, rfl⟩
  split
  · exact s.flushIfPending_encoderWrote.trans (State.emit_encoderWrote _ _)
  · exact State.appendRun_encoderWrote _ _ s

theorem encStep_keepsBits (h : encStep s = .next t) : KeepsBits s t := by
  rcases encStep_next h with ⟨_, rfl, _⟩ | ⟨_, _, rfl⟩
  · obtain ⟨u, e, hwrote, heq⟩ := encIteration_encoderWrote s
    obtain ⟨⟨hcmd, hoff, hnbits⟩, hmem, hlen⟩ := hwrote.keepsBits
    exact heq ▸ ⟨⟨hcmd, hoff, hnbits⟩, hmem, hlen⟩
  · obtain ⟨⟨hcmd, hoff, hnbits⟩, hmem, hlen⟩ := s.flushIfPending_encoderWrote.keepsBits
    exact ⟨⟨hcmd, hoff, hnbits⟩, hmem, hlen⟩

/-! ### The running command -/

/-- A step of the engine leaves the operands and the source of the command it runs. -/
theorem engineStep_keepsSource (h : engineStep s = .next t) :
    ((s.cmd = 0#2 ∨ s.cmd = 3#2) ∧ KeepsBytes s t) ∨ ((s.cmd = 1#2 ∨ s.cmd = 2#2) ∧ KeepsBits s t) := by
  rcases engineStep_cases s with ⟨hcmd, heq⟩ | ⟨hcmd, heq⟩ | ⟨hcmd, heq⟩ | ⟨hcmd, heq⟩ <;> rw [heq] at h
  · cases h; exact .inl ⟨.inl hcmd, explodeEffect_keepsBytes s⟩
  · cases h; exact .inr ⟨.inl hcmd, implodeEffect_keepsBits s⟩
  · exact .inr ⟨.inr hcmd, encStep_keepsBits h⟩
  · exact .inl ⟨.inr hcmd, decStep_keepsBytes h⟩

end Engine

/-- No code is that of a command that reads bytes and of one that reads bits. -/
theorem code_sources_disjoint :
    ∀ c : BitVec 2, (c = 0#2 ∨ c = 3#2) → ¬ (c = 1#2 ∨ c = 2#2) := by decide

/-- Settles O46: such a step is a step of the engine, and the command it runs has one source. -/
theorem engineLeavesItsSourceAlone : Obligations.EngineLeavesItsSourceAlone := by
  intro s t hruns hstep
  obtain ⟨hs, hengine⟩ := step_of_engineRuns hruns
  rw [hengine] at hstep
  rcases engineStep_keepsSource hstep with
    ⟨hcode, ⟨hcmd, hoff, hnbits⟩, hmem, hlen⟩ | ⟨hcode, ⟨hcmd, hoff, hnbits⟩, hmem, hlen⟩
  · exact ⟨hcmd, hoff, hnbits, fun _ => ⟨hmem, hlen⟩, fun hbits => absurd hbits (code_sources_disjoint _ hcode)⟩
  · exact ⟨hcmd, hoff, hnbits, fun hbytes => absurd hcode (code_sources_disjoint _ hbytes), fun _ => ⟨hmem, hlen⟩⟩

end Sys2Proof.Machine
end

section
/-! PROOFS. The stops of the tokens: a write past the capacity (R51), and a verbatim term that is no token (R72). -/

namespace Sys2Proof.Machine

open Sys2Proof

/-- In pass 2 bits that do not fit below `MAX_BITS` are not written: the machine stops. -/
theorem applyToken_outside {bits : List Bit} (stride : Nat) {s : State} (hbits : 0 < bits.length)
    (hpass : s.eng.decPass = .materialise) (hout : s.params.maxBits < s.eng.wrCur + bits.length) :
    applyToken bits stride s = .fault .bitAddressOutside := by
  simp [applyToken, hpass, hbits, hout]

/-- Pass 2 does not test the end of the token again: on a payload of the right length VERB writes its bits. -/
theorem execVerb_materialise {sc : Byte} {payload : List Byte} {s : State}
    (hpayload : payload.length = ceil8 (verbCount sc)) (hpass : s.eng.decPass = .materialise) :
    execVerb sc payload s = applyToken (verbBits sc payload) (verbStride sc) s := by
  simp [execVerb, hpayload, hpass]

theorem execVerb_illFormed {sc : Byte} {payload : List Byte} (s : State)
    (hpayload : payload.length ≠ ceil8 (verbCount sc)) : execVerb sc payload s = .refused .illFormedToken :=
  if_pos hpayload

/-- Settles O30: a run token of positive length and a verbatim token stand for at least one bit, so both reach the
stop of their common meaning; a payload of another length is refused before the pass is looked at. -/
theorem tokenStops : Obligations.TokenStops := by
  refine ⟨fun len s hlen hpass hout => ?_, fun sc payload s hpayload hpass hout => ?_,
    fun sc payload s hpayload => execVerb_illFormed s hpayload⟩
  · have hpos : 0 < len.toNat := by bv_omega
    have hstop (v : Bit) : applyToken (runBits v len) 1 s = .fault .bitAddressOutside :=
      applyToken_outside 1 (by simpa using hpos) hpass (by simpa using hout)
    exact ⟨hstop false, hstop true⟩
  · have hcount : 0 < (verbBits sc payload).length := by simp [verbCount]
    exact (execVerb_materialise hpayload hpass).trans
      (applyToken_outside (verbStride sc) hcount hpass (by simpa using hout))

end Sys2Proof.Machine
end

section
/-! PROOFS. The first-byte map of the tokens (R75) and what the decoder reads after each first byte (R73, R78). -/

namespace Sys2Proof.Machine

open Sys2Proof

/-! ### Match and mask -/

theorem and_fullMask (b : Byte) : b &&& 0xFF#8 = b := BitVec.and_allOnes

/-- The mask of a run token's value bit (R71) keeps bit 7. -/
theorem and_valueMask_toNat (b : Byte) : (b &&& 0x80#8).toNat = b.toNat / 128 * 128 := by
  have hbit : (b.toNat.testBit 7).toNat = b.toNat / 128 := by
    have := b.isLt
    rw [Nat.toNat_testBit]
    omega
  rw [BitVec.toNat_and, ← hbit]
  exact Nat.and_two_pow b.toNat 7

theorem and_valueMask_eq_zero_iff (b : Byte) : b &&& 0x80#8 = 0x00#8 ↔ b.toNat < 128 := by
  rw [← BitVec.toNat_inj, and_valueMask_toNat, BitVec.toNat_ofNat]
  omega

theorem and_valueMask_eq_self_iff (b : Byte) : b &&& 0x80#8 = 0x80#8 ↔ 128 ≤ b.toNat := by
  have := b.isLt
  rw [← BitVec.toNat_inj, and_valueMask_toNat, BitVec.toNat_ofNat]
  omega

/-! ### The kind of a first byte, by ranges -/

section FirstByte

variable {b : Byte}

theorem firstByteKind_eq_verb_iff : firstByteKind b = .verb ↔ b = 0x80#8 := by
  simp only [firstByteKind, SENTINEL, and_fullMask]
  split_ifs <;> simp_all

theorem firstByteKind_eq_zrun_iff : firstByteKind b = .zrun ↔ b = 0x00#8 := by
  simp only [firstByteKind, SENTINEL, and_fullMask]
  split_ifs <;> simp_all

theorem firstByteKind_eq_run0_iff : firstByteKind b = .run0 ↔ 0 < b.toNat ∧ b.toNat < 128 := by
  simp only [firstByteKind, SENTINEL, and_fullMask, and_valueMask_eq_zero_iff]
  split_ifs <;> simp <;> bv_omega

theorem firstByteKind_eq_run1_iff : firstByteKind b = .run1 ↔ 128 < b.toNat := by
  simp only [firstByteKind, SENTINEL, and_fullMask, and_valueMask_eq_zero_iff]
  split_ifs <;> simp <;> bv_omega

/-! ### The token behind each kind -/

/-- The length field of a run token is the byte less its value bit (R71). -/
theorem lengthField_toNat (b : Byte) : (b.extractLsb' 0 7).toNat = b.toNat % 128 := by simp

theorem decodeToken_zrun (rest : List Byte) : decodeToken (0x00#8 :: rest) = .ok (.zrun, rest) := rfl

theorem decodeToken_run0 (hpos : 0 < b.toNat) (hlt : b.toNat < 128) (rest : List Byte) :
    decodeToken (b :: rest) = .ok (.run0 (b.extractLsb' 0 7), rest) := by
  simp [decodeToken, firstByteKind_eq_run0_iff.mpr ⟨hpos, hlt⟩]

theorem decodeToken_run1 (hlt : 128 < b.toNat) (rest : List Byte) :
    decodeToken (b :: rest) = .ok (.run1 (b.extractLsb' 0 7), rest) := by
  simp [decodeToken, firstByteKind_eq_run1_iff.mpr hlt]

/-- Every first byte but the sentinel is a token by itself (R73). -/
theorem decodeToken_of_ne_sentinel (hb : b ≠ 0x80#8) (rest : List Byte) :
    ∃ i, decodeToken (b :: rest) = .ok (i, rest) := by
  cases hkind : firstByteKind b with
  | verb => exact absurd (firstByteKind_eq_verb_iff.mp hkind) hb
  | zrun =>
    obtain rfl := firstByteKind_eq_zrun_iff.mp hkind
    exact ⟨_, decodeToken_zrun rest⟩
  | run0 =>
    obtain ⟨hpos, hlt⟩ := firstByteKind_eq_run0_iff.mp hkind
    exact ⟨_, decodeToken_run0 hpos hlt rest⟩
  | run1 => exact ⟨_, decodeToken_run1 (firstByteKind_eq_run1_iff.mp hkind) rest⟩

end FirstByte

/-- After a sentinel the count byte alone says how many bytes are payload; they are read as they are (R78). -/
theorem decodeToken_verb {sc : Byte} {payload : List Byte} (hp : payload.length = ceil8 (verbCount sc))
    (rest : List Byte) :
    decodeToken (0x80#8 :: sc :: payload ++ rest) = .ok (.verb sc payload, rest) := by
  simp [decodeToken, firstByteKind_eq_verb_iff.mpr, ← hp]

/-- A sentinel starts a token only where the count byte and the payload are there (R165). -/
theorem decodeToken_sentinel_ok {rest : List Byte} {v : Instr × List Byte}
    (h : decodeToken (0x80#8 :: rest) = .ok v) :
    ∃ sc more, rest = sc :: more ∧ ceil8 (verbCount sc) ≤ more.length := by
  have hkind : firstByteKind 0x80#8 = .verb := firstByteKind_eq_verb_iff.mpr rfl
  cases rest with
  | nil => simp [decodeToken, hkind] at h
  | cons sc more =>
    by_cases hfit : ceil8 (verbCount sc) ≤ more.length
    · exact ⟨sc, more, rfl, hfit⟩
    · simp [decodeToken, hkind, hfit] at h

/-! ### The obligations -/

/-- No first byte is illegal (R75): the sentinel goes on with a count byte and its payload, and every other byte is
enough by itself. -/
theorem decodeToken_total (b : Byte) : ∃ more v, decodeToken (b :: more) = .ok v := by
  by_cases hb : b = 0x80#8
  · subst hb
    exact ⟨[0x00#8, 0x00#8], _, decodeToken_verb (sc := 0x00#8) (payload := [0x00#8]) (by decide) []⟩
  · obtain ⟨i, hi⟩ := decodeToken_of_ne_sentinel hb []
    exact ⟨[], _, hi⟩

/-- Settles O4: the ranges of the first byte are those of the match and mask tests, tried in their order, and the
decoder reads the token of the kind they select. -/
theorem firstByteSelectsTheKind : Obligations.FirstByteSelectsTheKind := by
  intro b rest
  refine ⟨fun hzero => ?zrun, fun hpos hle => ?run0, fun hsent sc payload hp => ?verb, fun hge => ?run1,
    ?verbMask, ?zrunMask, ?run0Mask, ?run1Mask, decodeToken_total b⟩
  case zrun =>
    obtain rfl : b = 0x00#8 := BitVec.eq_of_toNat_eq hzero
    exact decodeToken_zrun rest
  case run0 =>
    exact ⟨_, by rw [lengthField_toNat]; omega, decodeToken_run0 (by omega) (by omega) rest⟩
  case verb =>
    obtain rfl : b = 0x80#8 := BitVec.eq_of_toNat_eq hsent
    exact decodeToken_verb hp rest
  case run1 =>
    have := b.isLt
    exact ⟨_, by rw [lengthField_toNat]; omega, decodeToken_run1 (by omega) rest⟩
  case verbMask => rw [and_fullMask, firstByteKind_eq_verb_iff]
  case zrunMask => rw [and_fullMask, firstByteKind_eq_zrun_iff]
  case run0Mask =>
    rw [and_fullMask, and_valueMask_eq_zero_iff, firstByteKind_eq_run0_iff]
    bv_omega
  case run1Mask =>
    rw [and_fullMask, and_valueMask_eq_self_iff, firstByteKind_eq_run1_iff]
    bv_omega

/-- Settles O5: one byte, or `2 + ceil8(sc + 1)` after the sentinel, whatever the payload bytes are. -/
theorem strideFromFirstBytes : Obligations.StrideFromFirstBytes := by
  refine fun b rest => ⟨fun hb => decodeToken_of_ne_sentinel hb rest, ?_, ?_⟩
  · rintro sc payload rfl hstride
    have hp : payload.length = ceil8 (verbCount sc) := by
      simp only [List.length_cons] at hstride
      unfold verbCount
      omega
    exact decodeToken_verb hp rest
  · rintro rfl ⟨v, hv⟩
    exact decodeToken_sentinel_ok hv

/-- Settles O1: the codes are the four cases of `decodeCmd`, and each token word is read by the rule of its kind. -/
theorem wordsFromTheTablesDecode : Obligations.WordsFromTheTablesDecode :=
  ⟨rfl, rfl, rfl, rfl,
    decodeToken_run0 (by decide) (by decide) [],
    decodeToken_run1 (by decide) [0x55#8],
    decodeToken_zrun [],
    decodeToken_verb (sc := 0x07#8) (payload := [0x75#8]) (by decide) []⟩

end Sys2Proof.Machine
end

section
/-! PROOFS. EXPLODE from every idle state (R102, R103), with what the end of a command does in each outcome. -/

namespace Sys2Proof.Machine

open Sys2Proof

section Outcomes

variable {s t : State}

/-! ### The end of a command -/

theorem endCommand_endedWith (s : State) (e : ErrKind) (info : Nat) : EndedWith e info (s.endCommand e info) :=
  ⟨s.errCode_endCommand e info, rfl, s.busy_endCommand e info⟩

/-- An error taken by a command that has written only `CMD` is error entry from the state of its issue (R217). -/
theorem endCommand_errorEntry (s : State) (c : BitVec 2) (e : ErrKind) (info : Nat) :
    ErrorEntry e info s ((s.withCmd c).endCommand e info) :=
  ⟨endCommand_endedWith _ e info, ⟨rfl, rfl, State.reservedBits_endCommand _ e info, rfl, rfl, rfl⟩,
    rfl, rfl, rfl, rfl⟩

theorem storeBv_endCommand_keptByCommand (s : State) (c : BitVec 2) (X : List Bit) (e : ErrKind) (info : Nat) :
    KeptByCommand s (((s.withCmd c).storeBv X).endCommand e info) :=
  ⟨rfl, rfl, State.reservedBits_endCommand _ e info, rfl, rfl, rfl⟩

theorem storeBv_endCommand_bvBecame (s : State) (c : BitVec 2) (X : List Bit) (e : ErrKind) (info : Nat) :
    BvBecame X s (((s.withCmd c).storeBv X).endCommand e info) :=
  ⟨rfl, (s.withCmd c).bit_storeBv X, rfl, rfl⟩

/-! ### The source operand of EXPLODE -/

/-- A packed bit of the current buffer is a bit of the byte memory (R52). -/
theorem packedBit_byteBuffer {k : Nat} (hk : k < 8 * s.byLen) :
    packedBit s.byteBuffer k = (s.byte (k / 8)).getLsbD (7 - k % 8) := by
  have hbyte : k / 8 < s.byteBuffer.length := by rw [s.byteBuffer_length]; omega
  rw [packedBit, List.getD_eq_getElem _ _ hbyte]
  simp [State.byteBuffer]

/-! ### The three branches of EXPLODE -/

theorem exec_explode_of_idle (hidle : s.busy = false) (heff : explodeEffect (s.withCmd 0#2) = t) :
    exec .explode s = .next t := (issue_next 0#2 explodeEffect).mpr ⟨hidle, heff.symm⟩

theorem explodeEffect_of_outOfRange (hout : 8 * s.byLen < s.argOff + s.argNbits) :
    explodeEffect s = s.endCommand .range 0 :=
  ((explodeEffect_cases s).resolve_right fun h => by omega).2

theorem explodeEffect_of_tooLong (hin : s.argOff + s.argNbits ≤ 8 * s.byLen)
    (hlong : s.params.maxBits < s.argNbits) : explodeEffect s = s.endCommand .allocation 0 :=
  (((explodeEffect_cases s).resolve_left fun h => by omega).resolve_right fun h => by omega).2.2

theorem explodeEffect_of_fits (hin : s.argOff + s.argNbits ≤ 8 * s.byLen) (hfit : s.argNbits ≤ s.params.maxBits) :
    explodeEffect s = (s.storeBv (unpack s.byteBuffer s.argOff s.argNbits)).endCommand .none 0 :=
  (((explodeEffect_cases s).resolve_left fun h => by omega).resolve_left fun h => by omega).2.2

end Outcomes

/-- Settles O8: one branch of EXPLODE for each clause. In the third, the range test places the packed bit of every
cell below `n` in a byte of the buffer. -/
theorem explodeOutcome : Obligations.ExplodeOutcome := by
  refine fun s hidle => ⟨fun hout => ?range, fun hin hlong => ?allocation, fun hin hfit => ?unpacked⟩
  case range =>
    exact ⟨_, exec_explode_of_idle hidle (explodeEffect_of_outOfRange hout), rfl,
      endCommand_errorEntry s 0#2 .range 0⟩
  case allocation =>
    exact ⟨_, exec_explode_of_idle hidle (explodeEffect_of_tooLong hin hlong), rfl,
      endCommand_errorEntry s 0#2 .allocation 0⟩
  case unpacked =>
    obtain ⟨hlen, hcells, hbyteMem, hbyLen⟩ :=
      storeBv_endCommand_bvBecame s 0#2 (unpack s.byteBuffer s.argOff s.argNbits) .none 0
    refine ⟨_, exec_explode_of_idle hidle (explodeEffect_of_fits hin hfit), rfl, endCommand_endedWith _ .none 0,
      storeBv_endCommand_keptByCommand s 0#2 _ .none 0, hlen.trans (unpack_length _ _ _),
      fun i hi => (hcells i).trans ?below, fun i hi => (hcells i).trans ?above, hbyteMem, hbyLen⟩
    case below =>
      have hX : i < (unpack s.byteBuffer s.argOff s.argNbits).length := by rwa [unpack_length]
      rw [dif_pos hX, unpack_getElem, packedBit_byteBuffer (by omega)]
    case above => exact dif_neg (by rwa [unpack_length, Nat.not_lt])

end Sys2Proof.Machine
end

section
/-! PROOFS. IMPLODE from every idle state (R117, R118). -/

namespace Sys2Proof.Machine

open Sys2Proof

section Implode

variable {s t : State}

/-! ### The source operand of IMPLODE -/

theorem State.implodeSource_eq_map (hin : s.argOff + s.argNbits ≤ s.bvLen) :
    s.implodeSource = (List.range s.argNbits).map fun i => s.bit (s.argOff + i) := by
  have hrest : s.argNbits ≤ s.bvLen - s.argOff := by omega
  refine List.ext_getElem ?length fun i _ _ => ?cells
  case length => simpa [State.implodeSource] using hrest
  case cells => simp [State.implodeSource, State.bitVector]

theorem State.implodeSource_length (hin : s.argOff + s.argNbits ≤ s.bvLen) :
    s.implodeSource.length = s.argNbits := by simp [State.implodeSource_eq_map hin]

theorem State.implodeSource_getD (hin : s.argOff + s.argNbits ≤ s.bvLen) (i : Nat) :
    s.implodeSource.getD i false = if i < s.argNbits then s.bit (s.argOff + i) else false := by
  rw [State.implodeSource_eq_map hin]
  by_cases hi : i < s.argNbits <;> simp [hi]

/-! ### The result of IMPLODE -/

theorem storeBy_endCommand_keptByCommand (s : State) (c : BitVec 2) (P : List Byte) (e : ErrKind) (info : Nat) :
    KeptByCommand s (((s.withCmd c).storeBy P).endCommand e info) :=
  ⟨rfl, rfl, State.reservedBits_endCommand _ e info, rfl, rfl, rfl⟩

theorem storeBy_endCommand_byBecame (s : State) (c : BitVec 2) (P : List Byte) (e : ErrKind) (info : Nat) :
    ByBecame P s (((s.withCmd c).storeBy P).endCommand e info) :=
  ⟨rfl, (s.withCmd c).byte_storeBy P, rfl, rfl⟩

/-- In a buffer that took `PACK(X)`, bit `7 − k` of byte `j` is `X[8·j + k]`, or 0 beyond the end of `X` (R11). -/
theorem ByBecame.pack_bit {X : List Bit} (h : ByBecame (pack X) s t) {j k : Nat} (hj : j < ceil8 X.length)
    (hk : k < 8) : (t.byte j).getLsbD (7 - k) = X.getD (8 * j + k) false := by
  have hjP : j < (pack X).length := by rwa [pack_length]
  rw [h.bytes, dif_pos hjP, pack_getElem, packByte_bit X j k hk]

/-! ### The three branches of IMPLODE -/

theorem exec_implode_of_idle (hidle : s.busy = false) (heff : implodeEffect (s.withCmd 1#2) = t) :
    exec .implode s = .next t := (issue_next 1#2 implodeEffect).mpr ⟨hidle, heff.symm⟩

theorem implodeEffect_of_outOfRange (hout : s.bvLen < s.argOff + s.argNbits) :
    implodeEffect s = s.endCommand .range 0 :=
  ((implodeEffect_cases s).resolve_right fun h => by omega).2

theorem implodeEffect_of_tooLong (hin : s.argOff + s.argNbits ≤ s.bvLen)
    (hlong : s.params.maxBytes < ceil8 s.argNbits) : implodeEffect s = s.endCommand .allocation 0 :=
  (((implodeEffect_cases s).resolve_left fun h => by omega).resolve_right fun h => by omega).2.2

theorem implodeEffect_of_fits (hin : s.argOff + s.argNbits ≤ s.bvLen)
    (hfit : ceil8 s.argNbits ≤ s.params.maxBytes) :
    implodeEffect s = (s.storeBy (pack s.implodeSource)).endCommand .none 0 :=
  (((implodeEffect_cases s).resolve_left fun h => by omega).resolve_left fun h => by omega).2.2

end Implode

/-- Settles O9: one branch of IMPLODE for each clause. In the third, the range test gives the source its full length
`n`, and with it the bytes that are written. -/
theorem implodeOutcome : Obligations.ImplodeOutcome := by
  refine fun s hidle => ⟨fun hout => ?range, fun hin hlong => ?allocation, fun hin hfit => ?packed⟩
  case range =>
    exact ⟨_, exec_implode_of_idle hidle (implodeEffect_of_outOfRange hout), rfl,
      endCommand_errorEntry s 1#2 .range 0⟩
  case allocation =>
    exact ⟨_, exec_implode_of_idle hidle (implodeEffect_of_tooLong hin hlong), rfl,
      endCommand_errorEntry s 1#2 .allocation 0⟩
  case packed =>
    have hX : s.implodeSource.length = s.argNbits := State.implodeSource_length hin
    have hP : (pack s.implodeSource).length = ceil8 s.argNbits := by rw [pack_length, hX]
    have hbecame := storeBy_endCommand_byBecame s 1#2 (pack s.implodeSource) .none 0
    refine ⟨_, exec_implode_of_idle hidle (implodeEffect_of_fits hin hfit), rfl, endCommand_endedWith _ .none 0,
      storeBy_endCommand_keptByCommand s 1#2 _ .none 0, hbecame.len.trans hP,
      fun j k hj hk => (hbecame.pack_bit (hX.symm ▸ hj) (Nat.lt_succ_of_le hk)).trans ?below,
      fun a ha => (hbecame.bytes a).trans ?above, hbecame.bitMem, hbecame.bvLen⟩
    case below => rw [State.implodeSource_getD hin, Nat.add_assoc]
    case above => exact dif_neg (by rwa [hP, Nat.not_lt])

end Sys2Proof.Machine
end

section
/-! PROOFS. IMPLODE and EXPLODE one after the other (R121 (a), (b), R201), from the outcomes of the two commands. -/

namespace Sys2Proof.Machine

open Sys2Proof

/-- A slice inside the current vector lists its cells (R201). -/
theorem vecSlice_bitVector {s : State} (hin : s.argOff + s.argNbits ≤ s.bvLen) :
    vecSlice s.bitVector s.argOff s.argNbits =
      .ok ((List.range s.argNbits).map fun i => s.bit (s.argOff + i)) := by
  rw [← State.implodeSource_eq_map hin]
  exact if_pos (by rwa [s.bitVector_length])

/-- IMPLODE off, n then EXPLODE 0, n leaves the slice: bit `7 − (i mod 8)` of byte `i div 8` is cell `off + i`. -/
theorem explode_after_implode {s : State} (hidle : s.busy = false) (hin : s.argOff + s.argNbits ≤ s.bvLen)
    (hbits : s.argNbits ≤ s.params.maxBits) (hbytes : ceil8 s.argNbits ≤ s.params.maxBytes) :
    ∃ t u, exec .implode s = .next t ∧ exec .explode { t with argOff := 0 } = .next u ∧
      u.errCode = ErrKind.none.code ∧
      u.bitVector = (List.range s.argNbits).map fun i => s.bit (s.argOff + i) := by
  obtain ⟨t, himplode, -, tEnded, tKept, tLen, tBits, -, -, -⟩ := (implodeOutcome s hidle).2.2 hin hbytes
  have hroom : 0 + t.argNbits ≤ 8 * t.byLen := by
    rw [tKept.argNbits, tLen, ceil8]
    omega
  have hfit : t.argNbits ≤ t.params.maxBits := by rwa [tKept.argNbits, tKept.params]
  obtain ⟨u, hexplode, -, uEnded, -, uLen, uBits, -, -, -⟩ :=
    (explodeOutcome { t with argOff := 0 } tEnded.idle).2.2 hroom hfit
  refine ⟨t, u, himplode, hexplode, uEnded.err, ?_⟩
  have huLen : u.bvLen = s.argNbits := uLen.trans tKept.argNbits
  rw [State.bitVector, huLen]
  refine List.map_congr_left fun i hi => ?_
  have hi : i < s.argNbits := List.mem_range.mp hi
  have hsplit : 8 * (i / 8) + i % 8 = i := Nat.div_add_mod i 8
  have hbyte : i / 8 < ceil8 s.argNbits := by
    rw [ceil8]
    omega
  calc u.bit i
      = (t.byte ((0 + i) / 8)).getLsbD (7 - (0 + i) % 8) := uBits i (tKept.argNbits.symm ▸ hi)
    _ = (t.byte (i / 8)).getLsbD (7 - i % 8) := by rw [Nat.zero_add]
    _ = s.bit (s.argOff + i) := by
        rw [tBits (i / 8) (i % 8) hbyte (by omega), Nat.add_assoc, hsplit, if_pos hi]

/-- EXPLODE 0, n then IMPLODE 0, n leaves the first `ceil8(n)` bytes with padding bits 0: cell `8·j + k` between the
two is bit `7 − k` of byte `j`. -/
theorem implode_after_explode {s : State} (hidle : s.busy = false) (hoff : s.argOff = 0)
    (hin : s.argNbits ≤ 8 * s.byLen) (hbits : s.argNbits ≤ s.params.maxBits)
    (hbytes : ceil8 s.argNbits ≤ s.params.maxBytes) :
    ∃ t u, exec .explode s = .next t ∧ exec .implode t = .next u ∧
      u.errCode = ErrKind.none.code ∧ u.byLen = ceil8 s.argNbits ∧
      ∀ j k, j < ceil8 s.argNbits → k ≤ 7 →
        (u.byte j).getLsbD (7 - k) = if 8 * j + k < s.argNbits then (s.byte j).getLsbD (7 - k) else false := by
  obtain ⟨t, hexplode, -, tEnded, tKept, tLen, tBits, -, -, -⟩ :=
    (explodeOutcome s hidle).2.2 (by rwa [hoff, Nat.zero_add]) hbits
  have htOff : t.argOff = 0 := tKept.argOff.trans hoff
  have hroom : t.argOff + t.argNbits ≤ t.bvLen := by rw [htOff, tKept.argNbits, tLen, Nat.zero_add]
  obtain ⟨u, himplode, -, uEnded, -, uLen, uBits, -, -, -⟩ :=
    (implodeOutcome t tEnded.idle).2.2 hroom (by rwa [tKept.argNbits, tKept.params])
  rw [tKept.argNbits] at uLen uBits
  refine ⟨t, u, hexplode, himplode, uEnded.err, uLen, fun j k hj hk => ?_⟩
  rw [uBits j k hj hk, htOff, Nat.zero_add]
  refine ite_congr rfl (fun hcell => ?_) fun _ => rfl
  have hbyte : (8 * j + k) / 8 = j := by omega
  have hplace : (8 * j + k) % 8 = k := by omega
  rw [tBits _ hcell, hoff, Nat.zero_add, hbyte, hplace]

/-- Settles O25: the two compositions, within the capacities the premises give. -/
theorem packingRoundTrips : Obligations.PackingRoundTrips := by
  refine ⟨fun s hidle hin hvec hbytes => ?slice, fun s hidle hoff hin hbits hcap => ?padding⟩
  case slice =>
    obtain ⟨t, u, himplode, hexplode, herr, hvector⟩ :=
      explode_after_implode hidle hin (by omega) hbytes
    exact ⟨t, u, himplode, hexplode, herr, by rw [vecSlice_bitVector hin, hvector]⟩
  case padding =>
    have hbytes : ceil8 s.argNbits ≤ s.byLen := by
      rw [ceil8]
      omega
    exact implode_after_explode hidle hoff hin hbits (hbytes.trans hcap)

end Sys2Proof.Machine
end

section
/-! PROOFS. The equations of `ENC` (R131 to R136), in the form of R147: a measured run, a verbatim region, and that
every bit sequence starts with one of them. -/

namespace Sys2Proof.Machine

open Sys2Proof

/-! ### Nine equal bits, and where a verbatim region ends -/

theorem HoldsNineEqual.mono {X Y : List Bit} (hXY : X <:+: Y) (hX : HoldsNineEqual X) : HoldsNineEqual Y := by
  obtain ⟨v, hv⟩ := hX
  exact ⟨v, hv.trans hXY⟩

/-- After the region `Y` the input ends, or nine bits of the other value than the last of `Y` follow (R147). -/
abbrev RegionEnds (Y rest : List Bit) : Prop :=
  rest = [] ∨ ∃ v more, rest = List.replicate 9 v ++ more ∧ Y.getLast? ≠ some v

/-- The end of a region is told by its last bits. -/
theorem RegionEnds.of_append {X Y rest : List Bit} (h : RegionEnds (X ++ Y) rest) : RegionEnds Y rest := by
  rcases h with hnil | ⟨v, more, hrest, hlast⟩
  · exact .inl hnil
  · refine .inr ⟨v, more, hrest, fun hY => hlast ?_⟩
    simp [List.getLast?_append, hY]

/-- What follows a region of one value does not go on with that value. -/
theorem RegionEnds.head?_ne {r : Nat} {v : Bit} {rest : List Bit} (hr : 1 ≤ r)
    (h : RegionEnds (List.replicate r v) rest) : rest.head? ≠ some v := by
  rcases h with rfl | ⟨w, more, rfl, hlast⟩
  · simp
  · rw [List.getLast?_replicate, if_neg (by omega)] at hlast
    simpa [List.head?_append, List.head?_replicate, eq_comm] using hlast

/-! ### Where the measured run of R131 ends -/

/-- At nine equal bits a run of 9 to 127 is measured. -/
theorem longRun_split (v : Bit) (more : List Bit) :
    ∃ r rest, List.replicate 9 v ++ more = List.replicate r v ++ rest ∧ 9 ≤ r ∧ r ≤ 127 ∧
      (r = 127 ∨ rest.head? ≠ some v) := by
  obtain ⟨hsplit, hend⟩ := leadingRun_spec v 118 more
  have hcap := leadingRun_le_cap v 118 more
  refine ⟨9 + leadingRun v 118 more, more.drop (leadingRun v 118 more), ?_, by omega, by omega,
    hend.imp_left (by omega)⟩
  rw [← List.replicate_append_replicate, List.append_assoc, ← hsplit]

/-- At the front of a region the run has 1 to 8, and it ends inside the region or with it. -/
theorem shortRun_split {v : Bit} {ys rest : List Bit} (hnine : ¬ HoldsNineEqual (v :: ys))
    (hends : RegionEnds (v :: ys) rest) :
    ∃ r Y, v :: ys = List.replicate r v ++ Y ∧ 1 ≤ r ∧ r ≤ 8 ∧ (Y ++ rest).head? ≠ some v := by
  obtain ⟨hsplit, hend⟩ := leadingRun_spec v 9 (v :: ys)
  have hcap := leadingRun_le_cap v 9 (v :: ys)
  have hpos : 1 ≤ leadingRun v 9 (v :: ys) := by simp [leadingRun]
  have hne : leadingRun v 9 (v :: ys) ≠ 9 := fun h9 => hnine ⟨v, by
    rw [hsplit, h9]
    exact (List.prefix_append _ _).isInfix⟩
  refine ⟨_, _, hsplit, hpos, by omega, ?_⟩
  cases hY : (v :: ys).drop (leadingRun v 9 (v :: ys)) with
  | nil =>
    rw [hsplit, hY, List.append_nil] at hends
    exact hends.head?_ne hpos
  | cons y Y => simpa [hY] using hend.resolve_left hne

/-! ### The loop on a short run and on a region -/

theorem runByte_toNat (v : Bit) {r : Nat} (hr : r ≤ 127) : (runByte v r).toNat = 128 * v.toNat + r := by
  have := v.toNat_le
  rw [runByte, BitVec.toNat_ofNat]
  omega

/-- The loop on a measured run of 1 to 8: its bits are appended (R134). -/
theorem encLoop_short {v : Bit} {r : Nat} {rest : List Bit} (A : List Bit) (h1 : 1 ≤ r) (h8 : r ≤ 8)
    (hend : rest.head? ≠ some v) :
    encLoop (List.replicate r v ++ rest).length (List.replicate r v ++ rest) A =
      (appendBits A (List.replicate r v)).1 ++
        encLoop rest.length rest (appendBits A (List.replicate r v)).2 := by
  obtain ⟨k, rfl⟩ : ∃ k, r = k + 1 := ⟨r - 1, by omega⟩
  have hrun : runLength v (List.replicate k v ++ rest) = k + 1 := by
    unfold runLength
    rw [leadingRun_replicate_append v (by simp [RUN_MAX]; omega) (.inr hend)]
  have hdrop : (List.replicate k v ++ rest).drop k = rest := List.drop_left' (List.length_replicate ..)
  rw [List.replicate_succ, List.cons_append, List.length_cons, encLoop_cons, hrun,
    if_neg (by simp [RUN_THRESHOLD]; omega), Nat.add_sub_cancel, hdrop, List.replicate_succ,
    encLoop_fuel _ (by simp) (Nat.le_refl rest.length)]

/-- Where no region goes on, the pending bits are flushed before anything else is emitted (R133, R136). -/
theorem encLoop_of_regionEnds {Y rest : List Bit} (A : List Bit) (hend : RegionEnds Y rest) :
    encLoop rest.length rest A = flushPending A ++ enc rest := by
  rcases hend with rfl | ⟨v, more, rfl, -⟩
  · simp [enc, encLoop_nil, flushPending]
  · obtain ⟨r, rest, hsplit, h9, h127, hrest⟩ := longRun_split v more
    have hfuel : r + rest.length ≤ (List.replicate r v ++ rest).length := by simp
    rw [hsplit, enc, encLoop_long A h9 h127 hrest hfuel, encLoop_long [] h9 h127 hrest hfuel]
    simp [flushPending]

/-- The loop on a verbatim region: its bits are appended, and what stays pending is flushed at its end. -/
theorem encLoop_region (Y : List Bit) {rest : List Bit} (A : List Bit) (hnine : ¬ HoldsNineEqual Y)
    (hend : RegionEnds Y rest) :
    encLoop (Y ++ rest).length (Y ++ rest) A =
      (appendBits A Y).1 ++ (flushPending (appendBits A Y).2 ++ enc rest) := by
  match Y with
  | [] => simpa [appendBits] using encLoop_of_regionEnds A hend
  | v :: ys =>
    obtain ⟨r, Y', hsplit, h1, h8, hnext⟩ := shortRun_split hnine hend
    rw [hsplit] at hnine hend ⊢
    have hlen : Y'.length < (v :: ys).length := by rw [hsplit]; simp; omega
    have hnine' : ¬ HoldsNineEqual Y' := fun h => hnine (h.mono (List.suffix_append _ _).isInfix)
    rw [List.append_assoc, encLoop_short A h1 h8 hnext, encLoop_region Y' _ hnine' hend.of_append,
      appendBits_append]
    simp
termination_by Y.length
decreasing_by exact hlen

/-! ### The tokens of a region -/

/-- 256 bits make one full verbatim token. -/
theorem appendBits_full {B : List Bit} (hB : B.length = 256) : appendBits [] B = (verbToken B, []) := by
  have hne : B ≠ [] := by rintro rfl; simp at hB
  have hshort := appendBits_of_short (A := []) (X := B.dropLast) (by simp [hB, VERB_MAX])
  rw [← List.dropLast_append_getLast hne, appendBits_append, hshort]
  simp [appendBits, hB, VERB_MAX]

theorem appendBits_flatten {full : List (List Bit)} {last : List Bit} (hfull : ∀ B ∈ full, B.length = 256)
    (hlast : last.length < 256) : appendBits [] (full.flatten ++ last) = (full.flatMap verbToken, last) := by
  induction full with
  | nil => exact appendBits_of_short (by simpa [VERB_MAX] using hlast)
  | cons B full ih =>
    obtain ⟨hB, hrest⟩ := List.forall_mem_cons.mp hfull
    rw [List.flatten_cons, List.append_assoc, appendBits_append, appendBits_full hB]
    simp [ih hrest]

/-- `ENC` of a region cut into 256-bit blocks and a rest (R147). -/
theorem enc_region {full : List (List Bit)} {last rest : List Bit} (hfull : ∀ B ∈ full, B.length = 256)
    (hlast : last.length < 256) (hnine : ¬ HoldsNineEqual (full.flatten ++ last))
    (hend : RegionEnds (full.flatten ++ last) rest) :
    enc (full.flatten ++ last ++ rest) = full.flatMap verbToken ++ (flushPending last ++ enc rest) := by
  rw [enc, encLoop_region _ [] hnine hend, appendBits_flatten hfull hlast]

theorem verbToken_of_full {B : List Bit} (hB : B.length = 256) : verbToken B = 128#8 :: 255#8 :: pack B := by
  simp [verbToken, hB, SENTINEL, COUNT_BIAS]

theorem flushPending_eq (A : List Bit) :
    flushPending A = if A = [] then [] else 128#8 :: BitVec.ofNat 8 (A.length - 1) :: pack A := by
  cases A <;> rfl

/-- `ENC` of a measured run of 9 to 127 (R133). -/
theorem enc_run {v : Bit} {r : Nat} {rest : List Bit} (h9 : 9 ≤ r) (h127 : r ≤ 127)
    (hend : r = 127 ∨ rest.head? ≠ some v) : enc (List.replicate r v ++ rest) = runByte v r :: enc rest :=
  encLoop_long [] h9 h127 hend (by simp)

/-! ### Every bit sequence starts with a run or a region -/

/-- The first region of a sequence, up to the first nine equal bits; it may be empty. -/
theorem exists_region (X : List Bit) :
    ∃ Y rest, X = Y ++ rest ∧ ¬ HoldsNineEqual Y ∧ RegionEnds Y rest := by
  induction X with
  | nil => exact ⟨[], [], rfl, by simp [HoldsNineEqual], .inl rfl⟩
  | cons x xs ih =>
    by_cases hrun : List.replicate 9 x <+: x :: xs
    · obtain ⟨more, hmore⟩ := hrun
      exact ⟨[], x :: xs, rfl, by simp [HoldsNineEqual], .inr ⟨x, more, hmore.symm, by simp⟩⟩
    · obtain ⟨Y, rest, rfl, hnine, hend⟩ := ih
      refine ⟨x :: Y, rest, rfl, ?nine, ?ends⟩
      case nine =>
        rintro ⟨v, hv⟩
        rcases List.infix_cons_iff.mp hv with hpre | hin
        · obtain rfl : v = x := (List.cons_prefix_cons.mp (by rwa [List.replicate_succ] at hpre)).1
          exact hrun (hpre.trans (List.prefix_append (v :: Y) rest))
        · exact hnine ⟨v, hin⟩
      case ends =>
        rcases hend with hnil | ⟨v, more, rfl, hlast⟩
        · exact .inl hnil
        · refine .inr ⟨v, more, rfl, fun hv => ?_⟩
          cases Y with
          | nil =>
            obtain rfl : x = v := by simpa using hv
            exact hrun ⟨x :: more, by simp [List.replicate_succ]⟩
          | cons y Y => exact hlast (by simpa [List.getLast?_cons] using hv)

/-- Cutting a sequence into blocks of 256 and a rest. -/
theorem exists_blocks (Y : List Bit) :
    ∃ (full : List (List Bit)) (last : List Bit), Y = full.flatten ++ last ∧ (∀ B ∈ full, B.length = 256) ∧
      last.length < 256 := by
  by_cases hshort : Y.length < 256
  · exact ⟨[], Y, rfl, by simp, hshort⟩
  · obtain ⟨full, last, hY, hfull, hlast⟩ := exists_blocks (Y.drop 256)
    refine ⟨Y.take 256 :: full, last, ?_, ?_, hlast⟩
    · rw [List.flatten_cons, List.append_assoc, ← hY, List.take_append_drop]
    · exact List.forall_mem_cons.mpr ⟨by simp; omega, hfull⟩
termination_by Y.length
decreasing_by rw [List.length_drop]; omega

/-- The three forms of a bit sequence (R147). -/
theorem bits_cases (X : List Bit) :
    X = [] ∨
    (∃ v r rest, X = List.replicate r v ++ rest ∧ 9 ≤ r ∧ r ≤ 127 ∧ (r = 127 ∨ rest.head? ≠ some v)) ∨
    ∃ (full : List (List Bit)) (last rest : List Bit), X = full.flatten ++ last ++ rest ∧
      full.flatten ++ last ≠ [] ∧ (∀ B ∈ full, B.length = 256) ∧ last.length < 256 ∧
      ¬ HoldsNineEqual (full.flatten ++ last) ∧ RegionEnds (full.flatten ++ last) rest := by
  obtain ⟨Y, rest, rfl, hnine, hend⟩ := exists_region X
  by_cases hY : Y = []
  · subst hY
    rcases hend with rfl | ⟨v, more, rfl, -⟩
    · exact .inl rfl
    · obtain ⟨r, rest, hsplit, hr⟩ := longRun_split v more
      exact .inr (.inl ⟨v, r, rest, hsplit, hr⟩)
  · obtain ⟨full, last, rfl, hfull, hlast⟩ := exists_blocks Y
    exact .inr (.inr ⟨full, last, rest, rfl, hY, hfull, hlast, hnine, hend⟩)

/-- Settles O58: the loop on a measured run and on a region, and the split of every sequence at its first nine equal
bits. -/
theorem encEquations : Obligations.EncEquations := by
  refine ⟨rfl, fun v r rest h9 h127 hend => ⟨runByte v r, runByte_toNat v h127, enc_run h9 h127 hend⟩,
    fun full last rest hfull hlast hnine hend => ?_, bits_cases⟩
  have hblocks : full.flatMap verbToken = full.flatMap fun B => 128#8 :: 255#8 :: pack B :=
    List.flatMap_congr fun B hB => verbToken_of_full (hfull B hB)
  rw [enc_region hfull hlast hnine hend, hblocks, flushPending_eq, List.append_assoc]

end Sys2Proof.Machine
end

section
/-! PROOFS. Streams of tokens: the decoder reads a token back from its own bytes (R73), so a stream splits into the
tokens it was made of, and `DEC` joins the bits they stand for (R161). -/

namespace Sys2Proof.Machine

open Sys2Proof

/-! ### One token -/

/-- The bytes of a token; a command has none. -/
def tokenBytes (i : Instr) : List Byte :=
  match encode i with
  | .token bytes => bytes
  | .cmd _ => []

/-- The byte of a run token: the value bit, then the length (R71). -/
theorem runField_toNat (v : BitVec 1) (len : BitVec 7) : (v ++ len : Byte).toNat = 128 * v.toNat + len.toNat := by
  rw [BitVec.toNat_append, ← Nat.shiftLeft_add_eq_or_of_lt len.isLt, Nat.shiftLeft_eq]
  omega

theorem runField_length (v : BitVec 1) (len : BitVec 7) : (v ++ len : Byte).extractLsb' 0 7 = len := by
  apply BitVec.eq_of_toNat_eq
  have := len.isLt
  rw [lengthField_toNat, runField_toNat]
  omega

/-- A token is read back from its own bytes, whatever follows them (R73). -/
theorem decodeToken_tokenBytes {i : Instr} (hwf : WellFormed i = true) (htok : i.isCommand = false)
    (rest : List Byte) : decodeToken (tokenBytes i ++ rest) = .ok (i, rest) := by
  cases i with
  | explode => cases htok
  | implode => cases htok
  | rleEnc => cases htok
  | rleDec => cases htok
  | verb sc payload => exact decodeToken_verb (by simpa [WellFormed] using hwf) rest
  | zrun => exact decodeToken_zrun rest
  | run0 len =>
    have hne : len ≠ 0#7 := by simpa [WellFormed] using hwf
    have hlt := len.isLt
    have hnat := runField_toNat 0#1 len
    have hread := decodeToken_run0 (b := 0#1 ++ len) (by bv_omega) (by bv_omega) rest
    rwa [runField_length] at hread
  | run1 len =>
    have hne : len ≠ 0#7 := by simpa [WellFormed] using hwf
    have hnat := runField_toNat 1#1 len
    have hread := decodeToken_run1 (b := 1#1 ++ len) (by bv_omega) rest
    rwa [runField_length] at hread

theorem tokenBytes_ne_nil {i : Instr} (htok : i.isCommand = false) : tokenBytes i ≠ [] := by
  cases i with
  | verb sc payload => exact List.cons_ne_nil _ _
  | zrun => exact List.cons_ne_nil _ _
  | run0 len => exact List.cons_ne_nil _ _
  | run1 len => exact List.cons_ne_nil _ _
  | _ => cases htok

/-- The value bit of a run token (R71). -/
theorem valueBit_eq (b : Byte) : b.getLsbD 7 = decide (128 ≤ b.toNat) := by
  simpa [BitVec.msb_eq_getLsbD_last] using BitVec.msb_eq_decide b

/-- Unpacking does not look beyond the bytes it needs. -/
theorem unpack_take (P : List Byte) {m n : Nat} (h : n ≤ 8 * m) : unpack (P.take m) 0 n = unpack P 0 n := by
  refine List.map_congr_left fun i hi => ?_
  have hi : (0 + i) / 8 < m := by
    have := List.mem_range.mp hi
    omega
  simp only [packedBit, List.getD_eq_getElem?_getD, List.getElem?_take_of_lt hi]

theorem decLoop_of_ne_sentinel {b : Byte} (hb : b ≠ SENTINEL) (fuel p : Nat) (S : List Byte) :
    decLoop (fuel + 1) p (b :: S) =
      (decLoop fuel (p + 1) S).map (List.replicate (b.extractLsb' 0 7).toNat (b.getLsbD 7) ++ ·) := if_pos hb

/-- One turn of `DEC` is one token: its bits stand before those of the rest (R161, R166 to R169). -/
theorem decLoop_of_decodeToken {S rest : List Byte} {i : Instr} (h : decodeToken S = .ok (i, rest))
    (fuel p : Nat) : ∃ q, decLoop (fuel + 1) p S = (decLoop fuel q rest).map (tokenBits i ++ ·) := by
  cases S with
  | nil => simp [decodeToken] at h
  | cons b S =>
    cases hkind : firstByteKind b with
    | zrun =>
      obtain rfl := firstByteKind_eq_zrun_iff.mp hkind
      obtain ⟨rfl, rfl⟩ : .zrun = i ∧ S = rest := by simpa [decodeToken_zrun] using h
      exact ⟨p + 1, rfl⟩
    | run0 =>
      obtain ⟨hpos, hlt⟩ := firstByteKind_eq_run0_iff.mp hkind
      obtain ⟨rfl, rfl⟩ : .run0 (b.extractLsb' 0 7) = i ∧ S = rest := by
        simpa [decodeToken_run0 hpos hlt] using h
      have hne : b ≠ SENTINEL := by rintro rfl; exact absurd hlt (by decide)
      have hv : b.getLsbD 7 = false := by rw [valueBit_eq]; simpa using hlt
      exact ⟨p + 1, by rw [decLoop_of_ne_sentinel hne, hv]; rfl⟩
    | run1 =>
      have hgt := firstByteKind_eq_run1_iff.mp hkind
      obtain ⟨rfl, rfl⟩ : .run1 (b.extractLsb' 0 7) = i ∧ S = rest := by simpa [decodeToken_run1 hgt] using h
      have hne : b ≠ SENTINEL := by rintro rfl; exact absurd hgt (by decide)
      have hv : b.getLsbD 7 = true := by rw [valueBit_eq]; simpa using hgt.le
      exact ⟨p + 1, by rw [decLoop_of_ne_sentinel hne, hv]; rfl⟩
    | verb =>
      obtain rfl := firstByteKind_eq_verb_iff.mp hkind
      obtain ⟨sc, S, rfl, hfit⟩ := decodeToken_sentinel_ok h
      have hread := decodeToken_verb (sc := sc) (payload := S.take (ceil8 (verbCount sc)))
        (by rw [List.length_take]; omega) (S.drop (ceil8 (verbCount sc)))
      rw [List.cons_append, List.cons_append, List.take_append_drop, h] at hread
      obtain ⟨rfl, rfl⟩ := Prod.mk.inj (Except.ok.inj hread)
      have hbits : tokenBits (.verb sc (S.take (ceil8 (verbCount sc)))) = unpack S 0 (sc.toNat + 1) :=
        unpack_take S (by unfold verbCount ceil8; omega)
      refine ⟨p + 2 + ceil8 (sc.toNat + 1), ?_⟩
      rw [hbits]
      exact (if_neg (by simp [SENTINEL])).trans (if_pos hfit)

/-! ### A stream of tokens -/

/-- A stream made of tokens splits into them. -/
theorem tokensOf_flatMap_tokenBytes {ts : List Instr} (hts : ∀ i ∈ ts, WellFormed i = true ∧ i.isCommand = false)
    {fuel : Nat} (hfuel : (ts.flatMap tokenBytes).length ≤ fuel) :
    tokensOf fuel (ts.flatMap tokenBytes) = some ts := by
  induction ts generalizing fuel with
  | nil => simp [tokensOf]
  | cons i ts ih =>
    obtain ⟨⟨hwf, htok⟩, hrest⟩ := List.forall_mem_cons.mp hts
    have hread := decodeToken_tokenBytes hwf htok (ts.flatMap tokenBytes)
    obtain ⟨b, S, hS⟩ := List.exists_cons_of_ne_nil (tokenBytes_ne_nil htok)
    rw [List.flatMap_cons, hS] at hfuel ⊢
    rw [hS] at hread
    simp only [List.cons_append, List.length_cons, List.length_append] at hfuel
    obtain ⟨fuel, rfl⟩ : ∃ k, fuel = k + 1 := ⟨fuel - 1, by omega⟩
    rw [List.cons_append] at hread ⊢
    simp [tokensOf, hread, ih hrest (fuel := fuel) (by omega)]

/-- The tokens of a stream are its bits (R161). -/
theorem decLoop_of_tokensOf {fuel : Nat} {S : List Byte} {ts : List Instr} (h : tokensOf fuel S = some ts)
    (p : Nat) : decLoop fuel p S = .ok (ts.flatMap tokenBits) := by
  induction fuel generalizing S ts p with
  | zero => cases S <;> simp_all [tokensOf, decLoop]
  | succ fuel ih =>
    cases S with
    | nil => simp_all [tokensOf, decLoop]
    | cons b S =>
      cases hread : decodeToken (b :: S) with
      | error e => simp [tokensOf, hread] at h
      | ok token =>
        obtain ⟨i, rest⟩ := token
        obtain ⟨ts, hts, rfl⟩ : ∃ ts', tokensOf fuel rest = some ts' ∧ i :: ts' = ts := by
          simpa [tokensOf, hread] using h
        obtain ⟨q, hdec⟩ := decLoop_of_decodeToken hread fuel p
        rw [hdec, ih hts q]
        rfl

theorem dec_of_tokensOf {S : List Byte} {ts : List Instr} (h : tokensOf S.length S = some ts) :
    dec S = .ok (ts.flatMap tokenBits) := decLoop_of_tokensOf h 0

end Sys2Proof.Machine
end

section
/-! PROOFS. The streams RLE_ENC produces (R147, R148): the tokens of each region and of each measured run, which tokens
may stand next to each other, and what `DEC` makes of them (R149). -/

namespace Sys2Proof.Machine

open Sys2Proof

/-! ### The two kinds of token the encoder makes -/

/-- The verbatim token of the bits `B`, `1 ≤ |B| ≤ 256` (R134). -/
def verbOf (B : List Bit) : Instr := .verb (BitVec.ofNat 8 (B.length - 1)) (pack B)

/-- The run token of `r` bits of value `v`, `1 ≤ r ≤ 127` (R133). -/
def runOf : Bit → Nat → Instr
  | false, r => .run0 (BitVec.ofNat 7 r)
  | true, r => .run1 (BitVec.ofNat 7 r)

theorem tokenBytes_verbOf (B : List Bit) : tokenBytes (verbOf B) = verbToken B := rfl

theorem verbOf_count {B : List Bit} (h1 : 1 ≤ B.length) (h256 : B.length ≤ 256) :
    verbCount (BitVec.ofNat 8 (B.length - 1)) = B.length := by
  rw [verbCount, BitVec.toNat_ofNat]
  omega

theorem tokenBits_verbOf {B : List Bit} (h1 : 1 ≤ B.length) (h256 : B.length ≤ 256) :
    tokenBits (verbOf B) = B := by
  change unpack (pack B) 0 (verbCount (BitVec.ofNat 8 (B.length - 1))) = B
  rw [verbOf_count h1 h256, unpack_pack]

theorem verbOf_canonical {B : List Bit} (h1 : 1 ≤ B.length) (h256 : B.length ≤ 256)
    (hnine : ¬ HoldsNineEqual B) : WellFormed (verbOf B) = true ∧ tokenCanonical (verbOf B) := by
  have hbits : verbBits (BitVec.ofNat 8 (B.length - 1)) (pack B) = B := tokenBits_verbOf h1 h256
  refine ⟨?wf, ?padding, ?nine⟩
  case wf => simp [verbOf, WellFormed, verbOf_count h1 h256]
  case padding => rw [hbits]
  case nine => rwa [hbits]

theorem tokenBytes_runOf (v : Bit) {r : Nat} (h127 : r ≤ 127) : tokenBytes (runOf v r) = [runByte v r] := by
  have hfield (w : BitVec 1) (hw : w.toNat = v.toNat) : (w ++ BitVec.ofNat 7 r : Byte) = runByte v r := by
    apply BitVec.eq_of_toNat_eq
    rw [runField_toNat, runByte_toNat v h127, hw, BitVec.toNat_ofNat]
    omega
  cases v
  · exact congrArg ([·]) (hfield 0#1 rfl)
  · exact congrArg ([·]) (hfield 1#1 rfl)

theorem tokenBits_runOf (v : Bit) {r : Nat} (h127 : r ≤ 127) : tokenBits (runOf v r) = List.replicate r v := by
  have hlen : (BitVec.ofNat 7 r).toNat = r := by
    rw [BitVec.toNat_ofNat]
    omega
  cases v <;> simp only [runOf, tokenBits, runBits, hlen]

theorem runOf_canonical (v : Bit) {r : Nat} (h9 : 9 ≤ r) (h127 : r ≤ 127) :
    WellFormed (runOf v r) = true ∧ tokenCanonical (runOf v r) := by
  have hlen : (BitVec.ofNat 7 r).toNat = r := by
    rw [BitVec.toNat_ofNat]
    omega
  have hne : BitVec.ofNat 7 r ≠ 0#7 := by bv_omega
  have hlen9 : 9 ≤ (BitVec.ofNat 7 r).toNat := by rwa [hlen]
  cases v <;> exact ⟨by simpa [runOf, WellFormed] using hne, hlen9⟩

theorem isRun_runOf (v : Bit) (r : Nat) : isRun (runOf v r) = true := by cases v <;> rfl

/-! ### What may follow them -/

/-- After a run of fewer than 127 the other value follows (R148 (d)). -/
theorem runOf_follows {v : Bit} {r : Nat} {b : Instr} (h127 : r ≤ 127)
    (hb : r = 127 ∨ (tokenBits b).head? = some (!v)) : followsCanonically (runOf v r) b := by
  have hlen : (BitVec.ofNat 7 r).toNat = r := by
    rw [BitVec.toNat_ofNat]
    omega
  cases v <;> exact fun hlt => hb.resolve_left (by omega)

/-- After a full verbatim token more of its region may follow (R147). -/
theorem verbOf_follows_verbOf {B C : List Bit} (hB : B.length = 256) (hC1 : 1 ≤ C.length) (hC : C.length ≤ 256)
    (hnine : ¬ HoldsNineEqual (B ++ C)) : followsCanonically (verbOf B) (verbOf C) := by
  have hcount := verbOf_count (B := B) (by omega) (by omega)
  have hbits : verbBits _ _ = B := tokenBits_verbOf (by omega) (by omega)
  refine ⟨fun hlt => absurd hlt (by omega), fun hrun => Bool.noConfusion hrun, fun _ => ?_⟩
  rwa [hbits, tokenBits_verbOf hC1 hC]

/-- After any verbatim token a run of the other value than its last bit may follow (R147, R148 (c)). -/
theorem verbOf_follows_run {B : List Bit} {b : Instr} (hB1 : 1 ≤ B.length) (hB : B.length ≤ 256)
    (hrun : isRun b = true) (hhead : (tokenBits b).head? = B.getLast?.map (!·)) :
    followsCanonically (verbOf B) b := by
  have hbits : verbBits _ _ = B := tokenBits_verbOf hB1 hB
  refine ⟨fun _ => hrun, fun _ => ?_, fun hno => absurd hrun (by simp [hno])⟩
  rw [hhead, hbits]

/-! ### The stream of a bit sequence -/

/-- The stream of `X` is that of the canonical tokens `ts` (R147, R148), and a run stands first where nine equal bits
do. -/
structure CanonicalStream (X : List Bit) (ts : List Instr) : Prop where
  bytes    : enc X = ts.flatMap tokenBytes
  bits     : ts.flatMap tokenBits = X
  each     : ∀ i ∈ ts, WellFormed i = true ∧ tokenCanonical i
  chain    : ts.IsChain followsCanonically
  runFirst : ∀ v more, X = List.replicate 9 v ++ more → ∀ i ∈ ts.head?, isRun i = true

theorem isCommand_of_canonical {i : Instr} (h : tokenCanonical i) : i.isCommand = false := by
  cases i with
  | verb sc payload => rfl
  | run0 len => rfl
  | run1 len => rfl
  | _ => exact h.elim

theorem tokenBits_ne_nil_of_canonical {i : Instr} (h : tokenCanonical i) : tokenBits i ≠ [] := by
  apply List.ne_nil_of_length_pos
  cases i with
  | verb sc payload => simp [tokenBits, verbCount]
  | run0 len => exact lt_of_lt_of_le (by decide) (h.trans (by simp [tokenBits]))
  | run1 len => exact lt_of_lt_of_le (by decide) (h.trans (by simp [tokenBits]))
  | _ => exact h.elim

section Stream

variable {X : List Bit} {ts : List Instr}

/-- The first token starts with the first bit. -/
theorem CanonicalStream.head_bits (h : CanonicalStream X ts) {i : Instr} (hi : i ∈ ts.head?) :
    (tokenBits i).head? = X.head? := by
  obtain ⟨ts, rfl⟩ : ∃ ts', ts = i :: ts' := ⟨ts.tail, List.eq_cons_of_mem_head? hi⟩
  obtain ⟨x, xs, hx⟩ := List.exists_cons_of_ne_nil
    (tokenBits_ne_nil_of_canonical (h.each i List.mem_cons_self).2)
  rw [← h.bits, List.flatMap_cons, hx]
  rfl

theorem canonicalStream_nil : CanonicalStream [] [] :=
  ⟨rfl, rfl, by simp, .nil, by simp⟩

/-- A measured run is one run token before the stream of the rest. -/
theorem CanonicalStream.run_append {v : Bit} {r : Nat} (h : CanonicalStream X ts) (h9 : 9 ≤ r) (h127 : r ≤ 127)
    (hend : r = 127 ∨ X.head? ≠ some v) :
    CanonicalStream (List.replicate r v ++ X) (runOf v r :: ts) where
  bytes := by rw [enc_run h9 h127 hend, List.flatMap_cons, tokenBytes_runOf v h127, h.bytes]; rfl
  bits := by rw [List.flatMap_cons, tokenBits_runOf v h127, h.bits]
  each := List.forall_mem_cons.mpr ⟨runOf_canonical v h9 h127, h.each⟩
  chain := by
    refine List.isChain_cons.mpr ⟨fun i hi => runOf_follows h127 (hend.imp_right fun hne => ?_), h.chain⟩
    have hne' := h.head_bits hi ▸ hne
    obtain ⟨x, hx⟩ := Option.isSome_iff_exists.mp (List.isSome_head?.mpr
      (tokenBits_ne_nil_of_canonical (h.each i (List.mem_of_mem_head? hi)).2))
    rw [hx] at hne' ⊢
    simpa [Bool.eq_not] using hne'
  runFirst := fun _ _ _ i hi => by
    obtain rfl : runOf v r = i := by simpa using hi
    exact isRun_runOf v r

/-- The blocks of a region: the full ones, and the rest unless it is empty. -/
def regionBlocks (full : List (List Bit)) (last : List Bit) : List (List Bit) :=
  full ++ if last = [] then [] else [last]

section Region

variable {full blocks : List (List Bit)} {last Y : List Bit}

theorem regionBlocks_flatten (full : List (List Bit)) (last : List Bit) :
    (regionBlocks full last).flatten = full.flatten ++ last := by
  unfold regionBlocks
  split <;> simp_all

theorem regionBlocks_bytes (full : List (List Bit)) (last : List Bit) :
    (regionBlocks full last).flatMap verbToken = full.flatMap verbToken ++ flushPending last := by
  unfold regionBlocks flushPending
  split <;> simp_all

/-- A block has 1 to 256 bits, and all but the last one 256 (R147). -/
structure BlocksOk (blocks : List (List Bit)) : Prop where
  size : ∀ B ∈ blocks, 1 ≤ B.length ∧ B.length ≤ 256
  full : blocks.IsChain fun B _ => B.length = 256

theorem regionBlocks_ok (hfull : ∀ B ∈ full, B.length = 256) (hlast : last.length < 256) :
    BlocksOk (regionBlocks full last) := by
  have hchain : full.IsChain fun B _ => B.length = 256 :=
    (List.pairwise_of_forall_mem_list fun B hB _ _ => hfull B hB).isChain
  unfold regionBlocks
  split
  · exact ⟨fun B hB => by have := hfull B (by simpa using hB); omega, by simpa using hchain⟩
  · next hne =>
    have hpos := List.length_pos_iff.mpr hne
    refine ⟨fun B hB => ?_, hchain.append (.singleton _) fun B hB _ _ => hfull B (List.mem_of_mem_getLast? hB)⟩
    rcases List.mem_append.mp hB with hB | hB
    · have := hfull B hB
      omega
    · obtain rfl := List.mem_singleton.mp hB
      omega

/-- Neighbouring tokens of one region. -/
theorem BlocksOk.chain_verbOf (hok : BlocksOk blocks) (hnine : ¬ HoldsNineEqual blocks.flatten) :
    (blocks.map verbOf).IsChain followsCanonically := by
  induction blocks with
  | nil => exact .nil
  | cons B blocks ih =>
    obtain ⟨hsize, hfull⟩ := hok
    obtain ⟨hhead, htail⟩ := List.isChain_cons.mp hfull
    obtain ⟨-, hsizes⟩ := List.forall_mem_cons.mp hsize
    have hnine' : ¬ HoldsNineEqual blocks.flatten := fun h => hnine (h.mono (List.suffix_append _ _).isInfix)
    cases blocks with
    | nil => exact .singleton _
    | cons C blocks =>
      obtain ⟨hC1, hC⟩ := hsizes C List.mem_cons_self
      refine List.isChain_cons_cons.mpr
        ⟨verbOf_follows_verbOf (hhead C rfl) hC1 hC fun h => ?_, ih ⟨hsizes, htail⟩ hnine'⟩
      refine hnine (h.mono ?_)
      rw [List.flatten_cons, List.flatten_cons, ← List.append_assoc]
      exact (List.prefix_append _ _).isInfix

theorem BlocksOk.bits_verbOf (hok : BlocksOk blocks) : (blocks.map verbOf).flatMap tokenBits = blocks.flatten := by
  rw [List.flatMap_map]
  have hbits : blocks.flatMap (fun B => tokenBits (verbOf B)) = blocks.flatMap fun B => B :=
    List.flatMap_congr fun B hB => by
      obtain ⟨h1, h256⟩ := hok.size B hB
      exact tokenBits_verbOf h1 h256
  rw [hbits, List.flatMap_id']

/-- The last block ends as its region does. -/
theorem BlocksOk.getLast?_flatten (hok : BlocksOk blocks) {B : List Bit} (hB : blocks.getLast? = some B) :
    blocks.flatten.getLast? = B.getLast? := by
  obtain ⟨init, rfl⟩ := List.getLast?_eq_some_iff.mp hB
  obtain ⟨hpos, -⟩ := hok.size B (by simp)
  have hne : B ≠ [] := List.length_pos_iff.mp hpos
  rw [List.flatten_append, List.flatten_singleton, List.getLast?_append_of_ne_nil _ hne]

/-- A region with what follows it does not start with nine equal bits. -/
theorem region_not_nine {v : Bit} {more : List Bit} (hne : Y ≠ []) (hnine : ¬ HoldsNineEqual Y)
    (hend : RegionEnds Y X) : Y ++ X ≠ List.replicate 9 v ++ more := by
  obtain ⟨w, ys, rfl⟩ := List.exists_cons_of_ne_nil hne
  obtain ⟨r, Y', hsplit, h1, h8, hnext⟩ := shortRun_split hnine hend
  intro heq
  rw [hsplit, List.append_assoc, show 9 = r + (9 - r) by omega, ← List.replicate_append_replicate,
    List.append_assoc] at heq
  obtain ⟨hrun, hrest⟩ := List.append_inj heq (by simp)
  obtain rfl : w = v := by simpa [show r ≠ 0 by omega] using List.replicate_inj.mp hrun
  exact hnext (by rw [hrest]; simp [List.head?_append, List.head?_replicate, show 9 - r ≠ 0 by omega])

end Region

/-- The token after a region is a run of the other value than the last bit of the region. -/
theorem CanonicalStream.run_after_region {Y : List Bit} {i : Instr} (h : CanonicalStream X ts)
    (hend : RegionEnds Y X) (hi : i ∈ ts.head?) :
    isRun i = true ∧ ∃ v, (tokenBits i).head? = some v ∧ Y.getLast? ≠ some v := by
  have hhead := h.head_bits hi
  rcases hend with rfl | ⟨v, more, rfl, hlast⟩
  · have hne := tokenBits_ne_nil_of_canonical (h.each i (List.mem_of_mem_head? hi)).2
    exact absurd (List.head?_eq_none_iff.mp hhead) hne
  · exact ⟨h.runFirst v more rfl i hi, v, hhead, hlast⟩

/-- Before the stream of what follows a region stand the tokens of the region. -/
theorem CanonicalStream.region_append {blocks : List (List Bit)} (h : CanonicalStream X ts) (hok : BlocksOk blocks)
    (hbytes : enc (blocks.flatten ++ X) = blocks.flatMap verbToken ++ enc X) (hne : blocks.flatten ≠ [])
    (hnine : ¬ HoldsNineEqual blocks.flatten) (hend : RegionEnds blocks.flatten X) :
    CanonicalStream (blocks.flatten ++ X) (blocks.map verbOf ++ ts) where
  bytes := by
    have hverbs : (blocks.map verbOf).flatMap tokenBytes = blocks.flatMap verbToken := List.flatMap_map ..
    rw [hbytes, List.flatMap_append, hverbs, h.bytes]
  bits := by rw [List.flatMap_append, hok.bits_verbOf, h.bits]
  each := fun i hi => by
    rcases List.mem_append.mp hi with hi | hi
    · obtain ⟨B, hB, rfl⟩ := List.mem_map.mp hi
      obtain ⟨h1, h256⟩ := hok.size B hB
      exact verbOf_canonical h1 h256 fun hB9 => hnine (hB9.mono (List.infix_of_mem_flatten hB))
    · exact h.each i hi
  chain := by
    refine (hok.chain_verbOf hnine).append h.chain fun a ha i hi => ?_
    obtain ⟨B, hB, rfl⟩ : ∃ B, blocks.getLast? = some B ∧ verbOf B = a := by simpa using ha
    obtain ⟨h1, h256⟩ := hok.size B (List.mem_of_mem_getLast? hB)
    obtain ⟨hrun, v, hhead, hlast⟩ := h.run_after_region hend hi
    rw [hok.getLast?_flatten hB] at hlast
    obtain ⟨w, hw⟩ := Option.ne_none_iff_exists'.mp
      (mt List.getLast?_eq_none_iff.mp (List.length_pos_iff.mp h1))
    refine verbOf_follows_run h1 h256 hrun ?_
    rw [hhead, hw]
    rw [hw] at hlast
    simpa [Bool.eq_not, eq_comm] using hlast
  runFirst := fun v more heq => absurd heq (region_not_nine hne hnine hend)

end Stream

/-- Every stream RLE_ENC produces is one of canonical tokens: a token a run, and the tokens of its blocks a region. -/
theorem exists_canonicalStream (X : List Bit) : ∃ ts, CanonicalStream X ts := by
  rcases bits_cases X with rfl | ⟨v, r, rest, hX, h9, h127, hend⟩ |
    ⟨full, last, rest, hX, hne, hfull, hlast, hnine, hend⟩
  · exact ⟨[], canonicalStream_nil⟩
  · obtain ⟨ts, h⟩ := exists_canonicalStream rest
    exact ⟨_, hX ▸ h.run_append h9 h127 hend⟩
  · obtain ⟨ts, h⟩ := exists_canonicalStream rest
    have hbytes := enc_region hfull hlast hnine hend
    rw [← List.append_assoc, ← regionBlocks_bytes] at hbytes
    rw [← regionBlocks_flatten] at hX hbytes hne hnine hend
    exact ⟨_, hX ▸ h.region_append (regionBlocks_ok hfull hlast) hbytes hne hnine hend⟩
termination_by X.length
decreasing_by
  · rw [hX, List.length_append, List.length_replicate]
    omega
  · have := List.length_pos_iff.mpr hne
    rw [hX, List.length_append]
    omega

/-! ### The obligations -/

/-- The encoder's stream splits into its canonical tokens. -/
theorem CanonicalStream.tokensOf_enc {X : List Bit} {ts : List Instr} (h : CanonicalStream X ts) :
    tokensOf (enc X).length (enc X) = some ts := by
  rw [h.bytes]
  refine tokensOf_flatMap_tokenBytes (fun i hi => ?_) (Nat.le_refl _)
  obtain ⟨hwf, hcan⟩ := h.each i hi
  exact ⟨hwf, isCommand_of_canonical hcan⟩

/-- The bit count of a token is the number of bits it stands for (R164). -/
theorem tokenBits_length (i : Instr) : (tokenBits i).length = tokenCount i := by
  cases i <;> simp [tokenBits, tokenCount, verbCount]

/-- `DEC` undoes `ENC` (R149): the encoder's tokens stand for the bits in order. -/
theorem dec_enc (X : List Bit) : dec (enc X) = .ok X := by
  obtain ⟨ts, h⟩ := exists_canonicalStream X
  rw [dec_of_tokensOf h.tokensOf_enc, h.bits]

/-- Settles O15, by the canonical tokens of the stream. -/
theorem decInvertsEnc : Obligations.DecInvertsEnc := dec_enc

/-- Settles O19: the tokens of the runs and regions of `X`. -/
theorem encIsCanonical : Obligations.EncIsCanonical := by
  intro X
  obtain ⟨ts, h⟩ := exists_canonicalStream X
  refine ⟨ts, h.tokensOf_enc, h.each, fun pre a b post hts => ?neighbours, ?counts, h.bits⟩
  case neighbours =>
    have hchain := h.chain
    rw [hts] at hchain
    exact (List.isChain_append_cons_cons.mp hchain).2.1
  case counts =>
    rw [← h.bits, List.length_flatMap]
    simp only [tokenBits_length]

end Sys2Proof.Machine
end

section
/-! PROOFS. RLE_ENC from every idle state (R135, R137), the bound of R138 and where it is reached, and the round trip
with RLE_DEC (R149). -/

namespace Sys2Proof.Machine

open Sys2Proof

section Outcomes

variable {s t : State}

/-! ### The three branches of RLE_ENC -/

theorem exec_rleEnc_of_idle (hidle : s.busy = false) (heff : rleEncEffect (s.withCmd 2#2) = t) :
    exec .rleEnc s = .next t := (issue_next 2#2 rleEncEffect).mpr ⟨hidle, heff.symm⟩

theorem rleEncEffect_of_outOfRange (hout : s.bvLen < s.argNbits) : rleEncEffect s = s.endCommand .range 0 :=
  ((rleEncEffect_cases s).resolve_right fun h => by omega).2

theorem rleEncEffect_of_tooLong (hin : s.argNbits ≤ s.bvLen) (hlong : s.params.maxBytes < sizeBound s.argNbits) :
    rleEncEffect s = s.endCommand .allocation 0 :=
  (((rleEncEffect_cases s).resolve_left fun h => by omega).resolve_right fun h => by omega).2.2

theorem rleEncEffect_of_fits (hin : s.argNbits ≤ s.bvLen) (hfit : sizeBound s.argNbits ≤ s.params.maxBytes) :
    rleEncEffect s = (s.storeBy (enc (s.bitVector.take s.argNbits))).endCommand .none 0 :=
  (((rleEncEffect_cases s).resolve_left fun h => by omega).resolve_left fun h => by omega).2.2

/-- The encoding of a prefix of the vector is within the bound of its length. -/
theorem encodeSource_enc_length_le (hin : s.argNbits ≤ s.bvLen) :
    (enc (s.bitVector.take s.argNbits)).length ≤ sizeBound s.argNbits := by
  have hlen : (s.bitVector.take s.argNbits).length = s.argNbits := by simpa using hin
  simpa only [hlen] using enc_length_le_sizeBound (s.bitVector.take s.argNbits)

/-! ### A buffer that has just been stored, and its decoding -/

theorem ByBecame.byteBuffer {P : List Byte} (h : ByBecame P s t) : t.byteBuffer = P := by
  refine List.ext_getElem (by rw [t.byteBuffer_length, h.len]) fun a _ ha => ?_
  simp [State.byteBuffer, h.bytes, ha]

theorem exec_rleDec_of_idle (hidle : s.busy = false) (heff : rleDecEffect (s.withCmd 3#2) = t) :
    exec .rleDec s = .next t := (issue_next 3#2 rleDecEffect).mpr ⟨hidle, heff.symm⟩

theorem rleDecEffect_of_fits {D : List Bit} (hdec : dec s.byteBuffer = .ok D) (hfit : D.length ≤ s.params.maxBits) :
    rleDecEffect s = (s.storeBv D).endCommand .none 0 := by
  rcases rleDecEffect_cases s with ⟨q, hq, -⟩ | ⟨D', hD', hlong, -⟩ | ⟨D', hD', -, heff⟩
  · simp [hdec] at hq
  · obtain rfl : D = D' := by simpa [hdec] using hD'
    omega
  · obtain rfl : D = D' := by simpa [hdec] using hD'
    exact heff

end Outcomes

/-! ### RLE_ENC by itself -/

/-- Settles O10: one branch of RLE_ENC for each clause. -/
theorem rleEncOutcome : Obligations.RleEncOutcome := by
  refine fun s hidle => ⟨fun hout => ?range, fun hin hlong => ?allocation, fun hin hfit => ?encoded⟩
  case range =>
    exact ⟨_, exec_rleEnc_of_idle hidle (rleEncEffect_of_outOfRange hout), rfl,
      endCommand_errorEntry s 2#2 .range 0⟩
  case allocation =>
    exact ⟨_, exec_rleEnc_of_idle hidle (rleEncEffect_of_tooLong hin hlong), rfl,
      endCommand_errorEntry s 2#2 .allocation 0⟩
  case encoded =>
    exact ⟨_, exec_rleEnc_of_idle hidle (rleEncEffect_of_fits hin hfit), rfl, endCommand_endedWith _ .none 0,
      storeBy_endCommand_keptByCommand s 2#2 _ .none 0, storeBy_endCommand_byBecame s 2#2 _ .none 0,
      (encodeSource_enc_length_le hin).trans hfit⟩

/-- Settles O24: no bits are encoded to no bytes, and the bound of 0 bits is 0. -/
theorem encodeOfNothing : Obligations.EncodeOfNothing := by
  intro s hidle hzero
  obtain ⟨t, hexec, -, hended, -, hbecame, -⟩ :=
    (rleEncOutcome s hidle).2.2 (by omega) (by rw [hzero]; exact Nat.zero_le _)
  rw [hzero, List.take_zero] at hbecame
  exact ⟨t, hexec, hended, hbecame.len, hbecame.bytes⟩

/-! ### RLE_DEC after RLE_ENC -/

/-- Encoding the whole vector and decoding the buffer stores the vector again. -/
theorem rleDec_after_rleEnc {s : State} (hidle : s.busy = false) (hbits : s.bvLen ≤ s.params.maxBits)
    (hall : s.argNbits = s.bvLen) (hbytes : sizeBound s.bvLen ≤ s.params.maxBytes) :
    ∃ t u, exec .rleEnc s = .next t ∧ t.errCode = ErrKind.none.code ∧
      exec .rleDec t = .next u ∧ u.errCode = ErrKind.none.code ∧
      u.bvLen = s.bvLen ∧ ∀ i, i < s.bvLen → u.bit i = s.bit i := by
  obtain ⟨t, henc, -, tEnded, tKept, tBecame, -⟩ :=
    (rleEncOutcome s hidle).2.2 hall.le (by rwa [hall])
  have hwhole : s.bitVector.take s.argNbits = s.bitVector := List.take_of_length_le (by simp [hall])
  have hdec : dec t.byteBuffer = .ok s.bitVector := by rw [tBecame.byteBuffer, hwhole, dec_enc]
  have hfit : s.bitVector.length ≤ t.params.maxBits := by rwa [s.bitVector_length, tKept.params]
  obtain ⟨uLen, uCells, -, -⟩ := storeBv_endCommand_bvBecame t 3#2 s.bitVector .none 0
  refine ⟨t, _, henc, tEnded.err,
    exec_rleDec_of_idle tEnded.idle (rleDecEffect_of_fits (s := t.withCmd 3#2) hdec hfit),
    (endCommand_endedWith _ .none 0).err, uLen.trans s.bitVector_length, fun i hi => (uCells i).trans ?_⟩
  rw [dif_pos (by rwa [s.bitVector_length])]
  simp [State.bitVector]

/-- Settles O16: the round trip; the tokens of the encoder's stream; and ZRUN, which stands for no bits and is never
emitted, so its one-byte stream is accepted and not the encoding of what it decodes to. -/
theorem encodeThenDecodeRestoresTheVector : Obligations.EncodeThenDecodeRestoresTheVector := by
  refine ⟨fun s hidle hbits hall hbytes => rleDec_after_rleEnc hidle hbits hall hbytes, fun X => ?tokens,
    [0x00#8], [], rfl, by simp [enc, encLoop_nil, flushPending]⟩
  case tokens =>
    obtain ⟨ts, h⟩ := exists_canonicalStream X
    exact ⟨ts, h.tokensOf_enc, h.bits⟩

/-! ### The worst-case bound (R138) -/

/-- Settles O17: every bit pays for two fifths of a byte, and three bytes are free. -/
theorem encWithinSizeBound : Obligations.EncWithinSizeBound := enc_length_le_sizeBound

/-- The input of R138 that costs most: single ones with nine zeros between them. -/
def worstInput : Nat → List Bit
  | 0 => [true]
  | k + 1 => [true] ++ (List.replicate 9 false ++ worstInput k)

theorem worstInput_length (k : Nat) : (worstInput k).length = 10 * k + 1 := by
  induction k with
  | zero => rfl
  | succ k ih =>
    simp only [worstInput, List.length_append, List.length_replicate, List.length_singleton, ih]
    omega

theorem worstInput_head? (k : Nat) : (worstInput k).head? = some true := by cases k <;> rfl

/-- A single bit before the end or before nine zeros is a verbatim token of three bytes. -/
theorem enc_single_one {rest : List Bit} (hend : RegionEnds [true] rest) :
    enc ([true] ++ rest) = verbToken [true] ++ enc rest := by
  have hnine : ¬ HoldsNineEqual [true] := fun ⟨_, hv⟩ => absurd hv.length_le (by simp)
  exact enc_region (full := []) (last := [true]) (by simp) (by decide) hnine hend

theorem enc_worstInput_length (k : Nat) : (enc (worstInput k)).length = 4 * k + 3 := by
  have htoken : (verbToken [true]).length = 3 := rfl
  induction k with
  | zero =>
    have henc := enc_single_one (rest := []) (.inl rfl)
    rw [List.append_nil] at henc
    rw [worstInput, henc, List.length_append, htoken]
    rfl
  | succ k ih =>
    have hend : RegionEnds [true] (List.replicate 9 false ++ worstInput k) :=
      .inr ⟨false, worstInput k, rfl, by simp⟩
    rw [worstInput, enc_single_one hend, enc_run (by decide) (by decide) (.inr (by simp [worstInput_head? k])),
      List.length_append, List.length_cons, htoken, ih]
    omega

/-- Settles O18: at `10·k + 1` bits the bound is `4·k + 3`, and so many bytes the worst input takes. -/
theorem sizeBoundIsReached : Obligations.SizeBoundIsReached := by
  intro k
  have hlen := worstInput_length k
  have hbound : sizeBound (10 * k + 1) = 4 * k + 3 := by
    rw [sizeBound, if_neg (by omega)]
    omega
  exact ⟨worstInput k, hlen, enc_worstInput_length k, by rw [hlen, hbound, enc_worstInput_length]⟩

end Sys2Proof.Machine
end

section
/-! PROOFS. Run measurement (R131): the loop on cells measures what the list form does, and that is the largest run. -/

namespace Sys2Proof.Machine

open Sys2Proof

section Runs

variable {bit : Nat → Bit} {p n : Nat}

/-- The cells from `a` up to `n`. -/
def cellsUpTo (bit : Nat → Bit) (a n : Nat) : List Bit := (List.range' a (n - a)).map bit

theorem cellsUpTo_cons {a : Nat} (h : a < n) : cellsUpTo bit a n = bit a :: cellsUpTo bit (a + 1) n := by
  obtain ⟨m, hm⟩ : ∃ m, n - a = m + 1 := ⟨n - a - 1, by omega⟩
  have hm' : n - (a + 1) = m := by omega
  rw [cellsUpTo, cellsUpTo, hm, hm', List.range'_succ, List.map_cons]

theorem cellsUpTo_nil {a : Nat} (h : n ≤ a) : cellsUpTo bit a n = [] := by
  rw [cellsUpTo, Nat.sub_eq_zero_of_le h]
  rfl

@[simp] theorem cellsUpTo_length (bit : Nat → Bit) (a n : Nat) : (cellsUpTo bit a n).length = n - a := by
  simp [cellsUpTo]

/-- The measuring loop counts the leading cells that go on with the run. -/
theorem runLenFrom_eq_leadingRun (bit : Nat → Bit) (p n : Nat) {fuel r : Nat} (h : r + fuel ≤ RUN_MAX) :
    runLenFrom bit p n fuel r = leadingRun (bit p) fuel (cellsUpTo bit (p + r) n) + r := by
  induction fuel generalizing r with
  | zero => simp [runLenFrom, leadingRun]
  | succ fuel ih =>
    by_cases hin : p + r < n
    · rw [cellsUpTo_cons hin]
      simp only [runLenFrom, leadingRun, hin, show r < RUN_MAX by omega, true_and]
      split
      · rw [ih (by omega), ← Nat.add_assoc p]
        omega
      · omega
    · rw [cellsUpTo_nil (Nat.le_of_not_lt hin)]
      simp [runLenFrom, leadingRun, hin]

/-- `RUNLEN` of the cells is `RUNLEN` of the list of the cells after `p`. -/
theorem runLen_eq_runLength (bit : Nat → Bit) (p n : Nat) :
    runLen bit p n = runLength (bit p) (cellsUpTo bit (p + 1) n) :=
  runLenFrom_eq_leadingRun bit p n (by decide)

/-- The cells of a measured run are equal. -/
theorem bit_of_lt_runLen {i : Nat} (hi : i < runLen bit p n) : bit (p + i) = bit p := by
  cases i with
  | zero => rfl
  | succ i =>
    obtain ⟨hsplit, -⟩ := leadingRun_spec (bit p) (RUN_MAX - 1) (cellsUpTo bit (p + 1) n)
    have hlen := leadingRun_le_length (bit p) (RUN_MAX - 1) (cellsUpTo bit (p + 1) n)
    rw [runLen_eq_runLength, runLength] at hi
    have hcell : (cellsUpTo bit (p + 1) n)[i]? = some (bit p) := by
      rw [hsplit, List.getElem?_append_left (by simpa using hi), List.getElem?_replicate, if_pos (by omega)]
    rw [cellsUpTo_length] at hlen
    rw [cellsUpTo, List.getElem?_map, List.getElem?_range' (by omega)] at hcell
    simpa [Nat.add_assoc, Nat.add_comm 1] using hcell

/-- No longer run, within the cap and the limit, starts at `p`. -/
theorem le_runLen {r : Nat} (h127 : r ≤ 127) (hn : p + r ≤ n) (heq : ∀ i < r, bit (p + i) = bit p) :
    r ≤ runLen bit p n := by
  by_contra hlong
  obtain ⟨-, hend⟩ := leadingRun_spec (bit p) (RUN_MAX - 1) (cellsUpTo bit (p + 1) n)
  have hrun : runLen bit p n = leadingRun (bit p) (RUN_MAX - 1) (cellsUpTo bit (p + 1) n) + 1 :=
    runLen_eq_runLength bit p n
  generalize leadingRun (bit p) (RUN_MAX - 1) (cellsUpTo bit (p + 1) n) = k at hend hrun
  have hcap : k ≠ RUN_MAX - 1 := by
    simp only [RUN_MAX]
    omega
  refine hend.resolve_left hcap ?_
  rw [List.head?_drop, cellsUpTo, List.getElem?_map, List.getElem?_range' (by omega)]
  simpa [Nat.add_assoc, Nat.add_comm 1] using heq (k + 1) (by omega)

/-- Bits at `n` and above are not read (R131). -/
theorem runLen_congr {bit' : Nat → Bit} (hp : p < n) (heq : ∀ i < n, bit' i = bit i) :
    runLen bit' p n = runLen bit p n := by
  have hcells : cellsUpTo bit' (p + 1) n = cellsUpTo bit (p + 1) n :=
    List.map_congr_left fun i hi => heq i (by have := List.mem_range'_1.mp hi; omega)
  rw [runLen_eq_runLength, runLen_eq_runLength, hcells, heq p hp]

end Runs

/-- A list is the list of its elements. -/
theorem cellsUpTo_getD (v : Bit) (xs : List Bit) :
    cellsUpTo (fun i => (v :: xs).getD i false) 1 (v :: xs).length = xs := by
  refine List.ext_getElem (by simp) fun i _ hi => ?_
  simp [cellsUpTo, Nat.add_comm 1, hi]

/-- Settles O23: the bounds and maximality of a measured run of cells, and a list as the cells it holds. -/
theorem runLengthIsLargest : Obligations.RunLengthIsLargest := by
  refine ⟨fun bit p n hp => ?_, fun v xs => ?lists⟩
  · obtain ⟨h1, h127, -⟩ := runLength_bounds (bit p) (cellsUpTo bit (p + 1) n)
    rw [← runLen_eq_runLength] at h1 h127
    exact ⟨h1, h127, runLen_le bit hp, fun _ => bit_of_lt_runLen, fun _ => le_runLen, fun _ => runLen_congr hp⟩
  case lists => rw [runLen_eq_runLength, cellsUpTo_getD]; rfl

end Sys2Proof.Machine
end

section
/-! PROOFS. The running encoder (R140) against the function form (R135): what it has emitted, with what the loop
makes of the bits pending and still to read, is the same stream after every turn. -/

namespace Sys2Proof.Machine

open Sys2Proof

/-- The bytes the running encoder has written, `BYTE[0 .. WR_POS)`. -/
def State.emitted (s : State) : List Byte := (List.range s.eng.wrPos).map s.byte

/-- The bytes emitted, and those that the loop of R135 emits for the bits pending and still to read. -/
def State.encoderStream (s : State) : List Byte :=
  s.emitted ++
    encLoop (s.eng.encN - s.eng.rdPos) (cellsUpTo s.bit s.eng.rdPos s.eng.encN) s.eng.pending

section Pieces

variable {s : State}

/-! ### What each piece emits, and what it leaves pending -/

@[simp] theorem State.emitted_length (s : State) : s.emitted.length = s.eng.wrPos := by simp [State.emitted]

theorem State.emit_emitted (s : State) (P : List Byte) : (s.emit P).emitted = s.emitted ++ P := by
  refine List.ext_getElem (by simp [State.emit]) fun a _ ha => ?_
  have hbyte : (s.emit P).byte a = (s.writeBytes s.eng.wrPos P).byte a := rfl
  rw [List.length_append, s.emitted_length] at ha
  simp only [State.emitted, List.getElem_map, List.getElem_range, hbyte, State.byte_writeBytes,
    List.getElem_append, List.length_map, List.length_range]
  by_cases hlt : a < s.eng.wrPos
  · rw [dif_neg (by omega), dif_pos hlt]
  · rw [dif_pos (by omega), dif_neg hlt]

theorem State.pending_length (h : s.eng.accCnt ≤ 256) : s.eng.pending.length = s.eng.accCnt := by
  simpa [Engine.pending] using h

theorem State.pending_of_accCnt_zero (h : s.eng.accCnt = 0) : s.eng.pending = [] := by simp [Engine.pending, h]

theorem State.flush_emitted (s : State) : s.flush.emitted = s.emitted ++ verbToken s.eng.pending :=
  s.emit_emitted _

theorem State.flush_pending (s : State) : s.flush.eng.pending = [] := State.pending_of_accCnt_zero rfl

theorem State.flushIfPending_emitted (h : s.eng.accCnt ≤ 256) :
    s.flushIfPending.emitted = s.emitted ++ flushPending s.eng.pending := by
  unfold State.flushIfPending flushPending
  by_cases hzero : s.eng.accCnt = 0
  · simp [State.pending_of_accCnt_zero hzero, hzero]
  · have hne : s.eng.pending ≠ [] := List.length_pos_iff.mp (by rw [State.pending_length h]; omega)
    rw [if_pos (by omega), if_neg (by simpa using hne), State.flush_emitted]

theorem State.flushIfPending_pending (s : State) : s.flushIfPending.eng.pending = [] :=
  State.pending_of_accCnt_zero s.flushIfPending_accCnt

/-- `ACC[ACC_CNT] <- v ; ACC_CNT <- ACC_CNT + 1`, the first half of an append (R134). -/
def State.pushBit (v : Bit) (s : State) : State :=
  s.withEng { s.eng with acc := s.eng.acc.setIfInBounds s.eng.accCnt v, accCnt := s.eng.accCnt + 1 }

theorem State.appendBit_eq_pushBit (v : Bit) (s : State) :
    s.appendBit v = if s.eng.accCnt + 1 = VERB_MAX then (s.pushBit v).flush else s.pushBit v := rfl

theorem State.pushBit_emitted (v : Bit) (s : State) : (s.pushBit v).emitted = s.emitted := rfl

theorem State.pushBit_pending (v : Bit) (h : s.eng.accCnt ≤ 255) :
    (s.pushBit v).eng.pending = s.eng.pending ++ [v] := by
  have hlt : s.eng.accCnt < s.eng.acc.toList.length := by
    rw [Vector.length_toList]
    omega
  change (s.eng.acc.setIfInBounds s.eng.accCnt v).toList.take (s.eng.accCnt + 1) = _
  rw [Vector.toList_setIfInBounds, List.take_add_one, List.take_set_of_le (Nat.le_refl _),
    List.getElem?_set_self hlt]
  rfl

/-- One bit in the machine is one bit of the function form (R134). -/
theorem State.appendBit_emits (v : Bit) (h : s.eng.accCnt ≤ 255) :
    (s.appendBit v).emitted = s.emitted ++ (appendBits s.eng.pending [v]).1 ∧
      (s.appendBit v).eng.pending = (appendBits s.eng.pending [v]).2 := by
  have hlen : (s.eng.pending ++ [v]).length = s.eng.accCnt + 1 := by
    rw [List.length_append, State.pending_length (by omega), List.length_singleton]
  rw [State.appendBit_eq_pushBit]
  simp only [appendBits, hlen]
  by_cases hfull : s.eng.accCnt + 1 = VERB_MAX
  · simp [hfull, State.flush_emitted, State.flush_pending, State.pushBit_emitted, State.pushBit_pending v h]
  · simp [hfull, State.pushBit_emitted, State.pushBit_pending v h]

theorem State.appendRun_emits (v : Bit) (r : Nat) (h : s.eng.accCnt ≤ 255) :
    (State.appendRun v r s).emitted = s.emitted ++ (appendBits s.eng.pending (List.replicate r v)).1 ∧
      (State.appendRun v r s).eng.pending = (appendBits s.eng.pending (List.replicate r v)).2 := by
  induction r generalizing s with
  | zero => simp [State.appendRun, appendBits]
  | succ r ih =>
    obtain ⟨hemit, hpend⟩ := State.appendBit_emits v h
    obtain ⟨hemit', hpend'⟩ := ih (State.appendBit_accCnt_le v h)
    have hsplit : List.replicate (r + 1) v = [v] ++ List.replicate r v := rfl
    rw [hsplit, appendBits_append, State.appendRun, hemit', hpend', hemit, hpend, List.append_assoc]
    exact ⟨rfl, rfl⟩

end Pieces

/-! ### One turn of the loop -/

/-- What one turn of the loop of R135 emits and leaves pending: a flush and a run token, or appended bits. -/
def encTurn (v : Bit) (r : Nat) (A : List Bit) : List Byte × List Bit :=
  if r > RUN_THRESHOLD then (flushPending A ++ [runByte v r], []) else appendBits A (List.replicate r v)

theorem encLoop_cons_eq_encTurn (fuel : Nat) (v : Bit) (xs A : List Bit) :
    encLoop (fuel + 1) (v :: xs) A =
      (encTurn v (runLength v xs) A).1 ++
        encLoop fuel (xs.drop (runLength v xs - 1)) (encTurn v (runLength v xs) A).2 := by
  rw [encLoop_cons, encTurn]
  split <;> simp

/-- What one turn of the running encoder writes, before `ENC_MODE` and `RD_POS`. -/
def State.encodeRun (v : Bit) (r : Nat) (s : State) : State :=
  if r > RUN_THRESHOLD then s.flushIfPending.emit [runByte v r] else State.appendRun v r s

section Turn

variable {s t : State}

theorem State.encodeRun_encoderWrote (v : Bit) (r : Nat) (s : State) : EncoderWrote s (s.encodeRun v r) := by
  unfold State.encodeRun
  split
  · exact s.flushIfPending_encoderWrote.trans (State.emit_encoderWrote _ _)
  · exact State.appendRun_encoderWrote v r s

theorem State.encodeRun_accCnt_le (v : Bit) (r : Nat) (h : s.eng.accCnt ≤ 255) :
    (s.encodeRun v r).eng.accCnt ≤ 255 := by
  unfold State.encodeRun
  split
  · simp
  · exact State.appendRun_accCnt_le v r h

theorem State.encodeRun_emits (v : Bit) (r : Nat) (h : s.eng.accCnt ≤ 255) :
    (s.encodeRun v r).emitted = s.emitted ++ (encTurn v r s.eng.pending).1 ∧
      (s.encodeRun v r).eng.pending = (encTurn v r s.eng.pending).2 := by
  unfold State.encodeRun encTurn
  split
  · rw [State.emit_emitted, State.flushIfPending_emitted (by omega), List.append_assoc]
    exact ⟨rfl, s.flushIfPending_pending⟩
  · exact State.appendRun_emits v r h

/-- One turn of the running encoder (R140). -/
theorem encIteration_eq_encodeRun (s : State) :
    encIteration s =
      let t := s.encodeRun (s.bit s.eng.rdPos) (runLen s.bit s.eng.rdPos s.eng.encN)
      t.withEng { t.eng with
        encMode := encModeOf t.eng.accCnt, rdPos := s.eng.rdPos + runLen s.bit s.eng.rdPos s.eng.encN } := rfl

theorem cellsUpTo_drop (bit : Nat → Bit) (a n k : Nat) : (cellsUpTo bit a n).drop k = cellsUpTo bit (a + k) n := by
  rw [cellsUpTo, cellsUpTo, ← List.map_drop, List.drop_range', Nat.mul_one, Nat.sub_sub]

theorem KeepsBits.bit_eq (h : KeepsBits s t) : t.bit = s.bit := by
  funext i
  rw [State.bit, h.bitMem, State.bit]

theorem one_le_runLen (bit : Nat → Bit) (p n : Nat) : 1 ≤ runLen bit p n := by
  rw [runLen_eq_runLength]
  exact (runLength_bounds _ _).1

/-- Every turn reads at least one bit (R140). -/
theorem rdPos_lt_encIteration (s : State) : s.eng.rdPos < (encIteration s).eng.rdPos :=
  Nat.lt_add_of_pos_right (one_le_runLen s.bit s.eng.rdPos s.eng.encN)

/-- A turn moves bytes of the stream from those to come to those emitted. -/
theorem encIteration_encoderStream (hlt : s.eng.rdPos < s.eng.encN) (h : s.eng.accCnt ≤ 255) :
    (encIteration s).encoderStream = s.encoderStream := by
  have hmeasure := runLen_eq_runLength s.bit s.eng.rdPos s.eng.encN
  have hr1 := one_le_runLen s.bit s.eng.rdPos s.eng.encN
  have hfuel : s.eng.encN - s.eng.rdPos = s.eng.encN - s.eng.rdPos - 1 + 1 := by omega
  rw [encIteration_eq_encodeRun, State.encoderStream.eq_def s, cellsUpTo_cons hlt, hfuel, encLoop_cons_eq_encTurn]
  rw [← hmeasure]
  generalize s.bit s.eng.rdPos = v
  generalize runLen s.bit s.eng.rdPos s.eng.encN = r at hr1 ⊢
  have hwrote := s.encodeRun_encoderWrote v r
  have hencN : (s.encodeRun v r).eng.encN = s.eng.encN := by rw [hwrote.frame]
  obtain ⟨hemit, hpend⟩ := State.encodeRun_emits v r h
  have hnext : s.eng.rdPos + 1 + (r - 1) = s.eng.rdPos + r := by omega
  change (s.encodeRun v r).emitted ++ encLoop ((s.encodeRun v r).eng.encN - (s.eng.rdPos + r))
    (cellsUpTo (s.encodeRun v r).bit (s.eng.rdPos + r) (s.encodeRun v r).eng.encN) (s.encodeRun v r).eng.pending = _
  rw [hemit, hpend, hencN, hwrote.keepsBits.bit_eq, cellsUpTo_drop, hnext, List.append_assoc,
    encLoop_fuel (fuel' := s.eng.encN - s.eng.rdPos - 1) _ (by simp) (by simp; omega)]

/-! ### A run of the encoder -/

/-- The encoder, started in `s`, has come to `t`: nothing but byte space and the internal registers has changed, and
the whole stream is the one it started with. -/
structure EncoderReached (s t : State) : Prop where
  frame  : t = { s with byteMem := t.byteMem, eng := t.eng }
  encN   : t.eng.encN = s.eng.encN
  rdPos  : t.eng.rdPos ≤ t.eng.encN
  accCnt : t.eng.accCnt ≤ 255
  stream : t.encoderStream = s.encoderStream

theorem EncoderReached.turn (h : EncoderReached s t) (hlt : t.eng.rdPos < t.eng.encN) :
    EncoderReached s (encIteration t) := by
  have hwrote := t.encodeRun_encoderWrote (t.bit t.eng.rdPos) (runLen t.bit t.eng.rdPos t.eng.encN)
  have hencN : (encIteration t).eng.encN = t.eng.encN := by
    rw [encIteration_eq_encodeRun, hwrote.frame]
    rfl
  refine ⟨?frame, hencN.trans h.encN, hencN ▸ runLen_le t.bit hlt, State.encodeRun_accCnt_le _ _ h.accCnt,
    (encIteration_encoderStream hlt h.accCnt).trans h.stream⟩
  case frame =>
    obtain ⟨u, e, hu, heq⟩ := encIteration_encoderWrote t
    rw [heq, hu.frame, h.frame]
    rfl

/-- The encoder runs in `s` with nothing scheduled, and there is room for its stream. -/
structure EncoderRuns (s : State) : Prop where
  busy     : s.busy = true
  cmd      : s.cmd = 2#2
  schedule : s.host.schedule = []
  room     : s.encoderStream.length ≤ s.params.maxBytes

theorem EncoderReached.runs (h : EncoderReached s t) (hs : EncoderRuns s) : EncoderRuns t := by
  refine ⟨?_, ?_, ?_, ?_⟩
  · rw [h.frame]; exact hs.busy
  · rw [h.frame]; exact hs.cmd
  · rw [h.frame]; exact hs.schedule
  · rw [h.stream, h.frame]; exact hs.room

theorem EncoderRuns.step_eq (h : EncoderRuns s) : step s = encStep s := by
  rw [step_unscheduled h.schedule, if_pos h.busy]
  simp [engineStep, decodeCmd, h.cmd]

theorem State.wrPos_le_encoderStream (s : State) : s.eng.wrPos ≤ s.encoderStream.length := by
  simp [State.encoderStream]

/-- While there is room, a turn is not stopped. -/
theorem EncoderRuns.step_next (h : EncoderRuns s) (hlt : s.eng.rdPos < s.eng.encN) (hacc : s.eng.accCnt ≤ 255) :
    step s = .next (encIteration s) := by
  have hroom := (encIteration s).wrPos_le_encoderStream
  rw [encIteration_encoderStream hlt hacc] at hroom
  have hparams := (encIteration_sameConfig s).params
  rw [h.step_eq, encStep, if_pos hlt, withinBytes, hparams, if_neg (Nat.not_lt.mpr (hroom.trans h.room))]

/-- At the end of the input the bytes emitted and the last flush are the stream (R136). -/
theorem State.encoderStream_of_end (hend : s.eng.rdPos = s.eng.encN) (hacc : s.eng.accCnt ≤ 255) :
    s.encoderStream = s.flushIfPending.emitted := by
  rw [State.encoderStream, hend, cellsUpTo_nil (Nat.le_refl _), encLoop_nil, State.flushIfPending_emitted (by omega)]

/-- The final step stores the stream as the buffer. -/
theorem EncoderReached.step_final (h : EncoderReached s t) (hs : EncoderRuns s) (hend : t.eng.rdPos = t.eng.encN) :
    ∃ w : State, step t = .next (w.endCommand .none 0) ∧ SameInputs w (s.storeBy s.encoderStream) ∧
      w.host = s.host := by
  have hstream := State.encoderStream_of_end hend h.accCnt
  have hroom : t.flushIfPending.eng.wrPos ≤ t.params.maxBytes := by
    rw [← State.emitted_length, ← hstream]
    exact (h.runs hs).room
  refine ⟨{ t.flushIfPending with byLen := t.flushIfPending.eng.wrPos }, ?_, ?_, ?_⟩
  · rw [(h.runs hs).step_eq, encStep, if_neg (by omega), if_pos hend, if_neg (Nat.not_lt.mpr hroom)]
    rfl
  · have hbuffer : State.byteBuffer { t.flushIfPending with byLen := t.flushIfPending.eng.wrPos } =
        s.encoderStream := hstream.symm.trans h.stream
    refine ⟨?_, ?_, by rw [hbuffer, State.byteBuffer_storeBy], ?_, ?_, ?_, ?_⟩ <;>
      (rw [t.flushIfPending_encoderWrote.frame, h.frame]; rfl)
  · rw [t.flushIfPending_encoderWrote.frame, h.frame]

/-- From any state it reaches, the running encoder ends with its stream in the buffer, in at most one step a bit still
to read and one more (R140). -/
theorem EncoderReached.run {s t : State} (h : EncoderReached s t) (hs : EncoderRuns s) :
    ∃ (k : Nat) (w : State), k ≤ t.eng.encN - t.eng.rdPos + 1 ∧
      Host.Core.run core k t = .next (w.endCommand .none 0) ∧ SameInputs w (s.storeBy s.encoderStream) ∧
      w.host = s.host := by
  by_cases hlt : t.eng.rdPos < t.eng.encN
  · have hstep := (h.runs hs).step_next hlt h.accCnt
    have hreached := h.turn hlt
    have hprogress := rdPos_lt_encIteration t
    have hencN : (encIteration t).eng.encN = t.eng.encN := hreached.encN.trans h.encN.symm
    obtain ⟨k, w, hk, hrun, hw⟩ := hreached.run hs
    exact ⟨k + 1, w, by omega, (run_succ_of_step k hstep).trans hrun, hw⟩
  · obtain ⟨w, hstep, hw⟩ := h.step_final hs (Nat.le_antisymm h.rdPos (Nat.le_of_not_lt hlt))
    exact ⟨1, w, Nat.le_add_left _ _, run_succ_of_step 0 hstep, hw⟩
termination_by t.eng.encN - t.eng.rdPos
decreasing_by omega

/-! ### The start (R140) -/

/-- A started encoder, its tests passed. -/
def State.startedEncoder (s : State) : State :=
  (s.setBusy true).withEng { s.eng with
    rdPos := 0, wrPos := 0, accCnt := 0, encMode := .scanningRun, encN := s.argNbits }

/-- The start makes the tests of RLE_ENC in the order of R137. -/
theorem startEncoder_cases (s : State) :
    (s.bvLen < s.argNbits ∧ startEncoder s = s.endCommand .range 0) ∨
    (s.argNbits ≤ s.bvLen ∧ s.params.maxBytes < sizeBound s.argNbits ∧
      startEncoder s = s.endCommand .allocation 0) ∨
    (s.argNbits ≤ s.bvLen ∧ sizeBound s.argNbits ≤ s.params.maxBytes ∧ startEncoder s = s.startedEncoder) := by
  unfold startEncoder
  by_cases hout : s.bvLen < s.argNbits
  · exact .inl ⟨hout, if_pos (by simpa [State.encodeOutOfRange] using hout)⟩
  · have hin : s.argNbits ≤ s.bvLen := Nat.le_of_not_lt hout
    rw [if_neg (by simpa [State.encodeOutOfRange] using hin)]
    by_cases hlong : s.params.maxBytes < sizeBound s.argNbits
    · exact .inr (.inl ⟨hin, hlong, if_pos hlong⟩)
    · exact .inr (.inr ⟨hin, Nat.le_of_not_lt hlong, if_neg hlong⟩)

theorem cellsUpTo_zero {n : Nat} (hin : n ≤ s.bvLen) : cellsUpTo s.bit 0 n = s.bitVector.take n := by
  rw [cellsUpTo, State.bitVector, ← List.map_take, List.take_range, Nat.min_eq_left hin, List.range_eq_range',
    Nat.sub_zero]

/-- From its start the stream of the encoder is that of the prefix. -/
theorem State.startedEncoder_encoderStream (hin : s.argNbits ≤ s.bvLen) :
    s.startedEncoder.encoderStream = enc (s.bitVector.take s.argNbits) := by
  have hlen : (s.bitVector.take s.argNbits).length = s.argNbits := by simpa using hin
  rw [enc, hlen, ← cellsUpTo_zero hin]
  rfl

/-- A started encoder ends with the result of the function form (R135). -/
theorem startedEncoder_run (hcmd : s.cmd = 2#2) (hsched : s.host.schedule = []) (hin : s.argNbits ≤ s.bvLen)
    (hfit : sizeBound s.argNbits ≤ s.params.maxBytes) :
    ∃ (k : Nat) (w : State), k ≤ s.argNbits + 1 ∧
      Host.Core.run core k s.startedEncoder = .next (w.endCommand .none 0) ∧
      SameInputs w (s.storeBy (enc (s.bitVector.take s.argNbits))) ∧ w.host = s.host := by
  have hstream := State.startedEncoder_encoderStream hin
  have hruns : EncoderRuns s.startedEncoder := by
    refine ⟨State.busy_setBusy s true, hcmd, hsched, ?_⟩
    rw [hstream]
    exact (encodeSource_enc_length_le hin).trans hfit
  have hreached : EncoderReached s.startedEncoder s.startedEncoder :=
    ⟨rfl, rfl, Nat.zero_le _, Nat.zero_le _, rfl⟩
  obtain ⟨k, w, hk, hrun, hsame, hhost⟩ := hreached.run hruns
  rw [hstream] at hsame
  have hreserved := hsame.reserved.trans (State.reservedBits_setBusy s true)
  exact ⟨k, w, hk, hrun,
    ⟨hsame.params, hsame.bv, hsame.by_, hsame.argOff, hsame.argNbits, hreserved, hsame.cmd⟩, hhost⟩

theorem writeCmd_machine (c : BitVec 2) (hgrain : s.grain = .machine) (hidle : s.busy = false) :
    writeCmd c s = .next (startCommand c s) := by simp [writeCmd, hgrain, hidle]

/-- The write of `CMD` in the machine form starts the encoder on the inputs of the function form. -/
theorem step_starts_encoder {ms : List HostMove} (hidle : s.busy = false) (hgrain : s.grain = .machine)
    (hsched : s.host.schedule = []) (hmoves : s.host.moves = .writeCmd 2#2 :: ms) :
    ∃ s₁ : State, step s = .next (startEncoder s₁) ∧ SameInputs s₁ (s.withCmd 2#2) ∧
      s₁.host.schedule = [] ∧ s₁.host.moves = ms := by
  have hstart := writeCmd_machine (s := s.withHost { s.host with moves := ms }) 2#2 hgrain hidle
  exact ⟨_, (step_unscheduled_move hidle hsched hmoves).trans hstart, ⟨rfl, rfl, rfl, rfl, rfl, rfl, rfl⟩,
    hsched, rfl⟩

end Turn

/-- Settles O34: a start that fails ends the command as the function form does; any other is followed by the turns of
the loop, which keep the stream, and the final step, which stores it. -/
theorem encoderMachineMatchesFunction : Obligations.EncoderMachineMatchesFunction := by
  intro s ms _ hidle hgrain hsched hmoves
  obtain ⟨s₁, hstart, hsame, hsched₁, hmoves₁⟩ := step_starts_encoder hidle hgrain hsched hmoves
  have hexec : exec .rleEnc s = .next (rleEncEffect (s.withCmd 2#2)) := exec_rleEnc_of_idle hidle rfl
  have hresult := rleEncEffect_result hsame
  have hnbits : s₁.argNbits = s.argNbits := hsame.argNbits
  rcases startEncoder_cases s₁ with ⟨hout, heq⟩ | ⟨hin, hlong, heq⟩ | ⟨hin, hfit, heq⟩ <;> rw [heq] at hstart
  · rw [rleEncEffect_of_outOfRange hout] at hresult
    exact ⟨_, _, 0, hexec, Nat.zero_le _, run_succ_of_step 0 hstart, s₁.busy_endCommand _ _, hresult, hmoves₁⟩
  · rw [rleEncEffect_of_tooLong hin hlong] at hresult
    exact ⟨_, _, 0, hexec, Nat.zero_le _, run_succ_of_step 0 hstart, s₁.busy_endCommand _ _, hresult, hmoves₁⟩
  · obtain ⟨k, w, hk, hrun, hstored, hhost⟩ := startedEncoder_run hsame.cmd hsched₁ hin hfit
    rw [rleEncEffect_of_fits hin hfit] at hresult
    rw [← run_succ_of_step k hstart, Nat.add_comm] at hrun
    exact ⟨_, _, k, hexec, hnbits ▸ hk, hrun, w.busy_endCommand _ _,
      (hstored.result_endCommand .none 0).trans hresult, (congrArg HostSide.moves hhost).trans hmoves₁⟩

end Sys2Proof.Machine
end

section
/-! PROOFS. `DEC` on a stream (R161): its equations at offset 0 of any stream (O12), and one equation a token. A stream
is accepted exactly when it is the bytes of a list of tokens, and is malformed exactly at the end of such a list. -/

namespace Sys2Proof.Machine

open Sys2Proof

/-! ### The equations of `DEC` -/

theorem decLoop_nil (fuel p : Nat) : decLoop fuel p [] = .ok [] := by cases fuel <;> rfl

theorem decLoop_verb {sc : Byte} {S : List Byte} (hfit : ceil8 (sc.toNat + 1) ≤ S.length) (fuel p : Nat) :
    decLoop (fuel + 1) p (SENTINEL :: sc :: S) =
      (decLoop fuel (p + 2 + ceil8 (sc.toNat + 1)) (S.drop (ceil8 (sc.toNat + 1)))).map
        (unpack S 0 (sc.toNat + 1) ++ ·) := (if_neg (by simp)).trans (if_pos hfit)

theorem decLoop_truncated {sc : Byte} {S : List Byte} (hshort : S.length < ceil8 (sc.toNat + 1)) (fuel p : Nat) :
    decLoop (fuel + 1) p (SENTINEL :: sc :: S) = .error p := (if_neg (by simp)).trans (if_neg (by omega))

theorem decLoop_lone_sentinel (fuel p : Nat) : decLoop (fuel + 1) p [SENTINEL] = .error p := rfl

/-- The bits before a result and the offset it starts at change independently. -/
theorem except_mapError_map {β γ : Type} (f : β → γ) (m : Nat) (x : Except Nat β) :
    (x.mapError (· + m)).map f = (x.map f).mapError (· + m) := by
  cases x <;> rfl

/-- Fuel enough for the bytes is as good as any, and the start offset only moves the offset of an error. -/
theorem decLoop_eq_mapError {fuel fuel' p m : Nat} {S : List Byte} (hfuel : S.length ≤ fuel)
    (hfuel' : S.length ≤ fuel') : decLoop fuel (p + m) S = (decLoop fuel' p S).mapError (· + m) := by
  induction fuel generalizing fuel' p S with
  | zero =>
    obtain rfl : S = [] := by simpa using hfuel
    rw [decLoop_nil, decLoop_nil]
    rfl
  | succ fuel ih =>
    cases S with
    | nil => rw [decLoop_nil, decLoop_nil]; rfl
    | cons b S =>
      obtain ⟨fuel', rfl⟩ : ∃ k, fuel' = k + 1 := ⟨fuel' - 1, by simp at hfuel'; omega⟩
      simp only [List.length_cons, Nat.add_le_add_iff_right] at hfuel hfuel'
      by_cases hb : b = SENTINEL
      · subst hb
        cases S with
        | nil => rfl
        | cons sc S =>
          rcases Nat.lt_or_ge S.length (ceil8 (sc.toNat + 1)) with hshort | hfit
          · rw [decLoop_truncated hshort, decLoop_truncated hshort]
            rfl
          · have hdrop : (S.drop (ceil8 (sc.toNat + 1))).length ≤ S.length := by simp
            rw [List.length_cons] at hfuel hfuel'
            rw [decLoop_verb hfit, decLoop_verb hfit, ← except_mapError_map,
              ← ih (p := p + 2 + _) (by omega) (by omega)]
            congr 2
            omega
      · rw [decLoop_of_ne_sentinel hb, decLoop_of_ne_sentinel hb, ← except_mapError_map, ← ih hfuel hfuel',
          Nat.add_right_comm]

theorem decLoop_eq_dec {fuel p : Nat} {S : List Byte} (hfuel : S.length ≤ fuel) :
    decLoop fuel p S = (dec S).mapError (· + p) := by
  have h := decLoop_eq_mapError (p := 0) (m := p) hfuel (Nat.le_refl S.length)
  rwa [Nat.zero_add] at h

theorem dec_nil : dec [] = .ok [] := rfl

theorem dec_of_ne_sentinel {b : Byte} (hb : b ≠ SENTINEL) (S : List Byte) :
    dec (b :: S) =
      ((dec S).map (List.replicate (b.toNat % 128) (b.getLsbD 7) ++ ·)).mapError (· + 1) := by
  rw [dec, List.length_cons, decLoop_of_ne_sentinel hb, decLoop_eq_dec (Nat.le_refl _), except_mapError_map,
    lengthField_toNat, Nat.zero_add]

theorem dec_verb {sc : Byte} {S : List Byte} (hfit : ceil8 (sc.toNat + 1) ≤ S.length) :
    dec (SENTINEL :: sc :: S) =
      ((dec (S.drop (ceil8 (sc.toNat + 1)))).map (unpack S 0 (sc.toNat + 1) ++ ·)).mapError
        (· + 2 + ceil8 (sc.toNat + 1)) := by
  rw [dec, List.length_cons, decLoop_verb hfit, decLoop_eq_dec (by simp; omega), except_mapError_map]
  simp only [Nat.zero_add, Nat.add_assoc]

/-- Two bytes in front move every packed bit by 16. -/
theorem unpack_cons_cons (a b : Byte) (P : List Byte) (n : Nat) :
    unpack (a :: b :: P) 16 n = unpack P 0 n := by
  refine List.map_congr_left fun i _ => ?_
  have hbyte : (16 + i) / 8 = (0 + i) / 8 + 1 + 1 := by omega
  have hplace : (16 + i) % 8 = (0 + i) % 8 := by omega
  rw [packedBit, packedBit, hbyte, hplace, List.getD_cons_succ, List.getD_cons_succ]

/-- Settles O12: one turn of the loop of `DEC` for each first byte, with the rest decoded from its own offset 0. -/
theorem decEquations : Obligations.DecEquations := by
  refine ⟨dec_nil, fun b S hb => ?run, fun sc S hfit => ?verb, fun sc S hshort => decLoop_truncated hshort _ 0,
    decLoop_lone_sentinel 0 0⟩
  case run =>
    rw [dec_of_ne_sentinel hb]
    cases dec S <;> rfl
  case verb =>
    rw [unpack_cons_cons]
    refine (dec_verb hfit).trans ?_
    cases dec (S.drop (ceil8 (sc.toNat + 1))) <;> rfl

/-! ### One token -/

/-- An instruction of the token level that is a token of the format (R72, R77). -/
def IsToken (i : Instr) : Prop := WellFormed i = true ∧ i.isCommand = false

theorem runField_of_valueBit (v : BitVec 1) {b : Byte} (hv : b.toNat / 128 = v.toNat) :
    (v ++ b.extractLsb' 0 7 : Byte) = b := by
  apply BitVec.eq_of_toNat_eq
  rw [runField_toNat, lengthField_toNat]
  omega

/-- A sentinel with its count byte and payload there is a verbatim token (R72). -/
theorem decodeToken_verb_take {sc : Byte} {more : List Byte} (hfit : ceil8 (verbCount sc) ≤ more.length) :
    decodeToken (SENTINEL :: sc :: more) =
      .ok (.verb sc (more.take (ceil8 (verbCount sc))), more.drop (ceil8 (verbCount sc))) := by
  have hp : (more.take (ceil8 (verbCount sc))).length = ceil8 (verbCount sc) := by
    rw [List.length_take]
    exact Nat.min_eq_left hfit
  have hread := decodeToken_verb hp (more.drop (ceil8 (verbCount sc)))
  rwa [List.cons_append, List.cons_append, List.take_append_drop] at hread

/-- What the decoder reads is a token, and the bytes it has taken are the bytes of that token (R70 to R75). -/
theorem decodeToken_ok_iff {S rest : List Byte} {i : Instr} :
    decodeToken S = .ok (i, rest) ↔ IsToken i ∧ S = tokenBytes i ++ rest := by
  refine ⟨fun h => ?_, fun ⟨⟨hwf, htok⟩, hS⟩ => hS ▸ decodeToken_tokenBytes hwf htok rest⟩
  cases S with
  | nil => simp [decodeToken] at h
  | cons b S =>
    cases hkind : firstByteKind b with
    | zrun =>
      obtain rfl := firstByteKind_eq_zrun_iff.mp hkind
      obtain ⟨rfl, rfl⟩ : .zrun = i ∧ S = rest := by simpa [decodeToken_zrun] using h
      exact ⟨⟨rfl, rfl⟩, rfl⟩
    | run0 =>
      obtain ⟨hpos, hlt⟩ := firstByteKind_eq_run0_iff.mp hkind
      obtain ⟨rfl, rfl⟩ : .run0 (b.extractLsb' 0 7) = i ∧ S = rest := by
        simpa [decodeToken_run0 hpos hlt] using h
      have hlen := lengthField_toNat b
      refine ⟨⟨?_, rfl⟩, ?_⟩
      · simp only [WellFormed, bne_iff_ne, ne_eq]
        bv_omega
      · exact congrArg (· :: S) (runField_of_valueBit 0#1 (by simpa using hlt)).symm
    | run1 =>
      have hgt := firstByteKind_eq_run1_iff.mp hkind
      obtain ⟨rfl, rfl⟩ : .run1 (b.extractLsb' 0 7) = i ∧ S = rest := by simpa [decodeToken_run1 hgt] using h
      have hlen := lengthField_toNat b
      have hb := b.isLt
      refine ⟨⟨?_, rfl⟩, ?_⟩
      · simp only [WellFormed, bne_iff_ne, ne_eq]
        bv_omega
      · exact congrArg (· :: S) (runField_of_valueBit 1#1 (by simp; omega)).symm
    | verb =>
      obtain rfl := firstByteKind_eq_verb_iff.mp hkind
      obtain ⟨sc, S, rfl, hfit⟩ := decodeToken_sentinel_ok h
      obtain ⟨rfl, rfl⟩ := Prod.mk.inj (Except.ok.inj (h.symm.trans (decodeToken_verb_take hfit)))
      exact ⟨⟨by simpa [WellFormed] using hfit, rfl⟩, by simp [tokenBytes, encode]⟩

/-- The four kinds of token, each with what its format asks of its fields. -/
theorem IsToken.cases {i : Instr} (hi : IsToken i) :
    i = .zrun ∨ (∃ len, len ≠ 0#7 ∧ i = .run0 len) ∨ (∃ len, len ≠ 0#7 ∧ i = .run1 len) ∨
      ∃ sc payload, payload.length = ceil8 (verbCount sc) ∧ i = .verb sc payload := by
  obtain ⟨hwf, htok⟩ := hi
  cases i with
  | explode => cases htok
  | implode => cases htok
  | rleEnc => cases htok
  | rleDec => cases htok
  | verb sc payload => exact .inr (.inr (.inr ⟨sc, payload, beq_iff_eq.mp hwf, rfl⟩))
  | zrun => exact .inl rfl
  | run0 len => exact .inr (.inl ⟨len, bne_iff_ne.mp hwf, rfl⟩)
  | run1 len => exact .inr (.inr (.inl ⟨len, bne_iff_ne.mp hwf, rfl⟩))

/-- A verbatim token is as long as its stride (R73). -/
theorem tokenBytes_verb_length {sc : Byte} {payload : List Byte} (hp : payload.length = ceil8 (verbCount sc)) :
    (tokenBytes (.verb sc payload)).length = verbStride sc := (congrArg (· + 2) hp).trans (Nat.add_comm _ 2)

theorem tokenBytes_pos {i : Instr} (hi : IsToken i) : 0 < (tokenBytes i).length :=
  List.length_pos_iff.mpr (tokenBytes_ne_nil hi.2)

/-- The token at the head of the stream passes its end (R165): a sentinel whose count byte is missing, or whose
payload is not all there. -/
def HeadTruncated (S : List Byte) : Prop :=
  S = [SENTINEL] ∨ ∃ sc more, S = SENTINEL :: sc :: more ∧ more.length < ceil8 (verbCount sc)

/-- Only such a stream, of those with a first byte, starts with no token. -/
theorem headTruncated_iff {S : List Byte} : HeadTruncated S ↔ S ≠ [] ∧ ∃ e, decodeToken S = .error e := by
  constructor
  · rintro (rfl | ⟨sc, more, rfl, hshort⟩)
    · exact ⟨List.cons_ne_nil _ _, _, rfl⟩
    · refine ⟨List.cons_ne_nil _ _, .payloadTruncated, ?_⟩
      have hkind : firstByteKind SENTINEL = .verb := firstByteKind_eq_verb_iff.mpr rfl
      simp [decodeToken, hkind, Nat.not_le.mpr hshort]
  · rintro ⟨hne, e, he⟩
    obtain ⟨b, S, rfl⟩ := List.exists_cons_of_ne_nil hne
    by_cases hb : b = SENTINEL
    · subst hb
      cases S with
      | nil => exact .inl rfl
      | cons sc more =>
        refine .inr ⟨sc, more, rfl, Nat.lt_of_not_le fun hfit => ?_⟩
        cases (decodeToken_verb_take hfit).symm.trans he
    · obtain ⟨i, hi⟩ := decodeToken_of_ne_sentinel hb S
      cases hi.symm.trans he

theorem dec_of_headTruncated {S : List Byte} (h : HeadTruncated S) : dec S = .error 0 := by
  obtain rfl | ⟨sc, more, rfl, hshort⟩ := h
  · exact decLoop_lone_sentinel 0 0
  · exact decLoop_truncated hshort _ 0

theorem run0Byte_ne_sentinel (len : BitVec 7) : (0#1 ++ len : Byte) ≠ SENTINEL := by
  have hnat := runField_toNat 0#1 len
  have hlen := len.isLt
  unfold SENTINEL
  bv_omega

theorem run1Byte_ne_sentinel {len : BitVec 7} (hne : len ≠ 0#7) : (1#1 ++ len : Byte) ≠ SENTINEL := by
  have hnat := runField_toNat 1#1 len
  unfold SENTINEL
  bv_omega

/-- The one byte of a run token: its length field and value bit are the token's (R71). -/
theorem dec_runField {v : BitVec 1} {len : BitVec 7} (hne : (v ++ len : Byte) ≠ SENTINEL) (rest : List Byte) :
    dec ((v ++ len : Byte) :: rest) =
      ((dec rest).map (List.replicate len.toNat (decide (v = 1#1)) ++ ·)).mapError (· + 1) := by
  have hlen := len.isLt
  have hnat := runField_toNat v len
  have hfield : (v ++ len : Byte).toNat % 128 = len.toNat := by omega
  have hvalue : (v ++ len : Byte).getLsbD 7 = decide (v = 1#1) := by
    rw [valueBit_eq]
    exact decide_eq_decide.mpr (by bv_omega)
  rw [dec_of_ne_sentinel hne, hfield, hvalue]

/-- One token of a stream: its bits stand before those of the rest, and its bytes move the offset of an error. -/
theorem dec_tokenBytes_append {i : Instr} (hi : IsToken i) (rest : List Byte) :
    dec (tokenBytes i ++ rest) =
      ((dec rest).map (tokenBits i ++ ·)).mapError (· + (tokenBytes i).length) := by
  obtain rfl | ⟨len, -, rfl⟩ | ⟨len, hne, rfl⟩ | ⟨sc, payload, hp, rfl⟩ := hi.cases
  · exact dec_of_ne_sentinel (by decide) rest
  · exact dec_runField (run0Byte_ne_sentinel len) rest
  · exact dec_runField (run1Byte_ne_sentinel hne) rest
  · have hp' : payload.length = ceil8 (sc.toNat + 1) := hp
    have hbits : unpack (payload ++ rest) 0 (sc.toNat + 1) = tokenBits (.verb sc payload) := by
      have htake := unpack_take (payload ++ rest) (m := payload.length) (n := sc.toNat + 1)
        (by rw [hp']; unfold ceil8; omega)
      rw [List.take_left] at htake
      exact htake.symm
    have hverb := dec_verb (sc := sc) (S := payload ++ rest) (by rw [List.length_append]; omega)
    rw [hbits, ← hp', List.drop_left] at hverb
    rw [tokenBytes_verb_length hp, verbStride, ← hp]
    simp only [← Nat.add_assoc]
    exact hverb

/-! ### Lists of tokens -/

/-- The tokens of a stream, as far as it has any: what follows them is the end or a truncated token (R73, R165). -/
theorem exists_tokens (S : List Byte) : ∃ (ts : List Instr) (rest : List Byte), (∀ i ∈ ts, IsToken i) ∧
    S = ts.flatMap tokenBytes ++ rest ∧ (rest = [] ∨ HeadTruncated rest) := by
  by_cases hne : S = []
  · exact ⟨[], [], by simp, by simp [hne], .inl rfl⟩
  · cases hread : decodeToken S with
    | error e => exact ⟨[], S, by simp, rfl, .inr (headTruncated_iff.mpr ⟨hne, e, hread⟩)⟩
    | ok token =>
      obtain ⟨hi, hS⟩ := decodeToken_ok_iff.mp hread
      have hshorter : token.2.length < S.length := by
        have := tokenBytes_pos hi
        rw [hS, List.length_append]
        omega
      obtain ⟨ts, rest, hts, hrest, hend⟩ := exists_tokens token.2
      exact ⟨token.1 :: ts, rest, List.forall_mem_cons.mpr ⟨hi, hts⟩,
        by rw [List.flatMap_cons, List.append_assoc, ← hrest, ← hS], hend⟩
termination_by S.length

section Tokens

variable {ts : List Instr}

/-- Tokens in front of a stream: their bits stand before its own, and their bytes move the offset of an error. -/
theorem dec_tokens_append (hts : ∀ i ∈ ts, IsToken i) (rest : List Byte) :
    dec (ts.flatMap tokenBytes ++ rest) =
      ((dec rest).map (ts.flatMap tokenBits ++ ·)).mapError (· + (ts.flatMap tokenBytes).length) := by
  induction ts with
  | nil => cases h : dec rest <;> simp [h, Except.map, Except.mapError]
  | cons i ts ih =>
    obtain ⟨hi, hrest⟩ := List.forall_mem_cons.mp hts
    rw [List.flatMap_cons, List.append_assoc, dec_tokenBytes_append hi, ih hrest]
    cases dec rest <;> simp [Except.map, Except.mapError, Nat.add_comm, Nat.add_left_comm]

theorem dec_tokens (hts : ∀ i ∈ ts, IsToken i) : dec (ts.flatMap tokenBytes) = .ok (ts.flatMap tokenBits) := by
  simpa [dec_nil, Except.map, Except.mapError] using dec_tokens_append hts []

theorem dec_tokens_headTruncated (hts : ∀ i ∈ ts, IsToken i) {rest : List Byte} (hrest : HeadTruncated rest) :
    dec (ts.flatMap tokenBytes ++ rest) = .error (ts.flatMap tokenBytes).length := by
  simp [dec_tokens_append hts, dec_of_headTruncated hrest, Except.map, Except.mapError]

end Tokens

/-- The accepted streams are the bytes of lists of tokens, and decode to their bits (R161, R164). -/
theorem dec_eq_ok_iff {S : List Byte} {D : List Bit} :
    dec S = .ok D ↔
      ∃ ts : List Instr, (∀ i ∈ ts, IsToken i) ∧ S = ts.flatMap tokenBytes ∧ D = ts.flatMap tokenBits := by
  constructor
  · intro h
    obtain ⟨ts, rest, hts, rfl, rfl | hrest⟩ := exists_tokens S
    · rw [List.append_nil, dec_tokens hts] at h
      exact ⟨ts, hts, List.append_nil _, (Except.ok.inj h).symm⟩
    · rw [dec_tokens_headTruncated hts hrest] at h
      cases h
  · rintro ⟨ts, hts, rfl, rfl⟩
    exact dec_tokens hts

/-- A stream is malformed exactly at a truncated token that follows tokens (R165). -/
theorem dec_eq_error_iff {S : List Byte} {p : Nat} :
    dec S = .error p ↔ ∃ (ts : List Instr) (rest : List Byte), (∀ i ∈ ts, IsToken i) ∧
      S = ts.flatMap tokenBytes ++ rest ∧ HeadTruncated rest ∧ p = (ts.flatMap tokenBytes).length := by
  constructor
  · intro h
    obtain ⟨ts, rest, hts, rfl, rfl | hrest⟩ := exists_tokens S
    · rw [List.append_nil, dec_tokens hts] at h
      cases h
    · rw [dec_tokens_headTruncated hts hrest] at h
      exact ⟨ts, rest, hts, rfl, hrest, (Except.error.inj h).symm⟩
  · rintro ⟨ts, rest, hts, rfl, hrest, rfl⟩
    exact dec_tokens_headTruncated hts hrest

/-! ### The obligations about streams -/

/-- Settles O20: an accepted stream is the bytes of tokens, which the token decoder gives back. -/
theorem decIsTokenByToken : Obligations.DecIsTokenByToken := by
  refine fun S D => ⟨fun h => ?_, fun ⟨ts, hsplit, hD⟩ => hD ▸ dec_of_tokensOf hsplit⟩
  obtain ⟨ts, hts, rfl, rfl⟩ := dec_eq_ok_iff.mp h
  exact ⟨ts, tokensOf_flatMap_tokenBytes hts (Nat.le_refl _), rfl⟩

theorem dec_append {S₁ S₂ : List Byte} {D₁ D₂ : List Bit} (h₁ : dec S₁ = .ok D₁) (h₂ : dec S₂ = .ok D₂) :
    dec (S₁ ++ S₂) = .ok (D₁ ++ D₂) := by
  obtain ⟨ts, hts, rfl, rfl⟩ := dec_eq_ok_iff.mp h₁
  simp [dec_tokens_append hts, h₂, Except.map, Except.mapError]

/-- Settles O21: the tokens of the first stream stand in front of the second. -/
theorem acceptedStreamsJoin : Obligations.AcceptedStreamsJoin := fun _ _ _ _ => dec_append

end Sys2Proof.Machine
end

section
/-! PROOFS. RLE_DEC from every idle state (R161, R171), the offset MALFORMED reports (R165), by the walk of R73, and the
decoded length (R164). -/

namespace Sys2Proof.Machine

open Sys2Proof

/-! ### The three branches of RLE_DEC -/

theorem rleDecEffect_of_malformed {s : State} {q : Nat} (hdec : dec s.byteBuffer = .error q) :
    rleDecEffect s = s.endCommand .malformed q := by
  rcases rleDecEffect_cases s with ⟨q', hq, heff⟩ | ⟨D, hD, -⟩ | ⟨D, hD, -⟩
  · obtain rfl : q = q' := by simpa [hdec] using hq
    exact heff
  · simp [hdec] at hD
  · simp [hdec] at hD

theorem rleDecEffect_of_tooLong {s : State} {D : List Bit} (hdec : dec s.byteBuffer = .ok D)
    (hlong : s.params.maxBits < D.length) : rleDecEffect s = s.endCommand .allocation 0 := by
  rcases rleDecEffect_cases s with ⟨q, hq, -⟩ | ⟨-, -, -, heff⟩ | ⟨D', hD, hfit, -⟩
  · simp [hdec] at hq
  · exact heff
  · obtain rfl : D = D' := by simpa [hdec] using hD
    omega

/-- Settles O11: one branch of RLE_DEC for each clause. -/
theorem rleDecOutcome : Obligations.RleDecOutcome := by
  refine fun s hidle => ⟨fun q hdec => ?malformed, fun D hdec hlong => ?allocation, fun D hdec hfit => ?decoded⟩
  case malformed =>
    exact ⟨_, exec_rleDec_of_idle hidle (rleDecEffect_of_malformed (s := s.withCmd 3#2) hdec), rfl,
      endCommand_errorEntry s 3#2 .malformed q⟩
  case allocation =>
    exact ⟨_, exec_rleDec_of_idle hidle (rleDecEffect_of_tooLong (s := s.withCmd 3#2) hdec hlong), rfl,
      endCommand_errorEntry s 3#2 .allocation 0⟩
  case decoded =>
    exact ⟨_, exec_rleDec_of_idle hidle (rleDecEffect_of_fits (s := s.withCmd 3#2) hdec hfit), rfl,
      endCommand_endedWith _ .none 0, storeBv_endCommand_keptByCommand s 3#2 D .none 0,
      storeBv_endCommand_bvBecame s 3#2 D .none 0⟩

/-- The outcome of RLE_DEC is the outcome of `DEC` on the buffer. -/
theorem exec_rleDec_errCode {s t : State} (h : exec .rleDec s = .next t) :
    (∃ q, dec s.byteBuffer = .error q ∧ t.errCode = ErrKind.malformed.code ∧ t.errInfo = q) ∨
    (∃ D, dec s.byteBuffer = .ok D ∧ t.errCode = ErrKind.allocation.code) ∨
    (∃ D, dec s.byteBuffer = .ok D ∧ t.errCode = ErrKind.none.code ∧ t.bvLen = D.length) := by
  obtain ⟨-, rfl⟩ := (issue_next 3#2 rleDecEffect).mp h
  rcases rleDecEffect_cases (s.withCmd 3#2) with ⟨q, hq, heff⟩ | ⟨D, hD, -, heff⟩ | ⟨D, hD, -, heff⟩ <;> rw [heff]
  · exact .inl ⟨q, hq, State.errCode_endCommand _ _ _, rfl⟩
  · exact .inr (.inl ⟨D, hD, State.errCode_endCommand _ _ _⟩)
  · exact .inr (.inr ⟨D, hD, State.errCode_endCommand _ _ _, rfl⟩)

/-! ### The walk of R73 -/

section Walk

variable {S : List Byte} {q : Nat}

theorem drop_eq_getD_cons (hq : q < S.length) : S.drop q = S.getD q 0#8 :: S.drop (q + 1) := by
  rw [List.drop_eq_getElem_cons hq, List.getD_eq_getElem S _ hq]

/-- The first byte of the rest of a stream, and what follows it. -/
theorem getD_of_drop_eq_cons {b : Byte} {rest : List Byte} (hS : S.drop q = b :: rest) :
    q < S.length ∧ S.getD q 0#8 = b ∧ S.drop (q + 1) = rest := by
  have hq : q < S.length := by
    by_contra hout
    rw [List.drop_eq_nil_of_le (Nat.le_of_not_lt hout)] at hS
    cases hS
  exact ⟨hq, List.cons.inj ((drop_eq_getD_cons hq).symm.trans hS)⟩

/-- A token passes the end of the stream exactly where the rest of the stream starts with a truncated token. -/
theorem overshoots_iff : Overshoots S q ↔ HeadTruncated (S.drop q) := by
  constructor
  · rintro ⟨hq, hb, hlone | ⟨hq', hshort⟩⟩ <;> rw [drop_eq_getD_cons hq, hb]
    · exact .inl (by rw [List.drop_eq_nil_of_le hlone.ge])
    · refine .inr ⟨_, _, by rw [drop_eq_getD_cons hq'], ?_⟩
      rw [List.length_drop]
      unfold verbStride at hshort
      omega
  · rintro (hlone | ⟨sc, more, hverb, hshort⟩)
    · obtain ⟨hq, hb, hrest⟩ := getD_of_drop_eq_cons hlone
      have := List.drop_eq_nil_iff.mp hrest
      exact ⟨hq, hb, .inl (by omega)⟩
    · obtain ⟨hq, hb, hrest⟩ := getD_of_drop_eq_cons hverb
      obtain ⟨hq', hsc, hmore⟩ := getD_of_drop_eq_cons hrest
      refine ⟨hq, hb, .inr ⟨hq', ?_⟩⟩
      rw [← hmore, List.length_drop] at hshort
      rw [hsc]
      unfold verbStride
      omega

/-- The walk goes on past a token (R73). -/
theorem Reaches.token (h : Reaches S q) {i : Instr} {rest : List Byte} (hi : IsToken i)
    (hS : S.drop q = tokenBytes i ++ rest) : Reaches S (q + (tokenBytes i).length) := by
  have hrun {b : Byte} (hb : b ≠ SENTINEL) (hS : S.drop q = b :: rest) : Reaches S (q + 1) := by
    obtain ⟨hq, hhead, -⟩ := getD_of_drop_eq_cons hS
    exact .run q h hq (hhead ▸ hb)
  obtain rfl | ⟨len, -, rfl⟩ | ⟨len, hne, rfl⟩ | ⟨sc, payload, hp, rfl⟩ := hi.cases
  · exact hrun (by decide) hS
  · exact hrun (run0Byte_ne_sentinel len) hS
  · exact hrun (run1Byte_ne_sentinel hne) hS
  · obtain ⟨hq, hb, hrest⟩ := getD_of_drop_eq_cons hS
    obtain ⟨hq', hsc, -⟩ := getD_of_drop_eq_cons hrest
    have hlen := congrArg List.length hS
    rw [List.length_drop, List.length_append, tokenBytes_verb_length hp] at hlen
    rw [tokenBytes_verb_length hp, ← hsc]
    exact .verb q h hq' hb (by rw [hsc]; omega)

/-- The offset `q` is the end of a list of tokens in front of the stream. -/
def AfterTokens (S : List Byte) (q : Nat) : Prop :=
  ∃ (ts : List Instr) (rest : List Byte), (∀ i ∈ ts, IsToken i) ∧ S = ts.flatMap tokenBytes ++ rest ∧
    q = (ts.flatMap tokenBytes).length

theorem AfterTokens.token (h : AfterTokens S q) {i : Instr} {rest : List Byte} (hi : IsToken i)
    (hS : S.drop q = tokenBytes i ++ rest) : AfterTokens S (q + (tokenBytes i).length) := by
  obtain ⟨ts, rest', hts, rfl, rfl⟩ := h
  rw [List.drop_left] at hS
  exact ⟨ts ++ [i], rest, List.forall_mem_append.mpr ⟨hts, List.forall_mem_singleton.mpr hi⟩, by simp [hS],
    by simp⟩

/-- Where the walk of R73 takes a verbatim token, one stands whole. -/
theorem exists_verb_at (hq' : q + 1 < S.length) (hb : S.getD q 0#8 = SENTINEL)
    (hend : q + verbStride (S.getD (q + 1) 0#8) ≤ S.length) :
    ∃ i rest, IsToken i ∧ S.drop q = tokenBytes i ++ rest ∧
      (tokenBytes i).length = verbStride (S.getD (q + 1) 0#8) := by
  have hcut : S.drop q = SENTINEL :: S.getD (q + 1) 0#8 :: S.drop (q + 1 + 1) := by
    rw [drop_eq_getD_cons (by omega), hb, drop_eq_getD_cons hq']
  generalize S.getD (q + 1) 0#8 = sc at hend hcut ⊢
  have hfit : ceil8 (verbCount sc) ≤ (S.drop (q + 1 + 1)).length := by
    unfold verbStride at hend
    rw [List.length_drop]
    omega
  obtain ⟨hi, hS⟩ := decodeToken_ok_iff.mp (decodeToken_verb_take hfit)
  exact ⟨_, _, hi, hcut.trans hS, tokenBytes_verb_length (by simpa using hfit)⟩

/-- The walk comes to the ends of lists of tokens in front of the stream, and nowhere else. -/
theorem reaches_iff : Reaches S q ↔ AfterTokens S q := by
  constructor
  · intro h
    induction h with
    | start => exact ⟨[], S, by simp, rfl, rfl⟩
    | run q _ hq hb ih =>
      obtain ⟨i, hread⟩ := decodeToken_of_ne_sentinel hb (S.drop (q + 1))
      rw [← drop_eq_getD_cons hq] at hread
      obtain ⟨hi, hS⟩ := decodeToken_ok_iff.mp hread
      have hlen := congrArg List.length hS
      rw [List.length_append, List.length_drop, List.length_drop] at hlen
      have hone : (tokenBytes i).length = 1 := by omega
      exact hone ▸ ih.token hi hS
    | verb q _ hq' hb hend ih =>
      obtain ⟨i, rest, hi, hS, hstride⟩ := exists_verb_at hq' hb hend
      exact hstride ▸ ih.token hi hS
  · rintro ⟨ts, rest, hts, rfl, rfl⟩
    induction ts using List.reverseRecOn generalizing rest with
    | nil => exact .start
    | append_singleton ts i ih =>
      obtain ⟨hts, hi⟩ := List.forall_mem_append.mp hts
      have hreach := (ih (tokenBytes i ++ rest) hts).token (List.forall_mem_singleton.mp hi) (List.drop_left ..)
      simpa using hreach

theorem dec_eq_error_iff_reaches : dec S = .error q ↔ Reaches S q ∧ Overshoots S q := by
  rw [dec_eq_error_iff, reaches_iff, overshoots_iff]
  constructor
  · rintro ⟨ts, rest, hts, rfl, hrest, rfl⟩
    exact ⟨⟨ts, rest, hts, rfl, rfl⟩, by rwa [List.drop_left]⟩
  · rintro ⟨⟨ts, rest, hts, rfl, rfl⟩, hrest⟩
    exact ⟨ts, rest, hts, rfl, by rwa [List.drop_left] at hrest, rfl⟩

end Walk

/-- Settles O13: RLE_DEC ends with MALFORMED exactly where `DEC` reports an offset, which is where the walk stops. -/
theorem malformedExactly : Obligations.MalformedExactly := by
  intro s p hidle
  rw [← dec_eq_error_iff_reaches]
  constructor
  · rintro ⟨t, hexec, herr, hinfo⟩
    rcases exec_rleDec_errCode hexec with ⟨q, hq, -, hinfo'⟩ | ⟨D, -, herr'⟩ | ⟨D, -, herr', -⟩
    · rw [hq, ← hinfo', hinfo]
    · exact absurd (herr'.symm.trans herr) (by decide)
    · exact absurd (herr'.symm.trans herr) (by decide)
  · intro hdec
    obtain ⟨t, hexec, -, hentry⟩ := (rleDecOutcome s hidle).1 p hdec
    exact ⟨t, hexec, hentry.ended.err, hentry.ended.info⟩

/-! ### The decoded length (R164) -/

/-- A token stands for at most 127 bits a byte. -/
theorem tokenCount_le {i : Instr} (hi : IsToken i) : tokenCount i ≤ 127 * (tokenBytes i).length := by
  obtain rfl | ⟨len, -, rfl⟩ | ⟨len, -, rfl⟩ | ⟨sc, payload, hp, rfl⟩ := hi.cases
  · exact Nat.zero_le _
  · exact Nat.le_of_lt_succ len.isLt
  · exact Nat.le_of_lt_succ len.isLt
  · rw [tokenBytes_verb_length hp]
    simp only [tokenCount, verbStride, verbCount, ceil8]
    omega

theorem tokens_bits_length (ts : List Instr) : (ts.flatMap tokenBits).length = (ts.map tokenCount).sum := by
  simp only [List.length_flatMap, tokenBits_length]

theorem tokens_count_le {ts : List Instr} (hts : ∀ i ∈ ts, IsToken i) :
    (ts.map tokenCount).sum ≤ 127 * (ts.flatMap tokenBytes).length := by
  induction ts with
  | nil => exact Nat.zero_le _
  | cons i ts ih =>
    obtain ⟨hi, hrest⟩ := List.forall_mem_cons.mp hts
    have hhead := tokenCount_le hi
    have htail := ih hrest
    simp only [List.map_cons, List.sum_cons, List.flatMap_cons, List.length_append]
    omega

/-- Settles O22: the vector stored is the bits of the tokens of the stream. -/
theorem decodedLength : Obligations.DecodedLength := by
  intro s t hexec herr
  rcases exec_rleDec_errCode hexec with ⟨q, -, herr', -⟩ | ⟨D, -, herr'⟩ | ⟨D, hD, -, hlen⟩
  · exact absurd (herr'.symm.trans herr) (by decide)
  · exact absurd (herr'.symm.trans herr) (by decide)
  · obtain ⟨ts, hts, hS, rfl⟩ := dec_eq_ok_iff.mp hD
    have hbytes : (ts.flatMap tokenBytes).length = s.byLen := by rw [← hS, s.byteBuffer_length]
    rw [tokens_bits_length] at hlen
    exact ⟨ts, hS ▸ tokensOf_flatMap_tokenBytes hts hbytes.le, hlen, hlen ▸ hbytes ▸ tokens_count_le hts⟩

end Sys2Proof.Machine
end

section
/-! PROOFS. What each token does in each pass (R166 to R169), with its encoding. -/

namespace Sys2Proof.Machine

open Sys2Proof

section Passes

variable {i : Instr} {bits : List Bit} {stride : Nat} {s : State}

/-- A token that counts or writes bits counts them in pass 1 (R162). -/
theorem countsInPass1_of_applyToken (hexec : exec i s = applyToken bits stride s) (hpass : s.eng.decPass = .size) :
    CountsInPass1 i bits stride s :=
  ⟨_, hexec.trans (applyToken_size bits stride hpass), rfl, rfl, rfl, rfl, by constructor <;> rfl⟩

/-- A token that counts or writes bits writes them in pass 2, where the cells exist (R163). -/
theorem writesInPass2_of_applyToken (hexec : exec i s = applyToken bits stride s)
    (hpass : s.eng.decPass = .materialise) (hroom : 0 < bits.length → s.eng.wrCur + bits.length ≤ s.params.maxBits) :
    WritesInPass2 i bits stride s := by
  refine ⟨_, hexec.trans (applyToken_materialise bits stride hpass hroom), rfl, rfl, rfl, fun j hj => ?inside,
    fun a ha => ?outside, by constructor <;> rfl⟩
  case inside =>
    rw [State.bit_withEng, State.bit_writeBits, dif_pos (by omega)]
    simp
  case outside => rw [State.bit_withEng, State.bit_writeBits, dif_neg (by omega)]

end Passes

/-- Settles O26: the byte is the length with value bit 0, and the meaning is to count or write `len` zeros. -/
theorem run0Effect : Obligations.Run0Effect := by
  refine ⟨fun len hne => ⟨0#1 ++ len, ?_, rfl, ?_⟩, fun len s => ⟨fun hpass => ?_, fun hpass hroom => ?_⟩⟩
  · simpa using runField_toNat 0#1 len
  · exact decodeToken_tokenBytes (i := .run0 len) (by simpa [WellFormed] using hne) rfl []
  · exact countsInPass1_of_applyToken rfl hpass
  · exact writesInPass2_of_applyToken rfl hpass (by simpa using fun _ => hroom)

/-- Settles O27: the byte is the length with value bit 1, and the meaning is to count or write `len` ones. -/
theorem run1Effect : Obligations.Run1Effect := by
  refine ⟨fun len hne => ⟨1#1 ++ len, ?_, rfl, ?_⟩, fun len s => ⟨fun hpass => ?_, fun hpass hroom => ?_⟩⟩
  · simpa using runField_toNat 1#1 len
  · exact decodeToken_tokenBytes (i := .run1 len) (by simpa [WellFormed] using hne) rfl []
  · exact countsInPass1_of_applyToken rfl hpass
  · exact writesInPass2_of_applyToken rfl hpass (by simpa using fun _ => hroom)

/-- A stream of only ZRUN tokens (R169). -/
theorem dec_zruns (n : Nat) : dec (List.replicate n 0x00#8) = .ok [] := by
  induction n with
  | zero => exact dec_nil
  | succ n ih => exact dec_append (S₁ := [0x00#8]) (D₁ := []) rfl ih

/-- Settles O28: a token of no bits has no room to need; its one-byte stream decodes to nothing and joins with any. -/
theorem zrunEffect : Obligations.ZrunEffect := by
  refine ⟨rfl, dec_zruns, fun S₁ S₂ D₁ D₂ h₁ h₂ => ?between, fun s =>
    ⟨fun hpass => countsInPass1_of_applyToken rfl hpass,
      fun hpass => writesInPass2_of_applyToken rfl hpass fun hpos => absurd hpos (by decide)⟩⟩
  case between => exact dec_append h₁ (dec_append (S₁ := [0x00#8]) (D₁ := []) rfl h₂)

/-- In pass 1 a verbatim token whose end lies beyond `BY_LEN` takes the error (R165, R168). -/
theorem execVerb_beyond {sc : Byte} {payload : List Byte} {s : State} (hp : payload.length = ceil8 (verbCount sc))
    (hpass : s.eng.decPass = .size) (hend : s.byLen < s.eng.tokPc + verbStride sc) :
    execVerb sc payload s = .next (s.endCommand .malformed s.eng.tokPc) := by
  simp [execVerb, hp, hpass, hend, State.raise_eq]

/-- Settles O29: the three cases of the meaning of VERB, the test of the end being made in pass 1 only, and the bits
of `UNPACK`. -/
theorem verbEffect : Obligations.VerbEffect := by
  intro sc payload s (hp : payload.length = ceil8 (verbCount sc))
  refine ⟨rfl, fun hpass hend => ?beyond, fun hpass hend => ?counts, fun hpass hroom => ?writes,
    unpack_length _ _ _, fun j hj => ?bits⟩
  case beyond =>
    have hexec := execVerb_beyond hp hpass (by unfold verbStride verbCount; omega)
    exact ⟨_, hexec, rfl, endCommand_errorEntry s s.cmd .malformed s.eng.tokPc⟩
  case counts =>
    have hfit : s.eng.tokPc + verbStride sc ≤ s.byLen := by unfold verbStride verbCount; omega
    exact countsInPass1_of_applyToken (execVerb_eq_applyToken hp hfit) hpass
  case writes =>
    exact writesInPass2_of_applyToken (execVerb_materialise hp hpass) hpass (by simpa [verbCount] using hroom)
  case bits =>
    have hfit : 0 + (sc.toNat + 1) ≤ 8 * payload.length := by rw [hp]; unfold ceil8 verbCount; omega
    simpa using unpack_getElem? hj hfit

end Sys2Proof.Machine
end

section
/-! PROOFS. The steps of the running decoder (R170): at a token, at a truncated token (R165, R245). -/

namespace Sys2Proof.Machine

open Sys2Proof

/-! ### The bytes a step fetches -/

/-- No token is longer than 34 bytes (R72). -/
theorem tokenBytes_length_le {i : Instr} (hi : IsToken i) : (tokenBytes i).length ≤ 34 := by
  obtain rfl | ⟨len, -, rfl⟩ | ⟨len, -, rfl⟩ | ⟨sc, payload, hp, rfl⟩ := hi.cases
  · decide
  · exact Nat.le_add_left 1 33
  · exact Nat.le_add_left 1 33
  · have hsc := sc.isLt
    rw [tokenBytes_verb_length hp]
    unfold verbStride verbCount ceil8
    omega

/-- The fetched bytes are the first 34 of the rest of the buffer. -/
theorem State.fetchToken_eq_take (s : State) : s.fetchToken = (s.byteBuffer.drop s.eng.tokPc).take 34 := by
  refine List.ext_getElem (by simp [State.fetchToken_length]) fun i _ _ => ?_
  simp [State.fetchToken, State.byteBuffer]

section Steps

variable {s : State}

/-- A token at `TOK_PC` is fetched whole. -/
theorem decodeToken_fetchToken {i : Instr} {rest : List Byte} (hi : IsToken i)
    (hat : s.byteBuffer.drop s.eng.tokPc = tokenBytes i ++ rest) :
    ∃ rest', decodeToken s.fetchToken = .ok (i, rest') := by
  refine ⟨rest.take (34 - (tokenBytes i).length), decodeToken_ok_iff.mpr ⟨hi, ?_⟩⟩
  rw [State.fetchToken_eq_take, hat, List.take_append, List.take_of_length_le (tokenBytes_length_le hi)]

/-- What the fetched bytes start with, the rest of the buffer starts with. -/
theorem headTruncated_fetchToken (h : HeadTruncated (s.byteBuffer.drop s.eng.tokPc)) :
    ∃ e, decodeToken s.fetchToken = .error e := by
  cases hread : decodeToken s.fetchToken with
  | error e => exact ⟨e, rfl⟩
  | ok token =>
    obtain ⟨hi, hS⟩ := decodeToken_ok_iff.mp hread
    obtain ⟨-, e, he⟩ := headTruncated_iff.mp h
    rw [← List.take_append_drop 34 (s.byteBuffer.drop s.eng.tokPc), ← State.fetchToken_eq_take, hS,
      List.append_assoc, decodeToken_ok_iff.mpr ⟨hi, rfl⟩] at he
    cases he

theorem tokPc_lt_byLen_of_drop_ne_nil (h : s.byteBuffer.drop s.eng.tokPc ≠ []) : s.eng.tokPc < s.byLen := by
  simpa using h

/-! ### A step of the running decoder -/

/-- RLE_DEC runs in `s`, with nothing scheduled. -/
structure DecoderRuns (s : State) : Prop where
  busy     : s.busy = true
  cmd      : s.cmd = 3#2
  schedule : s.host.schedule = []

theorem DecoderRuns.step_eq (h : DecoderRuns s) : step s = decStep s := by
  rw [step_unscheduled h.schedule, if_pos h.busy, engineStep_rleDec h.cmd]

/-- At a token the step is its meaning (R170). -/
theorem DecoderRuns.step_token (h : DecoderRuns s) {i : Instr} {rest : List Byte} (hi : IsToken i)
    (hat : s.byteBuffer.drop s.eng.tokPc = tokenBytes i ++ rest) : step s = exec i s := by
  obtain ⟨rest', hread⟩ := decodeToken_fetchToken hi hat
  have hlt : s.eng.tokPc < s.byLen := tokPc_lt_byLen_of_drop_ne_nil (by
    rw [hat]; exact List.append_ne_nil_of_left_ne_nil (tokenBytes_ne_nil hi.2) rest)
  rw [h.step_eq, decStep, if_pos hlt, hread]

/-- At a truncated token there is nothing to execute. -/
theorem DecoderRuns.step_headTruncated (h : DecoderRuns s) (hat : HeadTruncated (s.byteBuffer.drop s.eng.tokPc)) :
    step s = badToken s := by
  obtain ⟨e, hread⟩ := headTruncated_fetchToken hat
  have hlt := tokPc_lt_byLen_of_drop_ne_nil (headTruncated_iff.mp hat).1
  rw [h.step_eq, decStep, if_pos hlt, hread]

theorem badToken_size (hpass : s.eng.decPass = .size) : badToken s = .next (s.endCommand .malformed s.eng.tokPc) := by
  simp [badToken, hpass, State.raise_eq]

theorem badToken_materialise (hpass : s.eng.decPass = .materialise) : badToken s = .refused .streamChanged := by
  simp [badToken, hpass]

end Steps

theorem isCommand_of_encode_token {i : Instr} {tok : List Byte} (h : encode i = .token tok) : i.isCommand = false := by
  cases i with
  | explode => cases h
  | implode => cases h
  | rleEnc => cases h
  | rleDec => cases h
  | _ => rfl

/-- Settles O32: the token is fetched whole, so it is the one executed. -/
theorem stepRunsTheToken : Obligations.StepRunsTheToken := by
  rintro s i tok hbusy hcmd hsched hwf htok ⟨rest, hat⟩
  have hbytes : tokenBytes i = tok := by rw [tokenBytes, htok]
  exact DecoderRuns.step_token ⟨hbusy, hcmd, hsched⟩ ⟨hwf, isCommand_of_encode_token htok⟩ (by rw [hbytes, hat])

/-- Settles O33: at a truncated token pass 1 takes the error and pass 2 has no behaviour. -/
theorem stepAtAnOvershootingToken : Obligations.StepAtAnOvershootingToken := by
  intro s hbusy hcmd hsched hover
  have hstep := DecoderRuns.step_headTruncated ⟨hbusy, hcmd, hsched⟩ (overshoots_iff.mp hover)
  exact ⟨fun hpass => ⟨_, hstep.trans (badToken_size hpass), rfl, endCommand_errorEntry s s.cmd .malformed _⟩,
    fun hpass => hstep.trans (badToken_materialise hpass)⟩

end Sys2Proof.Machine
end

section
/-! PROOFS. The running decoder (R170) against the function form (R161): pass 1 counts the tokens of the stream, pass 2
writes them, and each ends where `DEC` ends. -/

namespace Sys2Proof.Machine

open Sys2Proof

section Running

variable {s t u v : State} {ts : List Instr} {rest : List Byte}

/-! ### Runs joined -/

theorem run_add {a : Nat} (b : Nat) (h : Host.Core.run core a s = .next u) :
    Host.Core.run core (a + b) s = Host.Core.run core b u := by
  induction a generalizing s with
  | zero =>
    cases h
    rw [Nat.zero_add]
  | succ a ih =>
    rw [Nat.succ_add]
    cases hstep : step s with
    | next v =>
      rw [run_succ_of_step a hstep] at h
      rw [run_succ_of_step (a + b) hstep, ih h]
    | fault r =>
      have hstop : core.step s = .fault r := hstep
      simp [Host.Core.run, hstop] at h
    | refused r =>
      have hstop : core.step s = .refused r := hstep
      simp [Host.Core.run, hstop] at h

theorem run_then_step {a : Nat} (h : Host.Core.run core a s = .next u) (hstep : step u = .next v) :
    Host.Core.run core (a + 1) s = .next v :=
  (run_add 1 h).trans (run_succ_of_step 0 hstep)

/-! ### One token -/

/-- A token that lies whole below `BY_LEN` counts or writes its bits (R166 to R169). -/
theorem exec_token {i : Instr} (hi : IsToken i) (hend : s.eng.tokPc + (tokenBytes i).length ≤ s.byLen) :
    exec i s = applyToken (tokenBits i) (tokenBytes i).length s := by
  obtain rfl | ⟨len, -, rfl⟩ | ⟨len, -, rfl⟩ | ⟨sc, payload, hp, rfl⟩ := hi.cases
  · rfl
  · rfl
  · rfl
  · rw [tokenBytes_verb_length hp] at hend ⊢
    exact execVerb_eq_applyToken hp hend

theorem DecoderRuns.step_applyToken (h : DecoderRuns s) {i : Instr} (hi : IsToken i)
    (hat : s.byteBuffer.drop s.eng.tokPc = tokenBytes i ++ rest) :
    step s = applyToken (tokenBits i) (tokenBytes i).length s := by
  have hlen := congrArg List.length hat
  have hpos := tokenBytes_pos hi
  rw [List.length_drop, s.byteBuffer_length, List.length_append] at hlen
  rw [h.step_token hi hat, exec_token hi (by omega)]

theorem drop_add_of_drop_eq {S P : List Byte} {p : Nat} (h : S.drop p = P ++ rest) : S.drop (p + P.length) = rest := by
  rw [← List.drop_drop, h, List.drop_left]

/-! ### Pass 1 (R162) -/

/-- The decoder after so many bits and bytes of pass 1. -/
def State.counted (bits bytes : Nat) (s : State) : State :=
  s.withEng { s.eng with decTotal := s.eng.decTotal + bits, tokPc := s.eng.tokPc + bytes }

theorem State.counted_counted (m n m' n' : Nat) (s : State) :
    (s.counted m n).counted m' n' = s.counted (m + m') (n + n') := by
  simp [State.counted, State.withEng, Nat.add_assoc]

theorem DecoderRuns.counted (h : DecoderRuns s) (m n : Nat) : DecoderRuns (s.counted m n) :=
  ⟨h.busy, h.cmd, h.schedule⟩

/-- Pass 1 over tokens: one step a token. -/
theorem DecoderRuns.run_size (h : DecoderRuns s) (hts : ∀ i ∈ ts, IsToken i) (hpass : s.eng.decPass = .size)
    (hat : s.byteBuffer.drop s.eng.tokPc = ts.flatMap tokenBytes ++ rest) :
    Host.Core.run core ts.length s =
      .next (s.counted (ts.flatMap tokenBits).length (ts.flatMap tokenBytes).length) := by
  induction ts generalizing s with
  | nil => rfl
  | cons i ts ih =>
    obtain ⟨hi, hts⟩ := List.forall_mem_cons.mp hts
    rw [List.flatMap_cons, List.append_assoc] at hat
    have hstep := (h.step_applyToken hi hat).trans (applyToken_size _ _ hpass)
    rw [List.length_cons, run_succ_of_step ts.length hstep]
    refine (ih (h.counted _ _) hts hpass (drop_add_of_drop_eq hat)).trans ?_
    rw [List.flatMap_cons, List.flatMap_cons, List.length_append, List.length_append, ← State.counted_counted]

/-! ### Pass 2 (R163) -/

theorem State.bit_writeBits_append (s : State) (base : Nat) (X Y : List Bit) (a : Nat) :
    (s.writeBits base (X ++ Y)).bit a =
      ((s.writeBits base X).writeBits (base + X.length) Y).bit a := by
  simp only [State.bit_writeBits, List.length_append, List.getElem_append]
  by_cases hX : base ≤ a ∧ a < base + X.length
  · rw [dif_pos (by omega), dif_pos (by omega), dif_neg (by omega), dif_pos hX]
  · by_cases hY : base + X.length ≤ a ∧ a < base + X.length + Y.length
    · rw [dif_pos (by omega), dif_neg (by omega), dif_pos hY]
      simp only [Nat.sub_sub]
    · rw [dif_neg (by omega), dif_neg hY, dif_neg hX]

/-- `t` is the decoder `s` after the bits `X` and so many bytes of pass 2. -/
structure DecoderWrote (X : List Bit) (bytes : Nat) (s t : State) : Prop where
  frame : t = { s with
    bitMem := t.bitMem
    eng := { s.eng with wrCur := s.eng.wrCur + X.length, tokPc := s.eng.tokPc + bytes } }
  cells : ∀ a, t.bit a = (s.writeBits s.eng.wrCur X).bit a

theorem State.decoderWrote_nil (s : State) : DecoderWrote [] 0 s s :=
  ⟨rfl, fun a => by rw [State.bit_writeBits, dif_neg (by simp)]⟩

theorem State.decoderWrote_writeBits (s : State) (X : List Bit) (n : Nat) :
    DecoderWrote X n s ((s.writeBits s.eng.wrCur X).withEng { s.eng with
      wrCur := s.eng.wrCur + X.length, tokPc := s.eng.tokPc + n }) :=
  ⟨rfl, fun _ => rfl⟩

theorem DecoderWrote.trans {X Y : List Bit} {m n : Nat} (h : DecoderWrote X m s t) (h' : DecoderWrote Y n t u) :
    DecoderWrote (X ++ Y) (m + n) s u := by
  refine ⟨?_, fun a => ?_⟩
  · rw [h'.frame, h.frame]
    simp [Nat.add_assoc]
  · have hcur : t.eng.wrCur = s.eng.wrCur + X.length := by rw [h.frame]
    rw [h'.cells, State.bit_writeBits_append, State.bit_writeBits, State.bit_writeBits, hcur, h.cells]

theorem DecoderWrote.runs {X : List Bit} {m : Nat} (h : DecoderWrote X m s t) (hs : DecoderRuns s) : DecoderRuns t := by
  rw [h.frame]
  exact ⟨hs.busy, hs.cmd, hs.schedule⟩

/-- Pass 2 over tokens for whose bits there is room: one step a token. -/
theorem DecoderRuns.run_materialise (h : DecoderRuns s) (hts : ∀ i ∈ ts, IsToken i)
    (hpass : s.eng.decPass = .materialise) (hat : s.byteBuffer.drop s.eng.tokPc = ts.flatMap tokenBytes ++ rest)
    (hroom : s.eng.wrCur + (ts.flatMap tokenBits).length ≤ s.params.maxBits) :
    ∃ t, Host.Core.run core ts.length s = .next t ∧
      DecoderWrote (ts.flatMap tokenBits) (ts.flatMap tokenBytes).length s t := by
  induction ts generalizing s with
  | nil => exact ⟨s, rfl, s.decoderWrote_nil⟩
  | cons i ts ih =>
    obtain ⟨hi, hts⟩ := List.forall_mem_cons.mp hts
    simp only [List.flatMap_cons, List.length_append, List.append_assoc] at hat hroom
    have hstep := (h.step_applyToken hi hat).trans (applyToken_materialise _ _ hpass fun _ => by omega)
    have hwrote := s.decoderWrote_writeBits (tokenBits i) (tokenBytes i).length
    obtain ⟨t, hrun, ht⟩ := ih (hwrote.runs h) hts hpass (drop_add_of_drop_eq hat) (by
      simp only [State.withEng_eng, State.withEng_params, State.writeBits_params]
      omega)
    refine ⟨t, (run_succ_of_step ts.length hstep).trans hrun, ?_⟩
    simpa only [List.flatMap_cons, List.length_append] using hwrote.trans ht

/-! ### The end of a pass -/

theorem DecoderRuns.step_turn (h : DecoderRuns s) (hend : s.eng.tokPc = s.byLen) (hpass : s.eng.decPass = .size) :
    step s = .next (decTurn s) := by
  simp [h.step_eq, decStep, hend, hpass]

theorem DecoderRuns.step_final (h : DecoderRuns s) (hend : s.eng.tokPc = s.byLen)
    (hpass : s.eng.decPass = .materialise) : step s = .next (decFinal s) := by
  simp [h.step_eq, decStep, hend, hpass]

/-! ### The whole command -/

theorem tokens_length_le (hts : ∀ i ∈ ts, IsToken i) : ts.length ≤ (ts.flatMap tokenBytes).length := by
  induction ts with
  | nil => exact Nat.le_refl _
  | cons i ts ih =>
    obtain ⟨hi, hts⟩ := List.forall_mem_cons.mp hts
    have hhead := tokenBytes_pos hi
    have htail := ih hts
    rw [List.flatMap_cons, List.length_append, List.length_cons]
    omega

/-- Started in `s`, the decoder ends within the bound of R170 and with the observable result of `t`. -/
def DecoderEndsAs (s t : State) : Prop :=
  ∃ (k : Nat) (u : State), k ≤ 2 * s.byLen + 2 ∧ Host.Core.run core k (startDecoder s) = .next u ∧
    u.busy = false ∧ u.result = t.result ∧ u.host = s.host

/-- It is enough to end a command on the inputs that `t` ends it on. -/
theorem decoderEndsAs_of_run {k : Nat} {e : ErrKind} {info : Nat} {w : State} (hk : k ≤ 2 * s.byLen + 2)
    (hrun : Host.Core.run core k (startDecoder s) = .next (w.endCommand e info)) (hsame : SameInputs w t)
    (hhost : w.host = s.host) : DecoderEndsAs s (t.endCommand e info) :=
  ⟨k, _, hk, hrun, w.busy_endCommand e info, hsame.result_endCommand e info, hhost⟩

/-- Started in `s`, the decoder has counted the tokens `ts` in pass 1 and stands before the bytes `rest`. -/
structure DecoderCounted (ts : List Instr) (rest : List Byte) (s t : State) : Prop where
  frame : t = (startDecoder s).withEng t.eng
  runs  : DecoderRuns t
  pass  : t.eng.decPass = .size
  tokPc : t.eng.tokPc = (ts.flatMap tokenBytes).length
  total : t.eng.decTotal = (ts.flatMap tokenBits).length
  ahead : t.byteBuffer.drop t.eng.tokPc = rest

theorem DecoderCounted.sameInputs (h : DecoderCounted ts rest s t) : SameInputs t s := by
  rw [h.frame]
  exact ⟨rfl, rfl, rfl, rfl, rfl, s.reservedBits_setBusy true, rfl⟩

theorem DecoderCounted.host (h : DecoderCounted ts rest s t) : t.host = s.host := by
  rw [h.frame]
  rfl

/-- The start of pass 2 (R170). -/
def State.materialising (s : State) : State :=
  s.withEng { s.eng with decPass := .materialise, tokPc := 0, wrCur := 0 }

theorem State.materialising_wrCur (s : State) : s.materialising.eng.wrCur = 0 := rfl

theorem State.materialising_params (s : State) : s.materialising.params = s.params := rfl

/-- The decoder after pass 2, with `BV_LEN` written, has the counted bits as its vector and the other inputs of `s`. -/
theorem DecoderWrote.sameInputs_final {n : Nat} (hu : DecoderWrote (ts.flatMap tokenBits) n t.materialising u)
    (ht : DecoderCounted ts rest s t) :
    SameInputs { u with bvLen := u.eng.decTotal } (s.storeBv (ts.flatMap tokenBits)) := by
  obtain ⟨hparams, -, hby, hargOff, hargNbits, hreserved, hcmd⟩ := ht.sameInputs
  have htotal : u.eng.decTotal = (ts.flatMap tokenBits).length := by
    rw [hu.frame]
    exact ht.total
  refine ⟨?_, ?bv, ?_, ?_, ?_, ?_, ?_⟩
  case bv =>
    rw [State.bitVector_storeBv]
    refine List.ext_getElem (by simp [htotal]) fun i _ hi => ?_
    have hbit : State.bit { u with bvLen := u.eng.decTotal } i = _ := hu.cells i
    rw [State.bit_writeBits, t.materialising_wrCur, dif_pos (by omega)] at hbit
    simpa [State.bitVector] using hbit
  all_goals rw [hu.frame]; assumption

section Started

variable (hcmd : s.cmd = 3#2) (hsched : s.host.schedule = [])
include hcmd hsched

/-- The start (R170), and pass 1 over the tokens at the head of the stream. -/
theorem startDecoder_counts (hts : ∀ i ∈ ts, IsToken i) (hS : s.byteBuffer = ts.flatMap tokenBytes ++ rest) :
    ∃ t, Host.Core.run core ts.length (startDecoder s) = .next t ∧ DecoderCounted ts rest s t := by
  have hruns : DecoderRuns (startDecoder s) := ⟨s.busy_setBusy true, hcmd, hsched⟩
  have htokPc := Nat.zero_add (ts.flatMap tokenBytes).length
  refine ⟨_, hruns.run_size hts rfl hS, ⟨rfl, hruns.counted _ _, rfl, htokPc, Nat.zero_add _, ?_⟩⟩
  have hdrop : s.byteBuffer.drop (ts.flatMap tokenBytes).length = rest := by rw [hS, List.drop_left]
  rw [← htokPc] at hdrop
  exact hdrop

/-- A malformed stream: pass 1 comes to the truncated token, and takes the error there (R165). -/
theorem startDecoder_malformed {q : Nat} (hdec : dec s.byteBuffer = .error q) :
    DecoderEndsAs s (s.endCommand .malformed q) := by
  obtain ⟨ts, rest, hts, hS, htrunc, rfl⟩ := dec_eq_error_iff.mp hdec
  obtain ⟨t, hrun, ht⟩ := startDecoder_counts hcmd hsched hts hS
  have hstep := (ht.runs.step_headTruncated (ht.ahead.symm ▸ htrunc)).trans (badToken_size ht.pass)
  rw [ht.tokPc] at hstep
  have hcount := tokens_length_le hts
  have hlen := congrArg List.length hS
  rw [s.byteBuffer_length, List.length_append] at hlen
  exact decoderEndsAs_of_run (by omega) (run_then_step hrun hstep) ht.sameInputs ht.host

/-- An accepted stream: pass 1 counts its bits and comes to its end, in at most one step a byte. -/
theorem startDecoder_accepts {D : List Bit} (hdec : dec s.byteBuffer = .ok D) :
    ∃ ts t, (∀ i ∈ ts, IsToken i) ∧ s.byteBuffer = ts.flatMap tokenBytes ∧ D = ts.flatMap tokenBits ∧
      ts.length ≤ s.byLen ∧ Host.Core.run core ts.length (startDecoder s) = .next t ∧ DecoderCounted ts [] s t ∧
      step t = .next (decTurn t) := by
  obtain ⟨ts, hts, hS, hD⟩ := dec_eq_ok_iff.mp hdec
  obtain ⟨t, hrun, ht⟩ := startDecoder_counts hcmd hsched (rest := []) hts (hS.trans (List.append_nil _).symm)
  have hlen : s.byLen = (ts.flatMap tokenBytes).length := by rw [← hS, s.byteBuffer_length]
  have hend : t.eng.tokPc = t.byLen := by rw [ht.tokPc, ht.sameInputs.byLen, hlen]
  exact ⟨ts, t, hts, hS, hD, hlen ▸ tokens_length_le hts, hrun, ht, ht.runs.step_turn hend ht.pass⟩

/-- Too many bits: the turn step takes the error (R170, R171). -/
theorem startDecoder_tooLong {D : List Bit} (hdec : dec s.byteBuffer = .ok D) (hlong : s.params.maxBits < D.length) :
    DecoderEndsAs s (s.endCommand .allocation 0) := by
  obtain ⟨ts, t, -, -, rfl, hcount, hrun, ht, hstep⟩ := startDecoder_accepts hcmd hsched hdec
  have hturn : decTurn t = t.endCommand .allocation 0 :=
    if_pos (by rw [ht.total, ht.sameInputs.params]; exact hlong)
  rw [hturn] at hstep
  exact decoderEndsAs_of_run (by omega) (run_then_step hrun hstep) ht.sameInputs ht.host

/-- Otherwise pass 2 writes the bits, and the final step makes them the vector (R170). -/
theorem startDecoder_fits {D : List Bit} (hdec : dec s.byteBuffer = .ok D) (hfit : D.length ≤ s.params.maxBits) :
    DecoderEndsAs s ((s.storeBv D).endCommand .none 0) := by
  obtain ⟨ts, t, hts, hS, rfl, hcount, hrun, ht, hstep⟩ := startDecoder_accepts hcmd hsched hdec
  have hparams := ht.sameInputs.params
  have hturn : decTurn t = t.materialising := if_neg (by rw [ht.total, hparams]; omega)
  have hruns : DecoderRuns t.materialising := ⟨ht.runs.busy, ht.runs.cmd, ht.runs.schedule⟩
  have hahead : t.byteBuffer = ts.flatMap tokenBytes ++ [] := by rw [ht.sameInputs.by_, hS, List.append_nil]
  obtain ⟨u, hrun', hu⟩ := hruns.run_materialise hts rfl hahead
    (by rw [t.materialising_wrCur, Nat.zero_add, t.materialising_params, hparams]; exact hfit)
  have hend : u.eng.tokPc = u.byLen := by
    rw [hu.frame]
    refine (Nat.zero_add _).trans ?_
    rw [← hS, s.byteBuffer_length]
    exact ht.sameInputs.byLen.symm
  have hfinal := (hu.runs hruns).step_final hend (by rw [hu.frame]; rfl)
  rw [hturn] at hstep
  have hwhole := run_then_step ((run_add ts.length (run_then_step hrun hstep)).trans hrun') hfinal
  refine decoderEndsAs_of_run (by omega) hwhole (hu.sameInputs_final ht) ?_
  exact (congrArg State.host hu.frame).trans ht.host

end Started

/-- The write of `CMD` in the machine form starts the decoder on the inputs of the function form. -/
theorem step_starts_decoder {ms : List HostMove} (hidle : s.busy = false) (hgrain : s.grain = .machine)
    (hsched : s.host.schedule = []) (hmoves : s.host.moves = .writeCmd 3#2 :: ms) :
    ∃ s₁ : State, step s = .next (startDecoder s₁) ∧ SameInputs s₁ (s.withCmd 3#2) ∧
      s₁.host.schedule = [] ∧ s₁.host.moves = ms := by
  have hstart := writeCmd_machine (s := s.withHost { s.host with moves := ms }) 3#2 hgrain hidle
  exact ⟨_, (step_unscheduled_move hidle hsched hmoves).trans hstart, ⟨rfl, rfl, rfl, rfl, rfl, rfl, rfl⟩,
    hsched, rfl⟩

end Running

/-- Settles O35: the write of `CMD` starts the decoder, and whatever `DEC` makes of the stream, the passes end the
command as the function form does. -/
theorem decoderMachineMatchesFunction : Obligations.DecoderMachineMatchesFunction := by
  intro s ms _ hidle hgrain hsched hmoves
  obtain ⟨s₁, hstart, hsame, hsched₁, hmoves₁⟩ := step_starts_decoder hidle hgrain hsched hmoves
  have hexec : exec .rleDec s = .next (rleDecEffect (s.withCmd 3#2)) := exec_rleDec_of_idle hidle rfl
  have hends : DecoderEndsAs s₁ (rleDecEffect s₁) := by
    rcases rleDecEffect_cases s₁ with ⟨q, hdec, heff⟩ | ⟨D, hdec, hlong, heff⟩ | ⟨D, hdec, hfit, heff⟩ <;> rw [heff]
    · exact startDecoder_malformed hsame.cmd hsched₁ hdec
    · exact startDecoder_tooLong hsame.cmd hsched₁ hdec hlong
    · exact startDecoder_fits hsame.cmd hsched₁ hdec hfit
  obtain ⟨k, u, hk, hrun, hbusy, hresult, hhost⟩ := hends
  rw [← run_succ_of_step k hstart, Nat.add_comm] at hrun
  have hbyLen : s₁.byLen = s.byLen := hsame.byLen
  exact ⟨u, _, k, hexec, hbyLen ▸ hk, hrun, hbusy, hresult.trans (rleDecEffect_result hsame),
    (congrArg HostSide.moves hhost).trans hmoves₁⟩

end Sys2Proof.Machine
end

section
/-! PROOFS. What a step leaves in `STATUS.ERR` (R203, R212): no operation of the machine writes CAPACITY there. -/

namespace Sys2Proof.Machine

open Sys2Proof

/-- `STATUS.ERR` of `t` is that of `s`, or another outcome than CAPACITY that a command or reset has written. -/
def ErrKeptOrEnded (s t : State) : Prop :=
  t.errCode = s.errCode ∨ ∃ e : ErrKind, e ≠ .capacity ∧ t.errCode = e.code

section Operations

variable {s t u : State}

theorem ErrKeptOrEnded.trans (h : ErrKeptOrEnded s t) (h' : ErrKeptOrEnded t u) : ErrKeptOrEnded s u := by
  rcases h' with hkept | hended
  · rw [ErrKeptOrEnded, hkept]; exact h
  · exact .inr hended

theorem State.withHost_errKeptOrEnded (s : State) (hs : HostSide) : ErrKeptOrEnded s (s.withHost hs) := .inl rfl

theorem endCommand_errKeptOrEnded {e : ErrKind} {info : Nat} (he : e ≠ .capacity := by decide) :
    ErrKeptOrEnded s (u.endCommand e info) := .inr ⟨e, he, u.errCode_endCommand e info⟩

/-! ### The commands in the function form -/

theorem explodeEffect_errKeptOrEnded (s : State) : ErrKeptOrEnded s (explodeEffect s) := by
  rcases explodeEffect_cases s with ⟨_, h⟩ | ⟨_, _, h⟩ | ⟨_, _, h⟩ <;> rw [h] <;> exact endCommand_errKeptOrEnded

theorem implodeEffect_errKeptOrEnded (s : State) : ErrKeptOrEnded s (implodeEffect s) := by
  rcases implodeEffect_cases s with ⟨_, h⟩ | ⟨_, _, h⟩ | ⟨_, _, h⟩ <;> rw [h] <;> exact endCommand_errKeptOrEnded

theorem rleEncEffect_errKeptOrEnded (s : State) : ErrKeptOrEnded s (rleEncEffect s) := by
  rcases rleEncEffect_cases s with ⟨_, h⟩ | ⟨_, _, h⟩ | ⟨_, _, h⟩ <;> rw [h] <;> exact endCommand_errKeptOrEnded

theorem rleDecEffect_errKeptOrEnded (s : State) : ErrKeptOrEnded s (rleDecEffect s) := by
  rcases rleDecEffect_cases s with ⟨_, _, h⟩ | ⟨_, _, _, h⟩ | ⟨_, _, _, h⟩ <;> rw [h] <;>
    exact endCommand_errKeptOrEnded

theorem issue_errKeptOrEnded {c : BitVec 2} {f : State → State} (hf : ∀ u, ErrKeptOrEnded u (f u))
    (h : issue c f s = .next t) : ErrKeptOrEnded s t := by
  obtain ⟨_, rfl⟩ := (issue_next c f).mp h
  exact hf (s.withCmd c)

/-! ### Tokens, and the meaning of every instruction -/

theorem applyToken_errKeptOrEnded {bits : List Bit} {stride : Nat} (h : applyToken bits stride s = .next t) :
    ErrKeptOrEnded s t := by
  rcases applyToken_next h with ⟨_, rfl⟩ | ⟨_, _, rfl⟩ <;> exact .inl rfl

/-- Everything a verbatim token that answers a next state can have done (R168). -/
theorem execVerb_next {sc : Byte} {payload : List Byte} (h : execVerb sc payload s = .next t) :
    t = s.endCommand .malformed s.eng.tokPc ∨ applyToken (verbBits sc payload) (verbStride sc) s = .next t := by
  unfold execVerb at h
  split at h
  · cases h
  · split at h
    · cases h; exact .inl rfl
    · exact .inr h

theorem execVerb_errKeptOrEnded {sc : Byte} {payload : List Byte} (h : execVerb sc payload s = .next t) :
    ErrKeptOrEnded s t := by
  rcases execVerb_next h with rfl | happly
  · exact endCommand_errKeptOrEnded
  · exact applyToken_errKeptOrEnded happly

theorem exec_errKeptOrEnded {i : Instr} (h : exec i s = .next t) : ErrKeptOrEnded s t := by
  cases i with
  | explode => exact issue_errKeptOrEnded explodeEffect_errKeptOrEnded h
  | implode => exact issue_errKeptOrEnded implodeEffect_errKeptOrEnded h
  | rleEnc => exact issue_errKeptOrEnded rleEncEffect_errKeptOrEnded h
  | rleDec => exact issue_errKeptOrEnded rleDecEffect_errKeptOrEnded h
  | verb sc payload => exact execVerb_errKeptOrEnded h
  | zrun => exact applyToken_errKeptOrEnded h
  | run0 len => exact applyToken_errKeptOrEnded h
  | run1 len => exact applyToken_errKeptOrEnded h

/-! ### The engine's turn -/

theorem EncoderWrote.errCode (h : EncoderWrote s t) : t.errCode = s.errCode := by rw [h.frame]; rfl

theorem encStep_errKeptOrEnded (h : encStep s = .next t) : ErrKeptOrEnded s t := by
  rcases encStep_next h with ⟨_, rfl, _⟩ | ⟨_, _, rfl⟩
  · obtain ⟨u, e, hwrote, heq⟩ := encIteration_encoderWrote s
    exact .inl (by rw [heq, State.errCode_withEng, hwrote.errCode])
  · exact endCommand_errKeptOrEnded

theorem decTurn_errKeptOrEnded (s : State) : ErrKeptOrEnded s (decTurn s) := by
  rcases decTurn_cases s with ⟨_, h⟩ | ⟨_, h⟩ <;> rw [h]
  · exact endCommand_errKeptOrEnded
  · exact .inl rfl

theorem decStep_errKeptOrEnded (h : decStep s = .next t) : ErrKeptOrEnded s t := by
  rcases decStep_next h with ⟨_, _, _, _, hexec⟩ | ⟨_, _, _, rfl⟩ | ⟨_, _, rfl⟩ | ⟨_, _, rfl⟩
  · exact exec_errKeptOrEnded hexec
  · exact endCommand_errKeptOrEnded
  · exact decTurn_errKeptOrEnded s
  · exact endCommand_errKeptOrEnded

theorem engineTurn_errKeptOrEnded (h : engineTurn s = .next t) : ErrKeptOrEnded s t := by
  unfold engineTurn at h
  split at h
  · rcases engineStep_cases s with ⟨_, heq⟩ | ⟨_, heq⟩ | ⟨_, heq⟩ | ⟨_, heq⟩ <;> rw [heq] at h
    · cases h; exact explodeEffect_errKeptOrEnded s
    · cases h; exact implodeEffect_errKeptOrEnded s
    · exact encStep_errKeptOrEnded h
    · exact decStep_errKeptOrEnded h
  · cases h; exact .inl rfl

/-! ### The host's turn -/

theorem startEncoder_errKeptOrEnded (s : State) : ErrKeptOrEnded s (startEncoder s) := by
  rcases startEncoder_cases s with ⟨_, h⟩ | ⟨_, _, h⟩ | ⟨_, _, h⟩ <;> rw [h]
  · exact endCommand_errKeptOrEnded
  · exact endCommand_errKeptOrEnded
  · exact .inl (s.errCode_setBusy true)

theorem startCommand_errKeptOrEnded (c : BitVec 2) (s : State) : ErrKeptOrEnded s (startCommand c s) := by
  have hbusy : ErrKeptOrEnded s ((s.withCmd c).setBusy true) := .inl ((s.withCmd c).errCode_setBusy true)
  rcases startCommand_cases c s with ⟨_, h⟩ | ⟨_, h⟩ | ⟨_, _, h⟩ <;> rw [h]
  · exact startEncoder_errKeptOrEnded (s.withCmd c)
  · exact hbusy
  · exact hbusy

theorem writeCmd_errKeptOrEnded {c : BitVec 2} (h : writeCmd c s = .next t) : ErrKeptOrEnded s t := by
  unfold writeCmd at h
  split at h
  · exact exec_errKeptOrEnded h
  · split at h
    · cases h
    · cases h; exact startCommand_errKeptOrEnded c s

theorem hostWrite_errKeptOrEnded {ok : Bool} {why : Refusal} (h : hostWrite ok why u s = .next t)
    (hu : u.errCode = s.errCode) : ErrKeptOrEnded s t := by
  obtain ⟨_, _, rfl⟩ := hostWrite_next.mp h
  exact .inl hu

/-- The error after reset is NONE (R39, R240). -/
theorem State.resetBlock_errKeptOrEnded (s : State) : ErrKeptOrEnded s s.resetBlock :=
  .inr ⟨.none, by decide, (by decide : State.reset.errCode = ErrKind.none.code)⟩

theorem hostMove_errKeptOrEnded {m : HostMove} (h : hostMove m s = .next t) : ErrKeptOrEnded s t := by
  cases m with
  | read r =>
    simp only [hostMove] at h
    split at h
    · cases h; exact s.withHost_errKeptOrEnded _
    · cases h
  | writeBvLen n => exact hostWrite_errKeptOrEnded h rfl
  | writeByLen n => exact hostWrite_errKeptOrEnded h rfl
  | writeArgOff v => exact hostWrite_errKeptOrEnded h rfl
  | writeArgNbits v => exact hostWrite_errKeptOrEnded h rfl
  | writeBit i v => exact hostWrite_errKeptOrEnded h rfl
  | writeByte a v => exact hostWrite_errKeptOrEnded h rfl
  | writeCmd c => exact writeCmd_errKeptOrEnded h
  | reset => cases h; exact s.resetBlock_errKeptOrEnded

theorem hostTurn_errKeptOrEnded (h : hostTurn s = .next t) : ErrKeptOrEnded s t := by
  cases hm : s.host.moves with
  | nil => rw [hostTurn_nil hm] at h; cases h; exact .inl rfl
  | cons m ms => rw [hostTurn_cons hm] at h; exact (s.withHost_errKeptOrEnded _).trans (hostMove_errKeptOrEnded h)

/-! ### One step -/

theorem step_errKeptOrEnded (h : step s = .next t) : ErrKeptOrEnded s t := by
  obtain ⟨hs, hturn⟩ := takeTurn_eq_withHost s
  rcases step_eq_turn s with heq | heq <;> rw [heq, hturn] at h
  · exact (s.withHost_errKeptOrEnded hs).trans (hostTurn_errKeptOrEnded h)
  · exact (s.withHost_errKeptOrEnded hs).trans (engineTurn_errKeptOrEnded h)

end Operations

theorem ErrKind.eq_of_code_eq {e e' : ErrKind} (h : e.code = e'.code) : e = e' :=
  Option.some.inj (by rw [← e.ofCode_code, ← e'.ofCode_code, h])

/-- Settles O48: a step keeps the error or writes that of a command that ends, which is never CAPACITY. -/
theorem capacityNeverProduced : Obligations.CapacityNeverProduced := by
  intro s t hs hstep
  rcases step_errKeptOrEnded hstep with hkept | ⟨e, he, hended⟩
  · rwa [hkept]
  · rw [hended]
    exact fun hcode => he (ErrKind.eq_of_code_eq hcode)

end Sys2Proof.Machine
end

section
/-! PROOFS. The container operations (R191 to R201), element by element. -/

namespace Sys2Proof.Machine

open Sys2Proof

variable {A B : List Bit}

/-! ### create, get, set (R191 to R193) -/

theorem vecCreate_of_le {m n : Nat} (h : n ≤ m) : vecCreate m n = .ok (List.replicate n false) :=
  if_neg (Nat.not_lt.mpr h)

theorem vecCreate_of_lt {m n : Nat} (h : m < n) : vecCreate m n = .error .allocation := if_pos h

theorem vecGet_of_lt {i : Nat} (h : i < A.length) : vecGet A i = .ok A[i] := by simp [vecGet, h]

theorem vecGet_of_le {i : Nat} (h : A.length ≤ i) : vecGet A i = .error .noMeaning := by simp [vecGet, h]

/-- A read depends on the element alone. -/
theorem vecGet_congr {i : Nat} (h : A[i]? = B[i]?) : vecGet A i = vecGet B i := by rw [vecGet, vecGet, h]

theorem vecSet_of_lt {i : Nat} (v : Bit) (h : i < A.length) : vecSet A i v = .ok (A.set i v) := if_pos h

theorem vecSet_of_le {i : Nat} (v : Bit) (h : A.length ≤ i) : vecSet A i v = .error .noMeaning :=
  if_neg (Nat.not_lt.mpr h)

/-- A read after a write of the same element. -/
theorem vecGet_set_same {i : Nat} (v : Bit) (h : i < A.length) : vecGet (A.set i v) i = .ok v := by
  rw [vecGet_of_lt (by simpa using h), List.getElem_set_self]

/-- A read after a write of another element. -/
theorem vecGet_set_ne {i j : Nat} (v : Bit) (h : j ≠ i) : vecGet (A.set i v) j = vecGet A j :=
  vecGet_congr (List.getElem?_set_ne h.symm)

/-! ### append (R200) -/

/-- `A` with the elements from `off` on replaced by `X`. -/
def overwriteAt (A : List Bit) (off : Nat) (X : List Bit) : List Bit :=
  A.take off ++ X ++ A.drop (off + X.length)

theorem overwriteAt_length {off : Nat} {X : List Bit} (h : off + X.length ≤ A.length) :
    (overwriteAt A off X).length = A.length := by
  rw [overwriteAt, List.length_append, List.length_append, List.length_take, List.length_drop]
  omega

theorem overwriteAt_getElem?_inside {off i : Nat} {X : List Bit} (h : off + X.length ≤ A.length)
    (hi : i < X.length) : (overwriteAt A off X)[off + i]? = X[i]? := by
  have hoff : (A.take off).length = off := List.length_take_of_le (by omega)
  rw [overwriteAt, List.append_assoc, List.getElem?_append_right (by omega), hoff, Nat.add_sub_cancel_left,
    List.getElem?_append_left hi]

theorem overwriteAt_getElem?_outside {off j : Nat} {X : List Bit} (h : off + X.length ≤ A.length)
    (hj : j < off ∨ off + X.length ≤ j) : (overwriteAt A off X)[j]? = A[j]? := by
  have hoff : (A.take off).length = off := List.length_take_of_le (by omega)
  rcases hj with hbefore | hafter
  · rw [overwriteAt, List.append_assoc, List.getElem?_append_left (by omega), List.getElem?_take_of_lt hbefore]
  · have hlen : (A.take off ++ X).length = off + X.length := by rw [List.length_append, hoff]
    rw [overwriteAt, List.getElem?_append_right (by omega), hlen, List.getElem?_drop,
      Nat.add_sub_cancel' hafter]

section Append

variable {off : Nat} {src : VectorSource} {n? : Option Nat}

theorem appendOverlaps_eq_true_iff {n : Nat} : appendOverlaps src off n = true ↔ src = .self ∧ off < n := by
  simp [appendOverlaps]

/-- The capacity test comes first, and nothing else fails with CapacityError. -/
theorem vecAppend_eq_capacity_iff :
    vecAppend A off src n? = .error .capacity ↔ A.length < off + appendCount A src n? := by
  unfold vecAppend
  dsimp only
  split_ifs with hroom
  · exact iff_of_true rfl hroom
  all_goals exact iff_of_false (by simp) hroom

theorem vecAppend_of_beyondSource (hroom : off + appendCount A src n? ≤ A.length)
    (hlong : (src.elements A).length < appendCount A src n?) : vecAppend A off src n? = .error .noMeaning := by
  unfold vecAppend
  exact (if_neg (Nat.not_lt.mpr hroom)).trans (if_pos hlong)

theorem vecAppend_of_overlaps (hroom : off + appendCount A src n? ≤ A.length)
    (hover : appendOverlaps src off (appendCount A src n?) = true) :
    vecAppend A off src n? = .error .noMeaning := by
  unfold vecAppend
  dsimp only
  rw [if_neg (Nat.not_lt.mpr hroom), if_pos hover, ite_self]

theorem vecAppend_of_fits (hroom : off + appendCount A src n? ≤ A.length)
    (hsrc : appendCount A src n? ≤ (src.elements A).length)
    (hover : appendOverlaps src off (appendCount A src n?) = false) :
    vecAppend A off src n? = .ok (overwriteAt A off ((src.elements A).take (appendCount A src n?))) := by
  unfold vecAppend
  dsimp only
  rw [if_neg (Nat.not_lt.mpr hroom), if_neg (Nat.not_lt.mpr hsrc), if_neg (by simp [hover]), overwriteAt,
    List.length_take_of_le hsrc]

end Append

/-! ### compare (R198) -/

theorem vecCompare_of_shorter (h : A.length < B.length) : vecCompare A B = -1 := if_pos h

theorem vecCompare_of_longer (h : B.length < A.length) : vecCompare A B = 1 :=
  (if_neg (Nat.not_lt.mpr h.le)).trans (if_pos h)

theorem vecCompare_of_sameLength (h : A.length = B.length) : vecCompare A B = firstDifference A B :=
  (if_neg h.not_lt).trans (if_neg h.not_gt)

theorem firstDifference_cons_same (a : Bit) (A B : List Bit) :
    firstDifference (a :: A) (a :: B) = firstDifference A B := if_pos rfl

/-- Sequences of equal length that never differ are equal. -/
theorem firstDifference_eq_zero_iff (h : A.length = B.length) : firstDifference A B = 0 ↔ A = B := by
  induction A generalizing B with
  | nil => cases B with
    | nil => simp [firstDifference]
    | cons b B => simp at h
  | cons a A ih => cases B with
    | nil => simp at h
    | cons b B =>
      by_cases hab : a = b
      · subst hab
        simp [firstDifference_cons_same, ih (by simpa using h)]
      · cases a <;> simp [firstDifference, hab]

/-- The difference that decides is the same from both sides. -/
theorem firstDifference_swap (A B : List Bit) : firstDifference B A = -firstDifference A B := by
  induction A generalizing B with
  | nil => cases B <;> rfl
  | cons a A ih => cases B with
    | nil => rfl
    | cons b B => cases a <;> cases b <;> simp [firstDifference, ih]

theorem firstDifference_of_first {i : Nat} (hsame : ∀ j, j < i → A[j]? = B[j]?) (hA : A[i]? = some false)
    (hB : B[i]? = some true) : firstDifference A B = -1 := by
  induction A generalizing B i with
  | nil => simp at hA
  | cons a A ih => cases B with
    | nil => simp at hB
    | cons b B => cases i with
      | zero =>
        obtain rfl : a = false := by simpa using hA
        obtain rfl : b = true := by simpa using hB
        rfl
      | succ i =>
        obtain rfl : a = b := by simpa using hsame 0 (Nat.succ_pos i)
        rw [firstDifference_cons_same]
        exact ih (fun j hj => by simpa using hsame (j + 1) (Nat.succ_lt_succ hj)) hA hB

theorem vecCompare_swap (A B : List Bit) : vecCompare B A = -vecCompare A B := by
  rcases Nat.lt_trichotomy A.length B.length with h | h | h
  · rw [vecCompare_of_shorter h, vecCompare_of_longer h, neg_neg]
  · rw [vecCompare_of_sameLength h, vecCompare_of_sameLength h.symm, firstDifference_swap]
  · rw [vecCompare_of_shorter h, vecCompare_of_longer h]

/-! ### resize and slice (R197, R201) -/

theorem vecResize_of_lt {m n : Nat} (A : List Bit) (c : Bool) (d : Nat) (h : m < n) :
    vecResize m A n c d = .error .allocation := if_pos h

theorem vecResize_clear {m n : Nat} (A : List Bit) (d : Nat) (h : n ≤ m) :
    vecResize m A n true d = .ok (List.replicate n false) := if_neg (Nat.not_lt.mpr h)

theorem vecResize_keep {m n : Nat} (A : List Bit) (d : Nat) (h : n ≤ m) :
    vecResize m A n false d = .ok (A.take n ++ freshBits d (n - A.length)) := if_neg (Nat.not_lt.mpr h)

theorem vecSlice_of_le {off n : Nat} (h : off + n ≤ A.length) : vecSlice A off n = .ok ((A.drop off).take n) :=
  if_pos h

theorem vecSlice_of_lt {off n : Nat} (h : A.length < off + n) : vecSlice A off n = .error .noMeaning :=
  if_neg (Nat.not_le.mpr h)

/-! ### The obligations -/

/-- Settles O54: each operation's own equation, and a read after a write. -/
theorem containerBasics : Obligations.ContainerBasics := by
  refine ⟨fun m n => ⟨fun h => ?_, vecCreate_of_lt⟩, fun A i v =>
    ⟨fun h => ?_, fun h => ⟨vecGet_of_le h, vecSet_of_le v h⟩, rfl,
      ⟨List.length_replicate, fun _ => List.eq_of_mem_replicate⟩,
      ⟨List.length_replicate, fun _ => List.eq_of_mem_replicate⟩⟩⟩
  · exact ⟨_, vecCreate_of_le h, List.length_replicate, fun _ => List.eq_of_mem_replicate⟩
  · exact ⟨vecGet_of_lt h, _, vecSet_of_lt v h, List.length_set, vecGet_set_same v h, fun _ => vecGet_set_ne v⟩

/-- Settles O55: the branches of `append`. The ranges of self share an element exactly when `destOffset < n`. -/
theorem appendOverwritesInPlace : Obligations.AppendOverwritesInPlace := by
  intro A off src n? S n hS hn
  obtain rfl : S = src.elements A := by cases src <;> exact hS
  obtain rfl : n = appendCount A src n? := by cases n? <;> exact hn
  refine ⟨vecAppend_eq_capacity_iff, fun hroom hsrc hself => ?fits, vecAppend_of_beyondSource,
    fun hself hroom ⟨i, j, hi, _, hij⟩ => ?overlap⟩
  case fits =>
    have hover : appendOverlaps src off (appendCount A src n?) = false :=
      Bool.eq_false_iff.mpr fun h =>
        have ⟨hsame, hlt⟩ := appendOverlaps_eq_true_iff.mp h
        Nat.not_lt.mpr (hself hsame) hlt
    have hlen := List.length_take_of_le hsrc
    rw [← hlen] at hroom
    refine ⟨_, vecAppend_of_fits (hlen ▸ hroom) hsrc hover, overwriteAt_length hroom, fun i hi => ?_,
      fun j hj => overwriteAt_getElem?_outside hroom (by rwa [hlen])⟩
    rw [overwriteAt_getElem?_inside hroom (by rwa [hlen]), List.getElem?_take_of_lt hi]
  case overlap => exact vecAppend_of_overlaps hroom (appendOverlaps_eq_true_iff.mpr ⟨hself, by omega⟩)

/-- Settles O56: the lengths decide, and between equal lengths the first difference. -/
theorem compareIsLengthThenBits : Obligations.CompareIsLengthThenBits := by
  intro A B
  refine ⟨vecCompare_of_shorter, vecCompare_of_longer, fun hlen => ?_, fun i hlen hsame hA hB => ?_,
    vecCompare_swap A B⟩
  · rw [vecCompare_of_sameLength hlen, firstDifference_eq_zero_iff hlen]
  · have hless : vecCompare A B = -1 := by
      rw [vecCompare_of_sameLength hlen, firstDifference_of_first hsame hA hB]
    exact ⟨hless, by rw [vecCompare_swap, hless, neg_neg]⟩

/-- Settles O57: the mirrored list, the two forms of `resize`, and the sub-range. -/
theorem reverseResizeSlice : Obligations.ReverseResizeSlice := by
  refine ⟨fun A => ⟨List.length_reverse, List.reverse_reverse A, fun i => List.getElem?_reverse⟩,
    fun m A n d hn => ⟨vecResize_clear A d hn, _, vecResize_keep A d hn, ?length, fun i hi hold => ?oldPrefix⟩,
    fun m A n d c => vecResize_of_lt A c d, fun A off n => ⟨fun hin => ?slice, vecSlice_of_lt⟩⟩
  case length =>
    rw [List.length_append, List.length_take, freshBits_length]
    omega
  case oldPrefix => rw [List.getElem?_append_left (by simp; omega), List.getElem?_take_of_lt hi]
  case slice =>
    refine ⟨_, vecSlice_of_le hin, by simp; omega, fun i hi => ?_⟩
    rw [List.getElem?_take_of_lt hi, List.getElem?_drop]

end Sys2Proof.Machine
end

section
/-! PROOFS. How a command ends (R217, R219): which errors it can end with, and that an error changes nothing but its
report. -/

namespace Sys2Proof.Machine

open Sys2Proof

/-- What a command that fails on the stream `S` reports (R165, R217): `ERR_INFO` is the offset of the offending token
for MALFORMED, and 0 otherwise. -/
structure Reports (S : List Byte) (e : ErrKind) (info : Nat) : Prop where
  failed : e ≠ .none
  zero   : e ≠ .malformed → info = 0
  offset : e = .malformed → Reaches S info ∧ Overshoots S info

/-- The effect of a command ends it with success, whatever it has stored, or does nothing but report one of `errs`. -/
def EndsWithin (errs : List ErrKind) (f : State → State) : Prop :=
  ∀ s : State, (∃ u : State, f s = u.endCommand .none 0 ∧ u.host = s.host) ∨
    ∃ e ∈ errs, ∃ info, Reports s.byteBuffer e info ∧ f s = s.endCommand e info

section Ends

variable {s t : State} {c : BitVec 2} {errs : List ErrKind} {f : State → State}

/-! ### The four commands -/

theorem reports_allocation (S : List Byte) : Reports S .allocation 0 := ⟨by decide, fun _ => rfl, nofun⟩

theorem reports_range (S : List Byte) : Reports S .range 0 := ⟨by decide, fun _ => rfl, nofun⟩

theorem reports_malformed {S : List Byte} {q : Nat} (hdec : dec S = .error q) : Reports S .malformed q :=
  ⟨by decide, fun h => absurd rfl h, fun _ => dec_eq_error_iff_reaches.mp hdec⟩

/-- The shape of the commands that test their range first and the capacity second (R103, R118, R137). -/
theorem endsWithin_of_range_allocation (h : ∀ s : State, f s = s.endCommand .range 0 ∨
    f s = s.endCommand .allocation 0 ∨ ∃ u : State, f s = u.endCommand .none 0 ∧ u.host = s.host) :
    EndsWithin [.allocation, .range] f := by
  intro s
  rcases h s with hrange | halloc | hdone
  · exact .inr ⟨.range, by decide, 0, reports_range _, hrange⟩
  · exact .inr ⟨.allocation, by decide, 0, reports_allocation _, halloc⟩
  · exact .inl hdone

theorem explodeEffect_endsWithin : EndsWithin [.allocation, .range] explodeEffect :=
  endsWithin_of_range_allocation fun s =>
    (explodeEffect_cases s).imp And.right (Or.imp (·.2.2) fun ⟨_, _, h⟩ => ⟨_, h, rfl⟩)

theorem implodeEffect_endsWithin : EndsWithin [.allocation, .range] implodeEffect :=
  endsWithin_of_range_allocation fun s =>
    (implodeEffect_cases s).imp And.right (Or.imp (·.2.2) fun ⟨_, _, h⟩ => ⟨_, h, rfl⟩)

theorem rleEncEffect_endsWithin : EndsWithin [.allocation, .range] rleEncEffect :=
  endsWithin_of_range_allocation fun s =>
    (rleEncEffect_cases s).imp And.right (Or.imp (·.2.2) fun ⟨_, _, h⟩ => ⟨_, h, rfl⟩)

theorem rleDecEffect_endsWithin : EndsWithin [.malformed, .allocation] rleDecEffect := by
  intro s
  rcases rleDecEffect_cases s with ⟨q, hdec, h⟩ | ⟨D, -, -, h⟩ | ⟨D, -, -, h⟩
  · exact .inr ⟨.malformed, by decide, q, reports_malformed hdec, h⟩
  · exact .inr ⟨.allocation, by decide, 0, reports_allocation _, h⟩
  · exact .inl ⟨_, h, rfl⟩

/-! ### What follows for every such command -/

/-- Every command is issued with its code and an effect that ends so. -/
theorem exec_command_eq_issue {i : Instr} (hi : i.isCommand = true) :
    ∃ c errs f, encode i = .cmd c ∧ EndsWithin errs f ∧ ∀ s, exec i s = issue c f s := by
  cases i with
  | explode => exact ⟨0#2, _, _, rfl, explodeEffect_endsWithin, fun _ => rfl⟩
  | implode => exact ⟨1#2, _, _, rfl, implodeEffect_endsWithin, fun _ => rfl⟩
  | rleEnc => exact ⟨2#2, _, _, rfl, rleEncEffect_endsWithin, fun _ => rfl⟩
  | rleDec => exact ⟨3#2, _, _, rfl, rleDecEffect_endsWithin, fun _ => rfl⟩
  | verb sc payload => cases hi
  | zrun => cases hi
  | run0 len => cases hi
  | run1 len => cases hi

theorem EndsWithin.idle_host (hf : EndsWithin errs f) (s : State) : (f s).busy = false ∧ (f s).host = s.host := by
  rcases hf s with ⟨u, h, hhost⟩ | ⟨e, -, info, -, h⟩ <;> rw [h]
  · exact ⟨u.busy_endCommand _ _, hhost⟩
  · exact ⟨s.busy_endCommand _ _, rfl⟩

theorem EndsWithin.issue_errCode (hf : EndsWithin errs f) (h : issue c f s = .next t) :
    t.errCode ∈ (ErrKind.none :: errs).map ErrKind.code := by
  obtain ⟨-, rfl⟩ := (issue_next c f).mp h
  rcases hf (s.withCmd c) with ⟨u, h, -⟩ | ⟨e, he, info, -, h⟩ <;> rw [h, State.errCode_endCommand]
  · exact List.mem_map_of_mem List.mem_cons_self
  · exact List.mem_map_of_mem (List.mem_cons_of_mem _ he)

theorem EndsWithin.issue_failed (hf : EndsWithin errs f) (h : issue c f s = .next t)
    (herr : t.errCode ≠ ErrKind.none.code) :
    ∃ e info, Reports s.byteBuffer e info ∧ t = (s.withCmd c).endCommand e info := by
  obtain ⟨-, rfl⟩ := (issue_next c f).mp h
  rcases hf (s.withCmd c) with ⟨u, h, -⟩ | ⟨e, -, info, hreport, h⟩
  · exact absurd (h ▸ u.errCode_endCommand .none 0) herr
  · exact ⟨e, info, hreport, h⟩

/-! ### Tokens -/

theorem applyToken_status {bits : List Bit} {stride : Nat} (h : applyToken bits stride s = .next t) :
    t.status = s.status := by
  rcases applyToken_next h with ⟨-, rfl⟩ | ⟨-, -, rfl⟩ <;> rfl

/-- A token that writes STATUS is a VERB that takes MALFORMED (R219). -/
theorem exec_token_writes_status {i : Instr} (hi : i.isCommand = false) (h : exec i s = .next t)
    (hstatus : t.status ≠ s.status) :
    (∃ sc payload, i = .verb sc payload) ∧ t.errCode = ErrKind.malformed.code := by
  cases i with
  | explode => cases hi
  | implode => cases hi
  | rleEnc => cases hi
  | rleDec => cases hi
  | zrun => exact absurd (applyToken_status h) hstatus
  | run0 len => exact absurd (applyToken_status h) hstatus
  | run1 len => exact absurd (applyToken_status h) hstatus
  | verb sc payload =>
    rcases execVerb_next h with rfl | happly
    · exact ⟨⟨sc, payload, rfl⟩, s.errCode_endCommand _ _⟩
    · exact absurd (applyToken_status happly) hstatus

end Ends

/-- Settles O44: an effect that does not succeed does nothing but report, which is error entry from the state of its
issue. -/
theorem failedCommandChangesNothing : Obligations.FailedCommandChangesNothing := by
  intro i s t hi hexec herr
  obtain ⟨c, errs, f, hcode, hf, hissue⟩ := exec_command_eq_issue hi
  obtain ⟨e, info, ⟨hfailed, hzero, hoffset⟩, rfl⟩ := hf.issue_failed (hissue s ▸ hexec) herr
  exact ⟨e, info, hfailed, hzero, hoffset, hcode, endCommand_errorEntry s c e info⟩

/-! ### States from which each error is taken -/

/-- An idle block with these capacities and lengths and this `ARG_NBITS`, the rest as after reset. -/
def idleBlock (maxBits maxBytes bvLen byLen argNbits : Nat) : State :=
  { State.reset with
    params := { State.reset.params with maxBits := maxBits, maxBytes := maxBytes }
    bvLen := bvLen, byLen := byLen, argNbits := argNbits }

/-- An idle block whose buffer is a lone sentinel. -/
def loneSentinel : State := State.reset.storeBy [SENTINEL]

theorem exists_errCode_none {i : Instr} (hi : i.isCommand = true) :
    ∃ s t : State, exec i s = .next t ∧ t.errCode = ErrKind.none.code := by
  cases i with
  | explode => exact ⟨State.reset, _, rfl, by decide⟩
  | implode => exact ⟨State.reset, _, rfl, by decide⟩
  | rleEnc => exact ⟨State.reset, _, rfl, by decide⟩
  | rleDec => exact ⟨State.reset, _, rfl, by decide⟩
  | verb sc payload => cases hi
  | zrun => cases hi
  | run0 len => cases hi
  | run1 len => cases hi

/-- The arguments ask for one bit, and both memories are empty. -/
theorem exists_errCode_range {i : Instr} (hi : i ∈ [Instr.explode, .implode, .rleEnc]) :
    ∃ s t : State, exec i s = .next t ∧ t.errCode = ErrKind.range.code := by
  simp only [List.mem_cons, List.not_mem_nil, or_false] at hi
  rcases hi with rfl | rfl | rfl <;> exact ⟨idleBlock 1 1 0 0 1, _, rfl, by decide⟩

/-- Eight packed bits for seven cells; nine bits for one byte; one bit, whose size bound is three bytes, for one byte. -/
theorem exists_errCode_allocation {i : Instr} (hi : i ∈ [Instr.explode, .implode, .rleEnc]) :
    ∃ s t : State, exec i s = .next t ∧ t.errCode = ErrKind.allocation.code := by
  simp only [List.mem_cons, List.not_mem_nil, or_false] at hi
  rcases hi with rfl | rfl | rfl
  · exact ⟨idleBlock 7 1 0 1 8, _, rfl, by decide⟩
  · exact ⟨idleBlock 9 1 9 0 9, _, rfl, by decide⟩
  · exact ⟨idleBlock 1 1 1 0 1, _, rfl, by decide⟩

/-- Settles O43: each command's effect ends within the errors listed, each of which some state raises; of the tokens
only VERB does more than `applyToken`. -/
theorem errorsByCommand : Obligations.ErrorsByCommand := by
  refine ⟨fun s t => ⟨explodeEffect_endsWithin.issue_errCode, implodeEffect_endsWithin.issue_errCode,
      rleEncEffect_endsWithin.issue_errCode, rleDecEffect_endsWithin.issue_errCode⟩,
    fun i hi e he => ?each, fun e he => ?decoder, fun i s t => exec_token_writes_status, ?verb⟩
  case each =>
    simp only [List.mem_cons, List.not_mem_nil, or_false] at he
    rcases he with rfl | rfl | rfl
    · exact exists_errCode_none (by revert i; decide)
    · exact exists_errCode_allocation hi
    · exact exists_errCode_range hi
  case decoder =>
    simp only [List.mem_cons, List.not_mem_nil, or_false] at he
    rcases he with rfl | rfl | rfl
    · exact exists_errCode_none rfl
    · exact ⟨loneSentinel, _, rfl, by decide⟩
    · exact ⟨(idleBlock 1 1 0 0 0).storeBy [0x02#8], _, rfl, by decide⟩
  case verb =>
    exact ⟨0#8, [0x00#8], startDecoder (loneSentinel.withCmd 3#2), _, rfl, by decide, by decide⟩

end Sys2Proof.Machine
end

section
/-! PROOFS. The host's write of `CMD` (R225): it runs the command in the function form, and starts it in the machine
form. -/

namespace Sys2Proof.Machine

open Sys2Proof

section Issue

variable {s : State} {c : BitVec 2} {ms : List HostMove}

theorem writeCmd_command (c : BitVec 2) (hgrain : s.grain = .command) : writeCmd c s = exec (decodeCmd c) s := by
  simp [writeCmd, hgrain]

theorem step_starts_command (hidle : s.busy = false) (hgrain : s.grain = .machine) (hsched : s.host.schedule = [])
    (hmoves : s.host.moves = .writeCmd c :: ms) :
    step s = .next (startCommand c (s.withHost { s.host with moves := ms })) :=
  (step_unscheduled_move hidle hsched hmoves).trans (writeCmd_machine c hgrain hidle)

/-- A start writes `CMD`, `BUSY` and internal registers, where the tests of RLE_ENC do not fail it (R225 (2), log 16). -/
theorem startCommand_eq_withEng
    (htests : c ≠ 2#2 ∨ s.argNbits ≤ s.bvLen ∧ sizeBound s.argNbits ≤ s.params.maxBytes) :
    ∃ e, startCommand c s = ((s.withCmd c).setBusy true).withEng e := by
  rcases startCommand_cases c s with ⟨rfl, h⟩ | ⟨rfl, h⟩ | ⟨-, -, h⟩ <;> rw [h]
  · obtain ⟨hin, hfit⟩ := htests.resolve_left (absurd rfl)
    rcases startEncoder_cases (s.withCmd 2#2) with ⟨hout, -⟩ | ⟨-, hlong, -⟩ | ⟨-, -, heq⟩
    · exact absurd hin (Nat.not_le_of_lt hout)
    · exact absurd hfit (Nat.not_le_of_lt hlong)
    · exact ⟨_, heq⟩
  · exact ⟨_, rfl⟩
  · exact ⟨s.eng, rfl⟩

theorem engineStep_explode (h : s.cmd = 0#2) : engineStep s = .next (explodeEffect s) := by
  simp [engineStep, decodeCmd, h]

theorem engineStep_implode (h : s.cmd = 1#2) : engineStep s = .next (implodeEffect s) := by
  simp [engineStep, decodeCmd, h]

/-- A started command that the engine ends in one step ends with the result of the function form (log 17). -/
theorem run_started_command {errs : List ErrKind} {f : State → State} (hf : EndsWithin errs f)
    (hresult : ∀ u u' : State, SameInputs u u' → (f u).result = (f u').result)
    (hengine : ∀ u : State, u.cmd = c → engineStep u = .next (f u)) (hsched : s.host.schedule = [])
    (hstep : step s = .next (((s.withHost { s.host with moves := ms }).withCmd c).setBusy true)) :
    ∃ t, Host.Core.run core 2 s = .next t ∧ t.busy = false ∧ t.result = (f (s.withCmd c)).result ∧
      t.host.moves = ms := by
  set u := ((s.withHost { s.host with moves := ms }).withCmd c).setBusy true
  have hstep' : step u = .next (f u) := by
    rw [step_unscheduled (s := u) hsched, if_pos (State.busy_setBusy _ true), hengine u rfl]
  have hsame : SameInputs u (s.withCmd c) := ⟨rfl, rfl, rfl, rfl, rfl, State.reservedBits_setBusy _ true, rfl⟩
  obtain ⟨hidle, hhost⟩ := hf.idle_host u
  exact ⟨f u, (run_succ_of_step 1 hstep).trans (run_succ_of_step 0 hstep'), hidle, hresult u _ hsame,
    congrArg HostSide.moves hhost⟩

end Issue

/-- Settles O31: an idle block's step is the host's move, and in the function form the write of `CMD` is the command. -/
theorem stepRunsTheCommand : Obligations.StepRunsTheCommand := fun _ c _ hidle hgrain hsched hmoves =>
  (step_unscheduled_move hidle hsched hmoves).trans (writeCmd_command c hgrain)

/-- Settles O36: the write of `CMD` is a start, which writes nothing but `CMD`, `BUSY` and internal registers; the
engine's step of EXPLODE and of IMPLODE is the effect of the function form. -/
theorem startSetsBusy : Obligations.StartSetsBusy := by
  intro s c ms hidle hgrain hsched hmoves
  have hstep := step_starts_command hidle hgrain hsched hmoves
  refine ⟨fun htests => ?starts, ?ends⟩
  case starts =>
    obtain ⟨e, heq⟩ := startCommand_eq_withEng (s := s.withHost { s.host with moves := ms }) htests
    rw [heq] at hstep
    exact ⟨_, hstep, State.busy_setBusy _ true, rfl, State.errCode_setBusy _ true, rfl, rfl, rfl, rfl, rfl,
      ⟨rfl, rfl, State.reservedBits_setBusy _ true, rfl, rfl, rfl⟩⟩
  case ends =>
    rintro (rfl | rfl)
    · obtain ⟨t, hrun, hends⟩ := run_started_command explodeEffect_endsWithin (fun _ _ => explodeEffect_result)
        (fun _ => engineStep_explode) hsched hstep
      exact ⟨t, _, hrun, exec_explode_of_idle hidle rfl, hends⟩
    · obtain ⟨t, hrun, hends⟩ := run_started_command implodeEffect_endsWithin (fun _ _ => implodeEffect_result)
        (fun _ => engineStep_implode) hsched hstep
      exact ⟨t, _, hrun, exec_implode_of_idle hidle rfl, hends⟩

end Sys2Proof.Machine
end

section
/-! PROOFS. Reset and who may act when (R240, R241, R247, R254): reset at any time, the accesses refused while a command
runs, and the idle block. -/

namespace Sys2Proof.Machine

open Sys2Proof

section Hazards

variable {s : State}

/-! ### While a command runs -/

theorem hostWrite_busy {ok : Bool} {why : Refusal} {u : State} (h : s.busy = true) :
    hostWrite ok why u s = .refused .accessWhileBusy := if_pos h

/-- Only `STATUS` is read while `BUSY = 1` (R247). -/
theorem hostRead_busy {r : HostRead} (h : s.busy = true) (hr : r ≠ .status) :
    hostRead r s = .error .accessWhileBusy := by
  cases r with
  | status => exact absurd rfl hr
  | _ => exact if_pos h

/-- A second command is refused in both grains: where it would run, and where it would start. -/
theorem writeCmd_busy (c : BitVec 2) (h : s.busy = true) : writeCmd c s = .refused .accessWhileBusy := by
  unfold writeCmd
  cases s.grain with
  | command => exact commandRefusedWhileBusy (decodeCmd c) s (decodeCmd_isCommand c) h
  | machine => exact if_pos h

/-- Every move but a read of `STATUS` and reset is refused while `BUSY = 1` (R38, R247). -/
theorem hostMove_busy {m : HostMove} (h : s.busy = true) (hstatus : m ≠ .read .status) (hreset : m ≠ .reset) :
    hostMove m s = .refused .accessWhileBusy := by
  cases m with
  | read r => rw [hostMove, hostRead_busy h (fun hr => hstatus (congrArg _ hr))]
  | writeCmd c => exact writeCmd_busy c h
  | reset => exact absurd rfl hreset
  | _ => exact hostWrite_busy h

/-! ### While the block is idle -/

theorem engineTurn_of_idle (h : s.busy = false) : engineTurn s = .next s := by simp [engineTurn, h]

/-- A scheduled turn of the engine is taken on the block as it is; the schedule has that turn used up. -/
theorem step_scheduled_engine {rest : List Agent} (h : s.host.schedule = .engine :: rest) :
    step s = engineTurn (s.withHost { s.host with schedule := rest }) := by
  simp [step, takeTurn, h, State.withHost]

end Hazards

/-- Settles O39: the step is the reset of the block, whose registers are those of the reset state (R39). -/
theorem resetAtAnyTime : Obligations.ResetAtAnyTime := by
  intro s ms hm
  obtain ⟨hs, hmoves, hstep⟩ := step_of_hostMovesNext hm
  obtain ⟨hbv, hby, hcmd, hoff, hnbits, hstatus, hinfo, hbusy, herr, hvec, hbuf⟩ := resetValues
  exact ⟨(s.withHost hs).resetBlock, hstep, hbv, hby, hcmd, hoff, hnbits, hstatus, hbusy, herr, hinfo, hvec, hbuf,
    hmoves, rfl⟩

/-- Settles O52: the read of `STATUS` always has a meaning; every other move but reset is refused. -/
theorem hostWhileBusy : Obligations.HostWhileBusy := by
  refine fun s m ms hbusy hm => ⟨?read, fun hstatus hreset => ?refused⟩
  case read =>
    rintro rfl
    exact step_read hm rfl
  case refused =>
    obtain ⟨hs, -, hstep⟩ := step_of_hostMovesNext hm
    exact hstep.trans (hostMove_busy hbusy hstatus hreset)

/-- Settles O37: an idle block's turn is the host's, which has no move, or an engine's turn with nothing to run. -/
theorem idleBlockWaits : Obligations.IdleBlockWaits := by
  refine fun s hidle => ⟨fun hsched hmoves => ?host, fun rest hsched => ?engine⟩
  case host => rw [step_unscheduled hsched, hidle, if_neg (by decide), hostTurn_nil hmoves]
  case engine => exact (step_scheduled_engine hsched).trans (engineTurn_of_idle hidle)

end Sys2Proof.Machine
end

section
/-! PROOFS. The encoder and the two decoders are inverse to each other: on the codes of `CMD` (R80) and on the bytes of
a token (R70 to R75). -/

namespace Sys2Proof.Machine

open Sys2Proof

/-- Each of the four codes of `CMD` is the code of its command (R25, R80). -/
theorem encode_decodeCmd (c : BitVec 2) : encode (decodeCmd c) = .cmd c := by
  revert c
  decide

theorem encode_eq_cmd_iff {i : Instr} {c : BitVec 2} : encode i = .cmd c ↔ decodeCmd c = i := by
  refine ⟨fun h => ?_, fun h => h ▸ encode_decodeCmd c⟩
  cases i with
  | explode => cases h; rfl
  | implode => cases h; rfl
  | rleEnc => cases h; rfl
  | rleDec => cases h; rfl
  | _ => cases h

theorem encode_token {i : Instr} (htok : i.isCommand = false) : encode i = .token (tokenBytes i) := by
  cases i with
  | explode => cases htok
  | implode => cases htok
  | rleEnc => cases htok
  | rleDec => cases htok
  | _ => rfl

theorem encode_eq_token_iff {i : Instr} {tok : List Byte} :
    encode i = .token tok ↔ i.isCommand = false ∧ tokenBytes i = tok := by
  refine ⟨fun h => ⟨isCommand_of_encode_token h, by rw [tokenBytes, h]⟩, ?_⟩
  rintro ⟨htok, rfl⟩
  exact encode_token htok

/-- Settles O2: a code determines its command, and a token is read from its own bytes whatever follows them. -/
theorem decodeInvertsEncode : Obligations.DecodeInvertsEncode := by
  refine fun i hwf => ⟨fun c hcmd => encode_eq_cmd_iff.mp hcmd, fun bytes rest henc => ?_⟩
  obtain ⟨htok, rfl⟩ := encode_eq_token_iff.mp henc
  exact decodeToken_tokenBytes hwf htok rest

/-- Settles O3: every code has its command, and what is read is a token whose bytes are those consumed. -/
theorem encodeInvertsDecode : Obligations.EncodeInvertsDecode := by
  refine ⟨encode_decodeCmd, fun bytes i rest hread => ?_⟩
  obtain ⟨⟨hwf, htok⟩, hbytes⟩ := decodeToken_ok_iff.mp hread
  exact ⟨hwf, htok, tokenBytes i, encode_token htok, hbytes⟩

end Sys2Proof.Machine
end
